-- ==== Sys2Proof/Word.lean ====
section
/-! DEFINITION. The words of NVSRAM-CF: bytes on the bus, 32-bit operand and result registers (10_state.md R20).
All values are unsigned (00_scope.md section 5). -/

namespace Sys2Proof

/-- One byte, the unit of every exchange on the bus (30_encoding.md R80). -/
abbrev Byte := BitVec 8

/-- The width of `addr`, `len`, `res`, `cur` and `cnt` (10_state.md R20). -/
abbrev Word := BitVec 32

/-- The width of the fold unit's accumulator (10_state.md R28). -/
abbrev Crc := BitVec 16

end Sys2Proof
end

