-- ==== Sys2Proof/Machine/Crc.lean ====
section
/-! DEFINITION. The CRC-16 fold unit (44_checksum.md R180 to R183), over its named parameter `CRC_POLY`. -/

namespace Sys2Proof.Machine

/-- `CRC_SEED` (44_checksum.md R182). -/
def crcSeed : Crc := 0x0000

/-- One of the eight steps of a fold (44_checksum.md R180). -/
def crcBit (poly c : Crc) : Crc := if c.getLsbD 0 then (c >>> 1) ^^^ poly else c >>> 1

/-- `k` steps. -/
def crcBits (poly : Crc) : Nat → Crc → Crc
  | 0, c => c
  | k + 1, c => crcBits poly k (crcBit poly c)

/-- `crc16_update(crc, b)` (44_checksum.md R180): the byte enters the low 8 bits. -/
def crc16Update (poly crc : Crc) (b : Byte) : Crc := crcBits poly 8 (crc ^^^ b.setWidth 16)

/-- `T[i]` (44_checksum.md R181). -/
def crcTable (poly : Crc) (i : Byte) : Crc := crc16Update poly 0 i

/-- `crc16(s, bytes)` (44_checksum.md R183). -/
def crc16 (poly seed : Crc) (bytes : List Byte) : Crc := bytes.foldl (crc16Update poly) seed

end Sys2Proof.Machine
end

