-- ==== Sys2Proof/Machine/Memory.lean ====
section
/-! DEFINITION. The byte array of the device as a list of cells, addresses strictly rising. An address that is not listed
has never been written and reads as no value; `Device.byteAt` says which byte the device then holds (log 13). No entry
holds "no value", so equal knowledge of the array is equal data. -/

namespace Sys2Proof.Machine

/-- The canonical form: addresses strictly rising. -/
abbrev Memory.wf (m : List Host.Cell) : Prop := (m.map Prod.fst).Pairwise (· < ·)

/-- Every listed address is an address of the device (20_memory.md R50). -/
abbrev Memory.within (capacity : Nat) (m : List Host.Cell) : Prop := ∀ c ∈ m, c.1 < capacity

/-- The byte written last at an address, or no value. -/
def Memory.peek : List Host.Cell → Nat → Option (BitVec 8)
  | [], _ => none
  | (b, v) :: rest, a => if a = b then some v else Memory.peek rest a

/-- Store one byte, keeping the canonical form. -/
def Memory.poke : List Host.Cell → Nat → BitVec 8 → List Host.Cell
  | [], a, v => [(a, v)]
  | (b, w) :: rest, a, v =>
    if a < b then (a, v) :: (b, w) :: rest
    else if a = b then (a, v) :: rest
    else (b, w) :: Memory.poke rest a v

end Sys2Proof.Machine
end

