-- ==== Sys2Proof/Config.lean ====
section
/-! DEFINITION. The configuration record of the block (10_state.md R38) and the free values of the model. -/

namespace Sys2Proof

/-- The two capacity variants (00_scope.md R2, R8): a build with none or with both cannot be written down (R212). -/
inductive Variant where
  | small
  | large
deriving DecidableEq, Repr, Inhabited

/-- What is fixed for the life of one block (00_scope.md R7, 10_state.md R21, R38). No step writes it. -/
structure Config where
  /-- `VARIANT`, open (D20). -/
  variant : Variant
  /-- `N_MAX`, the largest payload of get and put, open, at least 1 (D8). -/
  nMax : Nat
  /-- `DUMMY`, the byte driven while a data byte is clocked in (D5). -/
  dummy : Byte
  /-- `CRC_POLY`, the reflected polynomial of the fold unit (D9, K1). -/
  crcPoly : Crc
deriving DecidableEq, Repr

/-- The variant the machine was built with: open (00_scope.md R7, log 6). -/
opaque Config.openVariant : Variant

/-- One less than the machine's `N_MAX`: open, so `N_MAX` is at least 1 and nothing more is known (R7, D8, log 7). -/
opaque Config.openPayload : Nat

/-- The configuration of the machine after reset: the two OPEN parameters stay open, `DUMMY` and `CRC_POLY` are the
values of 00_scope.md R7 (logs 8 and 9). -/
def Config.machine : Config where
  variant := Config.openVariant
  nMax := Config.openPayload + 1
  dummy := 0x00
  crcPoly := 0xA001

/-- FREE VALUE: the k-th byte the rules call "any value" (20_memory.md R63, R72, D6, log 14). -/
opaque Config.freeByte : Nat → Byte

/-- FREE VALUE: what the device held at an address before the first write there: unspecified but stable
(20_memory.md R70, D15, U21, log 13). -/
opaque Config.initialByte : Nat → Byte

/-- FREE VALUE: where the device's pointer stands after a frame that has not sent it an address, before the reduction into the
device's address space (20_memory.md R61, 10_state.md R40, log 39). -/
opaque Config.freePointer : Nat → Nat

/-- FREE VALUE: whether the device took the exchange that the bus failed at as the k-th free draw (60_exceptions.md
R211, log 23). -/
opaque Config.freeTaken : Nat → Bool

end Sys2Proof
end

