-- ==== Sys2Proof/Syntax.lean ====
section
/-! DEFINITION. The instructions: one constructor per row of spec/opcode_table.json. The rows of space "host" are the
operations a host requests (30_encoding.md R96), the rows of space "wire" are the commands of the external device's
frame decoder (30_encoding.md R81, R82, 20_memory.md R72). -/

namespace Sys2Proof

/-- The instructions. Host operations first, then the five reserved codes, then the wire commands. A wire command's
`ds` are the bytes driven after its header, in order. -/
inductive Instr where
  | create (auto : Bool)
  | initializeDevice
  | length
  | read (a : Word)
  | write (a : Word) (v : Byte)
  | update (a : Word) (v : Byte)
  | get (a : Word) (n : Nat)
  | put (a : Word) (w : List Byte)
  | erase
  | checksum (a : Word) (len : Word)
  | index (a : Word)
  | reservedB
  | reservedC
  | reservedD
  | reservedE
  | reservedF
  | writeModeRegister
  | readS (a : BitVec 16) (ds : List Byte)
  | writeS (a : BitVec 16) (ds : List Byte)
  | readL (a : BitVec 17) (ds : List Byte)
  | writeL (a : BitVec 17) (ds : List Byte)
  | readModeRegister (ds : List Byte)
deriving DecidableEq, Repr

/-- What stands on the request port (10_state.md R39). `wbuf` holds `wbuf[0..n-1]`. -/
structure Request where
  op : BitVec 4
  auto : Bool
  addr : Word
  len : Word
  val : Byte
  n : Nat
  wbuf : List Byte
deriving DecidableEq, Repr

/-- The two encodings (30_encoding.md, head): a host request, or the bytes of one frame, byte 0 first. -/
inductive Code where
  | request (r : Request)
  | frame (bytes : List Byte)
deriving DecidableEq, Repr

end Sys2Proof
end

