-- ==== Sys2Proof/WellFormed.lean ====
section
/-! DEFINITION. Which terms of `Instr` the spec admits on a block of a given configuration. -/

namespace Sys2Proof

/-- 42_block_transfer.md R152: a payload has at least one byte and at most `N_MAX`. -/
def payloadOk (c : Config) (n : Nat) : Bool := decide (1 ≤ n) && decide (n ≤ c.nMax)

/-- 20_memory.md R53, D22: on Small the length port has 16 bits. -/
def lengthOk (c : Config) (len : Word) : Bool :=
  match c.variant with
  | .small => decide (len.toNat ≤ 0xFFFF)
  | .large => true

/-- 30_encoding.md R81: a READ or WRITE frame carries at least one data byte. -/
def dataOk (ds : List Byte) : Bool := !ds.isEmpty

/-- Whether a term is admitted. The W-A16 formats belong to Small, the W-A24 formats to Large (30_encoding.md R81). -/
def wellFormed (c : Config) : Instr → Bool
  | .create _ => true
  | .initializeDevice => true
  | .length => true
  | .read _ => true
  | .write _ _ => true
  | .update _ _ => true
  | .get _ n => payloadOk c n
  | .put _ w => payloadOk c w.length
  | .erase => true
  | .checksum _ len => lengthOk c len
  | .index _ => true
  | .reservedB => true
  | .reservedC => true
  | .reservedD => true
  | .reservedE => true
  | .reservedF => true
  | .writeModeRegister => true
  | .readS _ ds => decide (c.variant = .small) && dataOk ds
  | .writeS _ ds => decide (c.variant = .small) && dataOk ds
  | .readL _ ds => decide (c.variant = .large) && dataOk ds
  | .writeL _ ds => decide (c.variant = .large) && dataOk ds
  | .readModeRegister ds => dataOk ds

end Sys2Proof
end

