-- ==== Sys2Proof/Decode.lean ====
section
/-! DEFINITION. The decoder of host requests (30_encoding.md R96) and of frames (R81, R82), total, rejecting by name;
then the encoder, written from the same tables. -/

namespace Sys2Proof

/-! ### The wire command set (30_encoding.md R82) and the mode byte (R83) -/

def cmdRead : Byte := 0x03
def cmdWrite : Byte := 0x02
def cmdReadModeRegister : Byte := 0x05
def cmdWriteModeRegister : Byte := 0x01

/-- `MODE_SEQ`: "a model treats the byte as the opaque constant" (R83): nothing takes it apart. -/
def modeSeq : Byte := 0x40

/-- Why a request or a frame is no row of the opcode table. -/
inductive DecodeError where
  /-- an operation code above 4 bits: no request port holds one (30_encoding.md R96); it closes the match. -/
  | operationCode
  /-- `wbuf` of a put does not hold exactly `n` bytes (10_state.md R39: `wbuf[0..n-1]`). -/
  | wbufSize
  /-- a frame with no byte. -/
  | emptyFrame
  /-- a first byte that is no wire command (30_encoding.md R93). -/
  | unknownCommand (c : Byte)
  /-- a mode byte other than `0x40` (30_encoding.md R94). -/
  | modeByte (m : Byte)
  /-- a mode register frame that is not two bytes long (30_encoding.md R81, W-MR). -/
  | modeFrameLength
  /-- a frame that ends inside its header (30_encoding.md R90). -/
  | shortHeader
  /-- a READ, WRITE or READ_MODE_REGISTER frame without a data byte (30_encoding.md R81, R82). -/
  | noData
  /-- a Large header whose bits 23:17 are not zero (30_encoding.md R86). -/
  | addressHigh
deriving DecidableEq, Repr

/-- 30_encoding.md R96: the operation of a request. Operand fields that an operation does not read are ignored. -/
def decodeRequest (r : Request) : Except DecodeError Instr :=
  match r.op.toNat with
  | 0x0 => .ok (.create r.auto)
  | 0x1 => .ok .initializeDevice
  | 0x2 => .ok .length
  | 0x3 => .ok (.read r.addr)
  | 0x4 => .ok (.write r.addr r.val)
  | 0x5 => .ok (.update r.addr r.val)
  | 0x6 => .ok (.get r.addr r.n)
  | 0x7 => if r.wbuf.length = r.n then .ok (.put r.addr r.wbuf) else .error .wbufSize
  | 0x8 => .ok .erase
  | 0x9 => .ok (.checksum r.addr r.len)
  | 0xA => .ok (.index r.addr)
  | 0xB => .ok .reservedB
  | 0xC => .ok .reservedC
  | 0xD => .ok .reservedD
  | 0xE => .ok .reservedE
  | 0xF => .ok .reservedF
  | _ => .error .operationCode

/-- Formats W-A16 and W-A24 (30_encoding.md R81): what follows a READ or a WRITE command byte. -/
def decodeAddressed (v : Variant) (isWrite : Bool) (bytes : List Byte) : Except DecodeError Instr :=
  match v, bytes with
  | .small, ah :: al :: ds =>
    if ds.isEmpty then .error .noData
    else if isWrite then .ok (.writeS (ah ++ al) ds)
    else .ok (.readS (ah ++ al) ds)
  | .large, au :: ah :: al :: ds =>
    if 2 ≤ au.toNat then .error .addressHigh
    else if ds.isEmpty then .error .noData
    else if isWrite then .ok (.writeL (au.setWidth 1 ++ ah ++ al) ds)
    else .ok (.readL (au.setWidth 1 ++ ah ++ al) ds)
  | _, _ => .error .shortHeader

/-- The frame table (30_encoding.md R81, R82), for a device of the given variant: the variant is not signalled on the
wire (R90). -/
def decodeFrame (v : Variant) (bytes : List Byte) : Except DecodeError Instr :=
  match bytes with
  | [] => .error .emptyFrame
  | c :: rest =>
    if c = cmdRead then decodeAddressed v false rest
    else if c = cmdWrite then decodeAddressed v true rest
    else if c = cmdWriteModeRegister then
      match rest with
      | [m] => if m = modeSeq then .ok .writeModeRegister else .error (.modeByte m)
      | _ => .error .modeFrameLength
    else if c = cmdReadModeRegister then
      if rest.isEmpty then .error .noData else .ok (.readModeRegister rest)
    else .error (.unknownCommand c)

/-- The decoder. -/
def decode (v : Variant) : Code → Except DecodeError Instr
  | .request r => decodeRequest r
  | .frame bytes => decodeFrame v bytes

/-! ### The encoder -/

/-- A request with the given operation code and nothing on its operand fields. -/
def requestOf (op : BitVec 4) : Request :=
  { op := op, auto := false, addr := 0, len := 0, val := 0, n := 0, wbuf := [] }

/-- The bytes of a W-A16 header (30_encoding.md R81, R85). -/
def headerS (cmd : Byte) (a : BitVec 16) : List Byte := [cmd, a.extractLsb' 8 8, a.extractLsb' 0 8]

/-- The bytes of a W-A24 header (30_encoding.md R81, R86). -/
def headerL (cmd : Byte) (a : BitVec 17) : List Byte :=
  [cmd, (a.extractLsb' 16 1).setWidth 8, a.extractLsb' 8 8, a.extractLsb' 0 8]

/-- The encoder. -/
def encode : Instr → Code
  | .create auto => .request { requestOf 0x0 with auto := auto }
  | .initializeDevice => .request (requestOf 0x1)
  | .length => .request (requestOf 0x2)
  | .read a => .request { requestOf 0x3 with addr := a }
  | .write a v => .request { requestOf 0x4 with addr := a, val := v }
  | .update a v => .request { requestOf 0x5 with addr := a, val := v }
  | .get a n => .request { requestOf 0x6 with addr := a, n := n }
  | .put a w => .request { requestOf 0x7 with addr := a, n := w.length, wbuf := w }
  | .erase => .request (requestOf 0x8)
  | .checksum a len => .request { requestOf 0x9 with addr := a, len := len }
  | .index a => .request { requestOf 0xA with addr := a }
  | .reservedB => .request (requestOf 0xB)
  | .reservedC => .request (requestOf 0xC)
  | .reservedD => .request (requestOf 0xD)
  | .reservedE => .request (requestOf 0xE)
  | .reservedF => .request (requestOf 0xF)
  | .writeModeRegister => .frame [cmdWriteModeRegister, modeSeq]
  | .readS a ds => .frame (headerS cmdRead a ++ ds)
  | .writeS a ds => .frame (headerS cmdWrite a ++ ds)
  | .readL a ds => .frame (headerL cmdRead a ++ ds)
  | .writeL a ds => .frame (headerL cmdWrite a ++ ds)
  | .readModeRegister ds => .frame (cmdReadModeRegister :: ds)

/-! ### Words numbered as spec/opcode_table.json numbers them -/

/-- Byte `k` of a number, byte 0 the least significant. -/
def byteOf (w k : Nat) : Byte := BitVec.ofNat 8 (w >>> (8 * k))

/-- The code a table row of `nbits` bits with the bits `w` stands for. Rows of up to 8 bits are operation codes of the
request port, their operand fields all zero. Longer rows are frame headers, read with the first byte of the frame in
the most significant place ("bit 15 is the first bit of byte 0"), and followed, where the format has a data phase, by
one data byte of zeros. The 8-bit row READ_MODE_REGISTER has the number of the host operation update and cannot be told
from it here (log 4). -/
def tableCode (nbits w : Nat) : Code :=
  if nbits ≤ 8 then .request (requestOf (BitVec.ofNat 4 w))
  else if nbits ≤ 16 then .frame [byteOf w 1, byteOf w 0]
  else if nbits ≤ 24 then .frame [byteOf w 2, byteOf w 1, byteOf w 0, 0]
  else .frame [byteOf w 3, byteOf w 2, byteOf w 1, byteOf w 0, 0]

/-- The variant a table row belongs to: its "variant" column. Rows for both variants decode the same on either. -/
def tableVariant (nbits : Nat) : Variant :=
  if nbits ≤ 24 then .small else .large

/-- The instruction the decoder reads from a table row's word. -/
def decodeTableWord (nbits w : Nat) : Option Instr :=
  (decode (tableVariant nbits) (tableCode nbits w)).toOption

end Sys2Proof
end

