-- ==== Sys2Proof/Machine/State.lean ====
section
/-! DEFINITION. The state of the block (10_state.md R20, R39) and of its environment (R37), as plain data, the reasons a
step can stop, and the state after reset (R40). -/

namespace Sys2Proof.Machine

/-- No fault exists: "The block raises no synchronous exception at run time" (60_exceptions.md R210) and nothing is
trapped (R216). The type is closed and empty, so no step can stop with a fault. -/
inductive Fault where
deriving DecidableEq, Repr

/-- "refuse(reason)": an input outside the domain the rules give a meaning to (00_scope.md section 5). Every refusal is
SAFE: the model stops where the hardware would go on, so no false claim can be proved from it. -/
inductive Refusal where
  /-- raised by exec's own arm for an instruction without a meaning. Safe. -/
  | notModelled (mnemonic : String)
  /-- a request, or a frame at the device's port, while an operation is in progress (60_exceptions.md R215, D18;
  70_reset_and_hazards.md R251). Raised by every meaning. Safe. -/
  | busy
  /-- `create` when the block has been constructed (40_init_and_query.md R110, D19). Safe. -/
  | alreadyCreated
  /-- a second bus initialisation (40_init_and_query.md R110 (c), D19, N15), by `create(cs, true)` or by the host. Safe. -/
  | busAlreadyInitialised
  /-- an operation that uses the bus before `create` (R111, R113, D12). Safe. -/
  | notCreated
  /-- a transfer primitive, or an operation that needs one, while `bus_inited = 0` (20_memory.md R62, R111, R113, D12). Safe. -/
  | busNotInitialised
  /-- a data operation while `inited = 0` (40_init_and_query.md R113, D12). Safe. -/
  | deviceNotInitialised
  /-- `get` or `put` with `n = 0` or `n > N_MAX` (42_block_transfer.md R152, D8). Safe. -/
  | payloadSize
  /-- `checksum` on Small with a length above 65535 (20_memory.md R53, D22, U3). Safe. -/
  | lengthPort
  /-- a reserved operation code (30_encoding.md R96, U13). Raised by the five reserved meanings. Safe. -/
  | reservedCode (op : BitVec 4)
  /-- the reference device has no meaning for a transfer: a second data byte outside sequential mode (20_memory.md
  R74, U15), or a byte after the mode byte (R75). Raised by the operations whose frames meet it and by the wire
  commands. Safe. -/
  | deviceNoMeaning
  /-- the request port holds no operation the decoder knows (10_state.md R39). Raised by step. Safe. -/
  | badRequest (e : DecodeError)
deriving DecidableEq, Repr

/-- The position of the frame sequencer (10_state.md R31). -/
inductive Phase where
  | idle
  | cmd
  | addr2
  | addr1
  | addr0
  | mode
  | data
  | close
  | fold
deriving DecidableEq, Repr

/-- The scratch buffer `abuf[0..3]` of the Large variant (10_state.md R29). -/
structure AddrBuf where
  b0 : Byte
  b1 : Byte
  b2 : Byte
  b3 : Byte
deriving DecidableEq, Repr

/-- The position of the reference device's frame decoder, `dpos` (20_memory.md R70). -/
inductive DevPos where
  | idle
  | cmd
  | a2
  | a1
  | a0
  | rd
  | wr
  | mrW
  | mrR
  | dead
deriving DecidableEq, Repr

/-- The reference device (20_memory.md R70). `isWrite`, `alatch` and `moved` hold what R72 says the device
"remember[s]", the address bytes it has "taken" so far, and whether the frame's first data transfer is behind it (R74,
R75); log 33. -/
structure Device where
  mem : List Host.Cell
  ptr : Nat
  mode : Byte
  dpos : DevPos
  isWrite : Bool
  alatch : BitVec 24
  moved : Bool
deriving DecidableEq, Repr

/-- What becomes of one call of a bus primitive, `BusInit` or one byte exchanged (20_memory.md R65, 60_exceptions.md R211,
70_reset_and_hazards.md R250): it returns, it returns although the bus failed, or it never returns. -/
inductive Fate where
  | delivered
  | failed
  | stalled
deriving DecidableEq, Repr

/-- One wire event (00_scope.md section 5). -/
inductive WireEvent where
  /-- `CFG`: the chip-select line becomes an output, driven high. -/
  | cfg
  /-- `INIT`: bus initialisation. -/
  | init
  /-- `CS↓`. -/
  | csLow
  /-- `CS↑`. -/
  | csHigh
  /-- `X(tx, rx)`: a single-byte exchange. -/
  | x (tx rx : Byte)
  /-- `B(tx, rx)`: one byte of a block transfer. -/
  | b (tx rx : Byte)
deriving DecidableEq, Repr

/-- What the outside world does next (log 2). -/
inductive Input where
  /-- the host presents a request (10_state.md R39). -/
  | request (r : Request)
  /-- a frame reaches the device's port between two operations (20_memory.md R70 to R75, log 5). -/
  | frame (bytes : List Byte)
  /-- the host initialises the bus itself (10_state.md R37, 70_reset_and_hazards.md R242 step 3). -/
  | busInit
  /-- the block is reset between two operations (70_reset_and_hazards.md R240, R241, log 26). -/
  | blockReset
deriving DecidableEq, Repr

/-- The state. -/
structure State where
  /-- the configuration record (10_state.md R21, R38); no step writes it. -/
  cfg : Config
  /-- `cs_cfg` (R23). -/
  csCfg : Bool
  /-- `cs_n`, true is the high level, deasserted (R22). -/
  csN : Bool
  /-- `inited` (R25). -/
  inited : Bool
  /-- `addr` (R26). -/
  addr : Word
  /-- `len` (R26). -/
  len : Word
  /-- `val` (R26). -/
  val : Byte
  /-- `n` (R26). -/
  n : Nat
  /-- `res` (R27). -/
  res : Word
  /-- `acc` (R28). -/
  acc : Crc
  /-- `abuf[0..3]` (R29); not there on Small, where nothing touches it. -/
  abuf : AddrBuf
  /-- `dbuf[0..N_MAX-1]` (R30). -/
  dbuf : List Byte
  /-- `cur` (R32). -/
  cur : Word
  /-- `cnt` (R32). -/
  cnt : Word
  /-- `phase` (R31). -/
  phase : Phase
  /-- `busy` (R33). -/
  busy : Bool
  /-- `done` of the response port (R39). -/
  done : Bool
  /-- `rbuf[0..n-1]` of the response port (R39). -/
  rbuf : List Byte
  /-- `bus_inited` (R37). -/
  busInited : Bool
  /-- the external device (R37, 20_memory.md R70). -/
  dev : Device
  /-- whether a device answers on the bus (20_memory.md R65). -/
  devPresent : Bool
  /-- the fates of the next calls of bus primitives, one entry a `BusInit` and one a byte exchanged, first one first; those
  past the end of the list are delivered. -/
  fates : List Fate
  /-- the number of free values drawn so far (logs 14 and 39). -/
  draws : Nat
  /-- the wire events so far, newest first. -/
  wire : List WireEvent
  /-- what the outside world does next, first one first. -/
  inputs : List Input
  /-- the bytes the device returned during the last frame placed at its own port. -/
  reply : List Byte
deriving DecidableEq, Repr

/-- The device as the model first meets it: nothing written yet, its decoder idle (20_memory.md R71); the other values
are the model's (10_state.md R40 gives none; logs 12, 13 and 33). -/
def Device.fresh : Device where
  mem := []
  ptr := 0
  mode := 0x00
  dpos := .idle
  isWrite := false
  alatch := 0
  moved := false

/-- Reset of a block of a given configuration: the state before `create` (10_state.md R40, 70_reset_and_hazards.md
R240). `csCfg`, `inited`, `busy`, `phase` and `busInited` are R40's values; the rest it leaves unspecified (logs 10,
11, 12, 13). -/
def State.resetOf (c : Config) : State where
  cfg := c
  csCfg := false
  csN := true
  inited := false
  addr := 0
  len := 0
  val := 0
  n := 0
  res := 0
  acc := 0
  abuf := { b0 := 0, b1 := 0, b2 := 0, b3 := 0 }
  dbuf := List.replicate c.nMax 0
  cur := 0
  cnt := 0
  phase := .idle
  busy := false
  done := false
  rbuf := []
  busInited := false
  dev := Device.fresh
  devPresent := true
  fates := []
  draws := 0
  wire := []
  inputs := []
  reply := []

/-- The machine right after reset, with the open parameters open. -/
def State.reset : State := State.resetOf Config.machine

end Sys2Proof.Machine
end

