-- ==== Sys2Proof/Machine/Operands.lean ====
section
/-! DEFINITION. The operand forms: the one addressing mode (absolute, masked), the length operand of checksum, and the
slices a masked address is framed by (20_memory.md R52, R53; 30_encoding.md R84 to R86). -/

namespace Sys2Proof

/-- `CAPACITY` (00_scope.md R6). -/
def Variant.capacity : Variant → Nat
  | .small => 65536
  | .large => 131072

/-- `MAXADDR` (00_scope.md R6). -/
def Variant.maxAddr : Variant → Word
  | .small => 0xFFFF
  | .large => 0x1FFFF

end Sys2Proof

namespace Sys2Proof.Machine

/-- The masking law (20_memory.md R52): the address that is framed and sent. -/
def maskAddr (v : Variant) (a : Word) : Word := a &&& v.maxAddr

/-- The number of bytes a checksum folds (20_memory.md R53): masked on Large only. -/
def maskLength (v : Variant) (len : Word) : Word :=
  match v with
  | .small => len
  | .large => len &&& v.maxAddr

/-- Where a checksum starts counting (44_checksum.md R185): the address is masked here on Large, and by each read on
both variants. -/
def checksumStart (v : Variant) (a : Word) : Word :=
  match v with
  | .small => a
  | .large => maskAddr v a

/-- `byte_k(v) = v[8k+7:8k]` (00_scope.md section 5). -/
def byteK (k : Nat) (w : Word) : Byte := w.extractLsb' (8 * k) 8

/-- The masked address in little-endian byte layout, `le32` (10_state.md R29). -/
def AddrBuf.ofWord (m : Word) : AddrBuf :=
  { b0 := byteK 0 m, b1 := byteK 1 m, b2 := byteK 2 m, b3 := byteK 3 m }

/-- The result port holding one byte (10_state.md R27: bits 7:0, rest 0). -/
def resOfByte (b : Byte) : Word := b.setWidth 32

/-- The result port holding an accumulator (10_state.md R27: bits 15:0, rest 0). -/
def resOfCrc (c : Crc) : Word := c.setWidth 32

/-- The result port holding the capacity (40_init_and_query.md R112). -/
def resOfCapacity (v : Variant) : Word := BitVec.ofNat 32 v.capacity

end Sys2Proof.Machine
end

