-- ==== Sys2Proof/Machine/Device.lean ====
section
/-! DEFINITION. The reference device (20_memory.md R70 to R75): what it does at the edges of chip-select and with each
byte exchanged. -/

namespace Sys2Proof.Machine

/-- `mem[a]`. A byte nothing has written is unspecified but stable (20_memory.md R70, D15, U21). -/
def Device.byteAt (d : Device) (a : Nat) : Byte := (Memory.peek d.mem a).getD (Config.initialByte a)

/-- `CS↓` (20_memory.md R71). -/
def Device.select (d : Device) : Device := { d with dpos := .cmd }

/-- Whether the frame has sent its whole address (20_memory.md R72). -/
def Device.hasAddress (d : Device) : Bool := d.dpos == .rd || d.dpos == .wr

/-- `CS↑` (20_memory.md R71). After a frame that has sent its address the pointer is where the rules put it (R72, R73); after
any other it is a free value among the device's addresses (R61: "Every frame changes the device's internal address pointer";
10_state.md R40: unspecified after `create(cs, true)`; log 39). -/
def Device.deselect (v : Variant) (free : Nat) (d : Device) : Device :=
  { d with dpos := .idle, ptr := if d.hasAddress then d.ptr else free % v.capacity }

/-- The first byte of a frame selects the command (20_memory.md R72). No data transfer of this frame has happened yet. -/
def Device.command (v : Variant) (d : Device) (c : Byte) : Device :=
  let first := match v with | .small => DevPos.a1 | .large => DevPos.a2
  if c = cmdRead then { d with isWrite := false, alatch := 0, moved := false, dpos := first }
  else if c = cmdWrite then { d with isWrite := true, alatch := 0, moved := false, dpos := first }
  else if c = cmdWriteModeRegister then { d with moved := false, dpos := .mrW }
  else if c = cmdReadModeRegister then { d with moved := false, dpos := .mrR }
  else { d with dpos := .dead }

/-- One more address byte, most significant first (20_memory.md R72). -/
def Device.latch (d : Device) (b : Byte) : BitVec 24 := d.alatch.extractLsb' 0 16 ++ b

/-- The pointer after a data transfer (20_memory.md R73; the wrap is K4, log 21). -/
def Device.nextPtr (v : Variant) (d : Device) : Nat := (d.ptr + 1) % v.capacity

/-- Whether a data transfer has a meaning: the first of a frame in any mode, the others in sequential mode only
(20_memory.md R74). -/
def Device.mayMove (d : Device) : Bool := !d.moved || d.mode == modeSeq

/-- One exchange: the device is driven `tx` and answers; `free` is the answer where the rules allow any value. `none`
where the spec gives the transfer no meaning (20_memory.md R74, R75). -/
def Device.exchange (v : Variant) (free : Byte) (d : Device) (tx : Byte) : Option (Device × Byte) :=
  match d.dpos with
  | .idle => some (d, free)
  | .cmd => some (d.command v tx, free)
  | .a2 => some ({ d with alatch := d.latch tx, dpos := .a1 }, free)
  | .a1 => some ({ d with alatch := d.latch tx, dpos := .a0 }, free)
  | .a0 =>
    some ({ d with
      alatch := d.latch tx
      ptr := (d.latch tx).toNat % v.capacity
      dpos := if d.isWrite then .wr else .rd }, free)
  | .rd =>
    if d.mayMove then some ({ d with ptr := d.nextPtr v, moved := true }, d.byteAt d.ptr) else none
  | .wr =>
    if d.mayMove then
      some ({ d with mem := Memory.poke d.mem d.ptr tx, ptr := d.nextPtr v, moved := true }, free)
    else none
  | .mrW => if d.moved then none else some ({ d with mode := tx, moved := true }, free)
  | .mrR => some (d, d.mode)
  | .dead => some (d, free)

/-- A device that lost the frame: it ignores the rest until `CS↑` (20_memory.md R72, `DEAD`; log 23). -/
def Device.lose (d : Device) : Device := { d with dpos := .dead }

/-- The bytes of a frame one after another, and the bytes the device answers; the free values are numbered from `k`. -/
def Device.exchanges (v : Variant) : Nat → Device → List Byte → Option (Device × List Byte)
  | _, d, [] => some (d, [])
  | k, d, tx :: rest =>
    match d.exchange v (Config.freeByte k) tx with
    | none => none
    | some (d', rx) =>
      match Device.exchanges v (k + 1) d' rest with
      | none => none
      | some (d'', rxs) => some (d'', rx :: rxs)

end Sys2Proof.Machine
end

