-- ==== Sys2Proof/Machine/Flags.lean ====
section
/-! DEFINITION. The status bits. The block has no condition codes and no error flags (10_state.md R33): no operation
computes a flag. What is read here are the bits `cs_cfg`, `bus_inited`, `inited` and `busy`, as the operations'
preconditions (40_init_and_query.md R110 to R113) test them, and the operand preconditions beside them. -/

namespace Sys2Proof.Machine

/-- The precondition of `create` (40_init_and_query.md R110, D19). -/
def createRefusal (auto : Bool) (s : State) : Option Refusal :=
  if s.csCfg then some .alreadyCreated
  else if auto && s.busInited then some .busAlreadyInitialised
  else none

/-- The precondition of `initializeDevice` (40_init_and_query.md R111). -/
def initRefusal (s : State) : Option Refusal :=
  if !s.csCfg then some .notCreated
  else if !s.busInited then some .busNotInitialised
  else none

/-- The precondition of every data operation (40_init_and_query.md R113). -/
def dataRefusal (s : State) : Option Refusal :=
  if !s.csCfg then some .notCreated
  else if !s.busInited then some .busNotInitialised
  else if !s.inited then some .deviceNotInitialised
  else none

/-- The precondition of `get` and `put` (42_block_transfer.md R152). -/
def payloadRefusal (n : Nat) (s : State) : Option Refusal :=
  match dataRefusal s with
  | some r => some r
  | none => if payloadOk s.cfg n then none else some .payloadSize

/-- The precondition of `checksum` (44_checksum.md R185, D22). -/
def checksumRefusal (len : Word) (s : State) : Option Refusal :=
  match dataRefusal s with
  | some r => some r
  | none => if lengthOk s.cfg len then none else some .lengthPort

end Sys2Proof.Machine
end

