-- ==== Sys2Proof/Machine/Ops.lean ====
section
/-! DEFINITION. The named operations: chip-select (10_state.md R24), the bus primitives (20_memory.md R62 to R64), the
frame multiplexer's header (30_encoding.md R84), acceptance and completion of a request (10_state.md R39), and what the
outside world does to the machine. There is no exception to take and none to return from (60_exceptions.md R210, R216,
R217): no such operation stands here. -/

namespace Sys2Proof.Machine

/-! ### Running -/

/-- How a piece of an operation ends: it goes on with a value, a transfer never returns (20_memory.md R65), or the spec
gives no meaning. -/
inductive Run (α : Type) where
  | ok (a : α) (s : State)
  | hung (s : State)
  | refused (r : Refusal)

/-- One piece after another, in order (20_memory.md R66). -/
def Run.bind {α β : Type} (m : Run α) (k : α → State → Run β) : Run β :=
  match m with
  | .ok a s => k a s
  | .hung s => .hung s
  | .refused r => .refused r

/-! ### Single assignments -/

/-- `phase <- p` (10_state.md R31). -/
def setPhase (p : Phase) (s : State) : State := { s with phase := p }

/-- Append a wire event. -/
def emit (e : WireEvent) (s : State) : State := { s with wire := e :: s.wire }

/-- What happens at the device's port happens only if there is a device (20_memory.md R65). -/
def onDevice (f : Device → Device) (s : State) : State :=
  { s with dev := if s.devPresent then f s.dev else s.dev }

/-- `CsAssert()` (10_state.md R24). -/
def csAssert (s : State) : State := onDevice Device.select (emit .csLow { s with csN := false })

/-- `CsDeassert()` (10_state.md R24). It takes one free draw, for the device's pointer (log 39). -/
def csDeassert (s : State) : State :=
  onDevice (Device.deselect s.cfg.variant (Config.freePointer s.draws))
    (emit .csHigh { s with csN := true, draws := s.draws + 1 })

/-- `IDLE -> (CsAssert) CMD` (30_encoding.md R91); the order is log 44. -/
def openBracket (s : State) : State := setPhase .cmd (csAssert s)

/-- `CLOSE (CsDeassert) -> IDLE` (30_encoding.md R91); the order is log 44. -/
def closeBracket (s : State) : State := setPhase .idle (csDeassert (setPhase .close s))

/-! ### The bus primitives -/

/-- The fate of the next call of a bus primitive: of `BusInit`, or of the next byte exchanged. -/
def nextFate (s : State) : Fate := s.fates.headD .delivered

/-- What an initialisation of the bus that returns leaves: `bus_inited <- 1`, the event `INIT` (20_memory.md R62). -/
def markBusInit (s : State) : State := emit .init { s with busInited := true }

/-- `BusInit()` (20_memory.md R62), called by the block. It returns, or it never returns like any bus primitive
(70_reset_and_hazards.md R250: "If a bus primitive never returns"). DESIGN CHOICE: a call that never returns has neither set
`bus_inited` nor emitted `INIT`, and a failed one has done both (log 41). -/
def busInit (s : State) : Run Unit :=
  if nextFate s = .stalled then .hung s else .ok () (markBusInit { s with fates := s.fates.tail })

/-- The environment's part of one exchange: the device after it and the byte `rx` (20_memory.md R63, R65). With no
device, or when the bus fails, `rx` is any value; a transfer the bus failed at reached the device or lost it the frame
(log 23). -/
def respond (s : State) (tx : Byte) : Option (Device × Byte) :=
  let free := Config.freeByte s.draws
  if !s.devPresent then some (s.dev, free)
  else match nextFate s with
    | .failed =>
      if Config.freeTaken s.draws then (s.dev.exchange s.cfg.variant free tx).map fun p => (p.1, free)
      else some (s.dev.lose, free)
    | _ => s.dev.exchange s.cfg.variant free tx

/-- One exchange recorded by the event `ev` (20_memory.md R63): refused on a bus never initialised (R62), without end
on a stalled one (R65), else it returns `rx`. DESIGN CHOICE: of an exchange that never returns the device takes nothing; the
spec fixes only `phase`, `busy`, `cs_n` and the trace (log 40). -/
def exchange (ev : Byte → Byte → WireEvent) (tx : Byte) (s : State) : Run Byte :=
  if !s.busInited then .refused .busNotInitialised
  else if nextFate s = .stalled then .hung s
  else match respond s tx with
    | none => .refused .deviceNoMeaning
    | some (d, rx) =>
      .ok rx { s with dev := d, fates := s.fates.tail, draws := s.draws + 1, wire := ev tx rx :: s.wire }

/-- `Xfer(tx) -> rx` (20_memory.md R63). -/
def xfer (tx : Byte) (s : State) : Run Byte := exchange .x tx s

/-- `Xfer(tx)` at a position of the frame, the reply not used (30_encoding.md R87). -/
def send (p : Phase) (tx : Byte) (s : State) : Run Unit :=
  (xfer tx (setPhase p s)).bind fun _ s => .ok () s

/-- `XferBlock(buf, n)` on `dbuf` (20_memory.md R64): `k` bytes from index `i` on, in place. -/
def xferBlock : Nat → Nat → State → Run Unit
  | 0, _, s => .ok () s
  | k + 1, i, s =>
    (exchange .b (s.dbuf.getD i 0) s).bind fun rx s =>
      xferBlock k (i + 1) { s with dbuf := s.dbuf.set i rx }

/-! ### The frame multiplexer -/

/-- `SendHeader(cmd, a)` (30_encoding.md R84). -/
def sendHeader (cmd : Byte) (a : Word) (s : State) : Run Unit :=
  let m := maskAddr s.cfg.variant a
  match s.cfg.variant with
  | .small =>
    (send .cmd cmd s).bind fun _ s =>
    (send .addr1 (byteK 1 m) s).bind fun _ s =>
    send .addr0 (byteK 0 m) s
  | .large =>
    (send .cmd cmd { s with abuf := AddrBuf.ofWord m }).bind fun _ s =>
    (send .addr2 s.abuf.b2 s).bind fun _ s =>
    (send .addr1 s.abuf.b1 s).bind fun _ s =>
    send .addr0 s.abuf.b0 s

/-- One whole bracket of a READ or WRITE frame (30_encoding.md R80, R91): the data phase is `body`. -/
def bracket {α : Type} (cmd : Byte) (a : Word) (body : State → Run α) (s : State) : Run α :=
  (sendHeader cmd a (openBracket s)).bind fun _ s =>
  (body (setPhase .data s)).bind fun r s =>
  .ok r (closeBracket s)

/-- The bracket of one single-byte read (41_single_byte.md R130), used by read, index and checksum. -/
def readByte (a : Word) (s : State) : Run Byte := bracket cmdRead a (fun s => xfer s.cfg.dummy s) s

/-- The bracket of one single-byte write (41_single_byte.md R131), used by write and update. -/
def writeByte (a : Word) (v : Byte) (s : State) : Run Unit := bracket cmdWrite a (send .data v) s

/-- The W-MR frame (40_init_and_query.md R111). -/
def modeFrame (s : State) : Run Unit :=
  (send .cmd cmdWriteModeRegister (openBracket s)).bind fun _ s =>
  (send .mode modeSeq s).bind fun _ s =>
  .ok () (closeBracket s)

/-! ### Requests -/

/-- Acceptance of a request (10_state.md R39): the operation runs, `done` is down. -/
def accept (s : State) : State := { s with busy := true, done := false }

/-- Completion (10_state.md R39): `busy <- 0`, `done` pulses, the sequencer is idle. -/
def complete (s : State) : State := { s with busy := false, phase := .idle, done := true }

/-- How an operation's run becomes the outcome of a step. An operation that hangs leaves the block as it stands, busy
for ever (70_reset_and_hazards.md R250, log 22). -/
def Run.finish (m : Run Unit) : Host.Outcome State Fault Refusal :=
  match m with
  | .ok _ s => .next (complete s)
  | .hung s => .next s
  | .refused r => .refused r

/-- Run one host operation: refused while busy (60_exceptions.md R215) or outside its precondition, else accepted and
run to its end before anything else is taken, so that "every operation is itself fully ordered before its successor"
(20_memory.md R67). -/
def perform (refusal : State → Option Refusal) (body : State → Run Unit) (s : State) :
    Host.Outcome State Fault Refusal :=
  if s.busy then .refused .busy
  else match refusal s with
    | some r => .refused r
    | none => (body (accept s)).finish

/-- A request that is not accepted: no state change, no wire event (30_encoding.md R96). -/
def reject (op : BitVec 4) (s : State) : Host.Outcome State Fault Refusal :=
  if s.busy then .refused .busy else .refused (.reservedCode op)

/-! ### The device's own port -/

/-- One bracket at the device's port that carries `bytes` (20_memory.md R71 to R75). It is no operation of the block:
no register of the block and nothing of its wire trace changes (log 5). With no device the answers are any values. -/
def deviceFrame (bytes : List Byte) (s : State) : Host.Outcome State Fault Refusal :=
  if s.busy then .refused .busy
  else if !s.devPresent then
    .next { s with
      reply := (List.range bytes.length).map fun i => Config.freeByte (s.draws + i)
      draws := s.draws + bytes.length
      done := false }
  else match Device.exchanges s.cfg.variant s.draws s.dev.select bytes with
    | none => .refused .deviceNoMeaning
    | some (d, rxs) =>
      .next { s with
        dev := d.deselect s.cfg.variant (Config.freePointer (s.draws + bytes.length))
        reply := rxs
        draws := s.draws + bytes.length + 1
        done := false }

/-! ### The outside world -/

/-- The host initialises the bus itself (10_state.md R37, 70_reset_and_hazards.md R242 step 3); a second time is refused
(N15, D19). The event is a call that has returned (log 41). -/
def hostBusInit (s : State) : Host.Outcome State Fault Refusal :=
  if s.busInited then .refused .busAlreadyInitialised
  else .next { markBusInit s with done := false }

/-- Reset of the block between two operations (70_reset_and_hazards.md R240, R241): every register of the block as at
reset; the environment and the record of the wire stay. -/
def blockReset (s : State) : State :=
  { State.resetOf s.cfg with
    busInited := s.busInited
    dev := s.dev
    devPresent := s.devPresent
    fates := s.fates
    draws := s.draws
    wire := s.wire
    inputs := s.inputs
    reply := s.reply }

/-- What the next step finds to do, and the state with that input taken. -/
inductive Fetched where
  /-- an operation hangs: the block stays as it is for ever (70_reset_and_hazards.md R250). -/
  | hung
  /-- nothing to do: the block waits for the host. -/
  | waiting
  /-- an instruction. -/
  | instr (i : Instr) (s : State)
  /-- a frame that is no row of the opcode table: the device takes it all the same (30_encoding.md R93, log 34). -/
  | rawFrame (bytes : List Byte) (s : State)
  /-- a request port that holds no operation. -/
  | bad (e : DecodeError)
  | busInit (s : State)
  | blockReset (s : State)

/-- Take the next input (log 2). -/
def fetch (s : State) : Fetched :=
  if s.busy then .hung
  else match s.inputs with
    | [] => .waiting
    | .request r :: rest =>
      match decode s.cfg.variant (.request r) with
      | .ok i => .instr i { s with inputs := rest }
      | .error e => .bad e
    | .frame bytes :: rest =>
      match decode s.cfg.variant (.frame bytes) with
      | .ok i => .instr i { s with inputs := rest }
      | .error _ => .rawFrame bytes { s with inputs := rest }
    | .busInit :: rest => .busInit { s with inputs := rest }
    | .blockReset :: rest => .blockReset { s with inputs := rest }

/-- The input that carries a code. -/
def inputOf : Code → Input
  | .request r => .request r
  | .frame bytes => .frame bytes

/-- A step with nothing to do: the `done` pulse is over (10_state.md R39). -/
def wait (s : State) : State := { s with done := false }

/-- Place an opcode-table word where the next step takes its input. A row of one variant only (the headers of more than
16 bits) also selects that variant; the other rows leave it as it is (logs 2 and 6). -/
def placeWord (s : State) (nbits w : Nat) : State :=
  { s with
    cfg := { s.cfg with variant := if nbits ≤ 16 then s.cfg.variant else tableVariant nbits }
    inputs := inputOf (tableCode nbits w) :: s.inputs }

end Sys2Proof.Machine
end

