-- ==== Sys2Proof/Machine/Block.lean ====
section
/-! DEFINITION. The meanings of get and put (42_block_transfer.md). -/

namespace Sys2Proof.Machine

/-- Load `dbuf[0..]` with the given bytes; the region behind them stays. -/
def loadRegion (bytes : List Byte) (s : State) : State :=
  { s with dbuf := bytes ++ s.dbuf.drop bytes.length }

/-- The region get is given: "the model treats each as a free draw" (92_eei_decisions.md D6, log 15). -/
def freeRegion (n : Nat) (s : State) : State :=
  { loadRegion ((List.range n).map fun i => Config.freeByte (s.draws + i)) s with draws := s.draws + n }

/-- The effect of `get(a, n)` (42_block_transfer.md R150). -/
def getOperation (a : Word) (n : Nat) (s : State) : Run Unit :=
  (bracket cmdRead a (xferBlock n 0) (freeRegion n { s with addr := a, n := n })).bind fun _ s =>
  .ok () { s with rbuf := s.dbuf.take n }

/-- The effect of `put(a, w)` (42_block_transfer.md R151): the value is copied into the transfer region, and the result
is the value, not the replies (D7). -/
def putOperation (a : Word) (w : List Byte) (s : State) : Run Unit :=
  (bracket cmdWrite a (xferBlock w.length 0) (loadRegion w { s with addr := a, n := w.length })).bind fun _ s =>
  .ok () { s with rbuf := w }

/-- `get(address, n)` (42_block_transfer.md R150, R152). -/
def execGet (a : Word) (n : Nat) (s : State) : Host.Outcome State Fault Refusal :=
  perform (payloadRefusal n) (getOperation a n) s

/-- `put(address, value)` (42_block_transfer.md R151, R152). -/
def execPut (a : Word) (w : List Byte) (s : State) : Host.Outcome State Fault Refusal :=
  perform (payloadRefusal w.length) (putOperation a w) s

end Sys2Proof.Machine
end

