-- ==== Sys2Proof/Machine/Byte.lean ====
section
/-! DEFINITION. The meanings of read, write, update and index (41_single_byte.md). -/

namespace Sys2Proof.Machine

/-- The effect of `read(a)` (41_single_byte.md R130): `addr` latched, one bracket, `res` the byte received. -/
def readOperation (a : Word) (s : State) : Run Unit :=
  (readByte a { s with addr := a }).bind fun r s => .ok () { s with res := resOfByte r }

/-- The effect of `write(a, v)` (41_single_byte.md R131): `addr` and `val` latched, one bracket. -/
def writeOperation (a : Word) (v : Byte) (s : State) : Run Unit :=
  writeByte a v { s with addr := a, val := v }

/-- `read(address)` (41_single_byte.md R130). -/
def execRead (a : Word) (s : State) : Host.Outcome State Fault Refusal :=
  perform dataRefusal (readOperation a) s

/-- `write(address, value)` (41_single_byte.md R131). -/
def execWrite (a : Word) (v : Byte) (s : State) : Host.Outcome State Fault Refusal :=
  perform dataRefusal (writeOperation a v) s

/-- `update(address, value)`: "alias for `write`" (41_single_byte.md R132), never a READ frame. -/
def execUpdate (a : Word) (v : Byte) (s : State) : Host.Outcome State Fault Refusal :=
  perform dataRefusal (writeOperation a v) s

/-- `device[address]`: "equivalent to `read`" (41_single_byte.md R133). -/
def execIndex (a : Word) (s : State) : Host.Outcome State Fault Refusal :=
  perform dataRefusal (readOperation a) s

end Sys2Proof.Machine
end

