-- ==== Sys2Proof/Machine/Checksum.lean ====
section
/-! DEFINITION. The meaning of checksum (44_checksum.md R182, R185). -/

namespace Sys2Proof.Machine

/-- `CRC_SEED` (44_checksum.md R182). -/
def seedUnit (s : State) : State := { s with acc := crcSeed }

/-- `CRC_FOLD(b)`, and the loop registers' advance (44_checksum.md R182, R185). DESIGN CHOICE: `phase` goes from `CLOSE` to `IDLE` to
`FOLD`, and from `FOLD` to `CMD` in the next bracket; 30_encoding.md R91 says only "passing through `FOLD` after each `CLOSE`"
(log 43). -/
def foldUnit (b : Byte) (s : State) : State :=
  { setPhase .fold s with
    acc := crc16Update s.cfg.crcPoly s.acc b
    cur := s.cur + 1
    cnt := s.cnt - 1 }

/-- `while cnt != 0` of 44_checksum.md R185, for the given value of `cnt`: one whole bracket a byte. -/
def foldBytes : Nat → State → Run Unit
  | 0, s => .ok () s
  | k + 1, s => (readByte s.cur s).bind fun b s => foldBytes k (foldUnit b s)

/-- The effect of `checksum(a, L)` (44_checksum.md R185). -/
def checksumOperation (a len : Word) (s : State) : Run Unit :=
  let v := s.cfg.variant
  let start := { s with addr := a, len := len, cur := checksumStart v a, cnt := maskLength v len }
  (foldBytes (maskLength v len).toNat (seedUnit start)).bind fun _ s =>
  .ok () { s with res := resOfCrc s.acc }

/-- `checksum(address, length)` (44_checksum.md R185). -/
def execChecksum (a len : Word) (s : State) : Host.Outcome State Fault Refusal :=
  perform (checksumRefusal len) (checksumOperation a len) s

end Sys2Proof.Machine
end

