-- ==== Sys2Proof/Machine/Erase.lean ====
section
/-! DEFINITION. The meaning of erase (43_erase.md). -/

namespace Sys2Proof.Machine

/-- `while cnt != 0: Xfer(0x00) ; cnt <- cnt - 1` (43_erase.md R170), for the given value of `cnt`. -/
def sendZeros : Nat → State → Run Unit
  | 0, s => .ok () s
  | k + 1, s => (send .data 0x00 s).bind fun _ s => sendZeros k { s with cnt := s.cnt - 1 }

/-- The effect of `erase()` (43_erase.md R170): `cnt` is loaded after the header, one bracket. -/
def eraseOperation (s : State) : Run Unit :=
  bracket cmdWrite 0 (fun s => sendZeros s.cfg.variant.capacity { s with cnt := resOfCapacity s.cfg.variant }) s

/-- `erase()` (43_erase.md R170). -/
def execErase (s : State) : Host.Outcome State Fault Refusal :=
  perform dataRefusal eraseOperation s

end Sys2Proof.Machine
end

