-- ==== Sys2Proof/Machine/Reserved.lean ====
section
/-! DEFINITION. The five reserved operation codes (30_encoding.md R96): "refused: not accepted, no state change, no
wire event". -/

namespace Sys2Proof.Machine

def execReservedB (s : State) : Host.Outcome State Fault Refusal := reject 0xB s

def execReservedC (s : State) : Host.Outcome State Fault Refusal := reject 0xC s

def execReservedD (s : State) : Host.Outcome State Fault Refusal := reject 0xD s

def execReservedE (s : State) : Host.Outcome State Fault Refusal := reject 0xE s

def execReservedF (s : State) : Host.Outcome State Fault Refusal := reject 0xF s

end Sys2Proof.Machine
end

