-- ==== Sys2Proof/Machine/Setup.lean ====
section
/-! DEFINITION. The meanings of create, initializeDevice and length (40_init_and_query.md). -/

namespace Sys2Proof.Machine

/-- `cs_cfg <- 1 ; cs_n <- 1`, the first effect of construction (40_init_and_query.md R110, 10_state.md R23). -/
def configureLine (s : State) : State := emit .cfg { s with csCfg := true, csN := true }

/-- The effect of `initializeDevice` (40_init_and_query.md R111). -/
def initialise (s : State) : Run Unit :=
  (modeFrame s).bind fun _ s => .ok () { s with inited := true }

/-- `create(cs, auto)` (40_init_and_query.md R110): with `auto` the bus and then the device are initialised. -/
def execCreate (auto : Bool) (s : State) : Host.Outcome State Fault Refusal :=
  perform (createRefusal auto)
    (fun s =>
      if auto then (busInit (configureLine s)).bind fun _ s => initialise s
      else .ok () (configureLine s)) s

/-- `initializeDevice()` (40_init_and_query.md R111). -/
def execInitializeDevice (s : State) : Host.Outcome State Fault Refusal :=
  perform initRefusal initialise s

/-- `length()` (40_init_and_query.md R112): legal in every state, no wire event. -/
def execLength (s : State) : Host.Outcome State Fault Refusal :=
  perform (fun _ => none) (fun s => .ok () { s with res := resOfCapacity s.cfg.variant }) s

end Sys2Proof.Machine
end

