-- ==== Sys2Proof/Machine/Wire.lean ====
section
/-! DEFINITION. The meanings of the six wire commands: what the reference device does with a frame that carries them
(20_memory.md R71 to R75). They are the device's instructions, not operations of the block (30_encoding.md R95: no
operation reads the mode register); log 5. -/

namespace Sys2Proof.Machine

/-- `WRITE_MODE_REGISTER` with the mode byte `0x40` (20_memory.md R75, 30_encoding.md R81). -/
def execWriteModeRegister (s : State) : Host.Outcome State Fault Refusal :=
  deviceFrame [cmdWriteModeRegister, modeSeq] s

/-- `READ` with a W-A16 header (20_memory.md R72, R73). -/
def execReadS (a : BitVec 16) (ds : List Byte) (s : State) : Host.Outcome State Fault Refusal :=
  deviceFrame (headerS cmdRead a ++ ds) s

/-- `WRITE` with a W-A16 header (20_memory.md R72, R73). -/
def execWriteS (a : BitVec 16) (ds : List Byte) (s : State) : Host.Outcome State Fault Refusal :=
  deviceFrame (headerS cmdWrite a ++ ds) s

/-- `READ` with a W-A24 header (20_memory.md R72, R73). -/
def execReadL (a : BitVec 17) (ds : List Byte) (s : State) : Host.Outcome State Fault Refusal :=
  deviceFrame (headerL cmdRead a ++ ds) s

/-- `WRITE` with a W-A24 header (20_memory.md R72, R73). -/
def execWriteL (a : BitVec 17) (ds : List Byte) (s : State) : Host.Outcome State Fault Refusal :=
  deviceFrame (headerL cmdWrite a ++ ds) s

/-- `READ_MODE_REGISTER` (20_memory.md R75: "each transfer returns `rx = mode`"). -/
def execReadModeRegister (ds : List Byte) (s : State) : Host.Outcome State Fault Refusal :=
  deviceFrame (cmdReadModeRegister :: ds) s

end Sys2Proof.Machine
end

