-- ==== Sys2Proof/Machine/Dispatch.lean ====
section
/-! DEFINITION. The dispatch: one arm per instruction. -/

namespace Sys2Proof.Machine

def exec (i : Instr) (s : State) : Host.Outcome State Fault Refusal :=
  match i with
  | .create auto => Sys2Proof.Machine.execCreate auto s
  | .initializeDevice => Sys2Proof.Machine.execInitializeDevice s
  | .length => Sys2Proof.Machine.execLength s
  | .read a => Sys2Proof.Machine.execRead a s
  | .write a v => Sys2Proof.Machine.execWrite a v s
  | .update a v => Sys2Proof.Machine.execUpdate a v s
  | .get a n => Sys2Proof.Machine.execGet a n s
  | .put a w => Sys2Proof.Machine.execPut a w s
  | .erase => Sys2Proof.Machine.execErase s
  | .checksum a len => Sys2Proof.Machine.execChecksum a len s
  | .index a => Sys2Proof.Machine.execIndex a s
  | .reservedB => Sys2Proof.Machine.execReservedB s
  | .reservedC => Sys2Proof.Machine.execReservedC s
  | .reservedD => Sys2Proof.Machine.execReservedD s
  | .reservedE => Sys2Proof.Machine.execReservedE s
  | .reservedF => Sys2Proof.Machine.execReservedF s
  | .writeModeRegister => Sys2Proof.Machine.execWriteModeRegister s
  | .readS a ds => Sys2Proof.Machine.execReadS a ds s
  | .writeS a ds => Sys2Proof.Machine.execWriteS a ds s
  | .readL a ds => Sys2Proof.Machine.execReadL a ds s
  | .writeL a ds => Sys2Proof.Machine.execWriteL a ds s
  | .readModeRegister ds => Sys2Proof.Machine.execReadModeRegister ds s

end Sys2Proof.Machine
end

