-- ==== Sys2Proof/Machine/Step.lean ====
section
/-! DEFINITION. One step: the next thing the outside world does, run to its end (log 1). -/

namespace Sys2Proof.Machine

/-- One step of the machine. A hanging operation stays as it is (70_reset_and_hazards.md R250); with no input the block
waits for the host. -/
def step (s : State) : Host.Outcome State Fault Refusal :=
  match fetch s with
  | .hung => .next s
  | .waiting => .next (wait s)
  | .instr i s' => exec i s'
  | .rawFrame bytes s' => deviceFrame bytes s'
  | .bad e => .refused (.badRequest e)
  | .busInit s' => hostBusInit s'
  | .blockReset s' => .next (blockReset s')

/-- The state whose very next step runs the instruction of an opcode-table word (log 2). -/
def State.withFetchWord (s : State) (nbits w : Nat) : State := placeWord s nbits w

end Sys2Proof.Machine
end

