-- ==== Sys2Proof/Machine/Events.lean ====
section
/-! DEFINITION. The same machine at the spec's finest grain: "One step of the block is one wire event [...] or one internal
assignment; an operation is the finite sequence its rule lists" (92_eei_decisions.md D1, 00_scope.md R7). The sequences below
are written from the pseudocode of files 40 to 44 and from the multiplexer's table (30_encoding.md R87); what each action does
is what the named operations of Ops.lean and the families do. `step` runs one whole sequence (log 1); that the two grains agree is
the statement EventsMakeTheStep. -/

namespace Sys2Proof.Machine

/-- The address a header carries, before masking. -/
inductive HeaderAddress where
  /-- the operand register `addr` (10_state.md R26). -/
  | operand
  /-- `cur`, the running address of checksum (10_state.md R32). -/
  | running
  /-- the constant 0 of erase (43_erase.md R170). -/
  | origin
deriving DecidableEq, Repr

def HeaderAddress.word (a : HeaderAddress) (s : State) : Word :=
  match a with
  | .operand => s.addr
  | .running => s.cur
  | .origin => 0

/-- The `tx` sources of the frame multiplexer (30_encoding.md R87). -/
inductive TxSource where
  | constant (b : Byte)
  /-- byte `k` of the masked address. -/
  | address (a : HeaderAddress) (k : Nat)
  | scratch2
  | scratch1
  | scratch0
  | value
  | dummy
deriving DecidableEq, Repr

def TxSource.byte (t : TxSource) (s : State) : Byte :=
  match t with
  | .constant b => b
  | .address a k => byteK k (maskAddr s.cfg.variant (a.word s))
  | .scratch2 => s.abuf.b2
  | .scratch1 => s.abuf.b1
  | .scratch0 => s.abuf.b0
  | .value => s.val
  | .dummy => s.cfg.dummy

/-- One wire event or one internal assignment. -/
inductive Action where
  /-- `cs_cfg <- 1 ; cs_n <- 1`, the event `CFG`. -/
  | line
  /-- `BusInit()`, the event `INIT`. -/
  | busInit
  /-- the event `CS↓`. -/
  | csLow
  /-- the event `CS↑`. -/
  | csHigh
  /-- the event `X`; the byte received is kept for a result or a fold. -/
  | xfer (tx : TxSource)
  /-- the event `B` at index `i` of the transfer region. -/
  | block (i : Nat)
  /-- `phase <- p`. -/
  | goto (p : Phase)
  /-- the masked address into `abuf`. -/
  | fillScratch (a : HeaderAddress)
  /-- `addr <- a`. -/
  | latchAddr (a : Word)
  /-- `val <- v`. -/
  | latchVal (v : Byte)
  /-- `n <- n`. -/
  | latchCount (n : Nat)
  /-- `len <- L`. -/
  | latchLength (len : Word)
  /-- the region as get is given it. -/
  | freeRegion (n : Nat)
  /-- `dbuf[0..n-1] <- w[0..n-1]`. -/
  | loadRegion (w : List Byte)
  /-- `inited <- 1`. -/
  | setInited
  /-- `res <- CAPACITY`. -/
  | answerCapacity
  /-- `res <- zext_32(r)`. -/
  | answerByte
  /-- `res <- zext_32(acc)`. -/
  | answerSum
  /-- `rbuf[0..n-1] <- dbuf[0..n-1]`. -/
  | answerRegion (n : Nat)
  /-- `rbuf[0..n-1] <- w[0..n-1]`. -/
  | answerValue (w : List Byte)
  /-- `CRC_SEED`. -/
  | seed
  /-- `CRC_FOLD(b)`. -/
  | fold
  /-- `cur` loaded with the start of a checksum. -/
  | startAt (a : Word)
  /-- `cnt` loaded with the number of bytes of a checksum. -/
  | countLength (len : Word)
  /-- `cur <- cur + 1`. -/
  | advanceCur
  /-- `cnt <- CAPACITY`. -/
  | countAll
  /-- `cnt <- cnt - 1`. -/
  | countDown
deriving DecidableEq, Repr

/-- What one action does, given the byte received last. -/
def Action.run (act : Action) (rx : Byte) (s : State) : Run Byte :=
  match act with
  | .line => .ok rx (configureLine s)
  | .busInit => (Machine.busInit s).bind fun _ s => .ok rx s
  | .csLow => .ok rx (csAssert s)
  | .csHigh => .ok rx (csDeassert s)
  | .xfer tx => Machine.xfer (tx.byte s) s
  | .block i => (exchange .b (s.dbuf.getD i 0) s).bind fun rx s => .ok rx { s with dbuf := s.dbuf.set i rx }
  | .goto p => .ok rx (setPhase p s)
  | .fillScratch a => .ok rx { s with abuf := AddrBuf.ofWord (maskAddr s.cfg.variant (a.word s)) }
  | .latchAddr a => .ok rx { s with addr := a }
  | .latchVal v => .ok rx { s with val := v }
  | .latchCount n => .ok rx { s with n := n }
  | .latchLength len => .ok rx { s with len := len }
  | .freeRegion n => .ok rx (Machine.freeRegion n s)
  | .loadRegion w => .ok rx (Machine.loadRegion w s)
  | .setInited => .ok rx { s with inited := true }
  | .answerCapacity => .ok rx { s with res := resOfCapacity s.cfg.variant }
  | .answerByte => .ok rx { s with res := resOfByte rx }
  | .answerSum => .ok rx { s with res := resOfCrc s.acc }
  | .answerRegion n => .ok rx { s with rbuf := s.dbuf.take n }
  | .answerValue w => .ok rx { s with rbuf := w }
  | .seed => .ok rx (seedUnit s)
  | .fold => .ok rx { s with acc := crc16Update s.cfg.crcPoly s.acc rx }
  | .startAt a => .ok rx { s with cur := checksumStart s.cfg.variant a }
  | .countLength len => .ok rx { s with cnt := maskLength s.cfg.variant len }
  | .advanceCur => .ok rx { s with cur := s.cur + 1 }
  | .countAll => .ok rx { s with cnt := resOfCapacity s.cfg.variant }
  | .countDown => .ok rx { s with cnt := s.cnt - 1 }

/-! ### The sequences -/

/-- One byte at a position of the frame. -/
def sendActions (p : Phase) (tx : TxSource) : List Action := [.goto p, .xfer tx]

/-- `SendHeader(cmd, a)` (30_encoding.md R84). DESIGN CHOICE: `phase <- CMD` comes after `CS↓` and, on Large, before the scratch
buffer is filled, as in openBracket and sendHeader (log 44). -/
def headerActions (v : Variant) (cmd : Byte) (a : HeaderAddress) : List Action :=
  match v with
  | .small => sendActions .cmd (.constant cmd) ++ sendActions .addr1 (.address a 1) ++ sendActions .addr0 (.address a 0)
  | .large =>
    [.goto .cmd, .fillScratch a, .xfer (.constant cmd)] ++ sendActions .addr2 .scratch2 ++
      sendActions .addr1 .scratch1 ++ sendActions .addr0 .scratch0

/-- `CLOSE (CsDeassert) -> IDLE` (30_encoding.md R91). DESIGN CHOICE: `phase <- IDLE` comes after `CS↑` (log 44). -/
def closeActions : List Action := [.goto .close, .csHigh, .goto .idle]

/-- A READ or WRITE bracket with the given data phase (30_encoding.md R91). DESIGN CHOICE: `CS↓` comes before `phase <- CMD`, so
there is a state between them with chip-select low and the sequencer still where it was (log 44). -/
def bracketActions (v : Variant) (cmd : Byte) (a : HeaderAddress) (body : List Action) : List Action :=
  .csLow :: headerActions v cmd a ++ (.goto .data :: body) ++ closeActions

/-- The bracket of one single-byte read (41_single_byte.md R130). -/
def readActions (v : Variant) (a : HeaderAddress) : List Action := bracketActions v cmdRead a [.xfer .dummy]

/-- 40_init_and_query.md R111. DESIGN CHOICE: `CS↓` comes before `phase <- CMD` (log 44). -/
def initialiseActions : List Action :=
  .csLow :: sendActions .cmd (.constant cmdWriteModeRegister) ++ sendActions .mode (.constant modeSeq) ++ closeActions ++
    [.setInited]

/-- The data phase of a block transfer (20_memory.md R64). -/
def blockActions (n : Nat) : List Action := (List.range n).map .block

/-- The data phase of erase (43_erase.md R170). -/
def zeroActions (k : Nat) : List Action :=
  (List.replicate k [.goto .data, .xfer (.constant 0x00), .countDown]).flatten

/-- The loop of checksum (44_checksum.md R185). DESIGN CHOICE: the bracket ends at `IDLE` and `FOLD` comes after that, so the next
bracket opens from `FOLD` (log 43). -/
def foldActions (v : Variant) (k : Nat) : List Action :=
  (List.replicate k (readActions v .running ++ [.goto .fold, .fold, .advanceCur, .countDown])).flatten

/-- `create(cs, auto)` (40_init_and_query.md R110). -/
def createActions (auto : Bool) : List Action :=
  .line :: if auto then .busInit :: initialiseActions else []

/-- `read(a)` and `device[a]` (41_single_byte.md R130, R133). -/
def readSequence (v : Variant) (a : Word) : List Action := .latchAddr a :: readActions v .operand ++ [.answerByte]

/-- `write(a, v)` and `update(a, v)` (41_single_byte.md R131, R132). -/
def writeSequence (v : Variant) (a : Word) (b : Byte) : List Action :=
  .latchAddr a :: .latchVal b :: bracketActions v cmdWrite .operand [.xfer .value]

/-- `get(a, n)` (42_block_transfer.md R150). -/
def getSequence (v : Variant) (a : Word) (n : Nat) : List Action :=
  .latchAddr a :: .latchCount n :: .freeRegion n :: bracketActions v cmdRead .operand (blockActions n) ++ [.answerRegion n]

/-- `put(a, w)` (42_block_transfer.md R151). -/
def putSequence (v : Variant) (a : Word) (w : List Byte) : List Action :=
  .latchAddr a :: .latchCount w.length :: .loadRegion w ::
    bracketActions v cmdWrite .operand (blockActions w.length) ++ [.answerValue w]

/-- `erase()` (43_erase.md R170). -/
def eraseSequence (v : Variant) : List Action :=
  bracketActions v cmdWrite .origin (.countAll :: zeroActions v.capacity)

/-- `checksum(a, L)` (44_checksum.md R185). -/
def checksumSequence (v : Variant) (a len : Word) : List Action :=
  [.latchAddr a, .latchLength len, .startAt a, .countLength len, .seed] ++ foldActions v (maskLength v len).toNat ++
    [.answerSum]

/-! ### Stepping -/

/-- The machine between two events: the state, the actions the operation in progress has left, and the byte received
last. -/
structure Sequenced where
  block : State
  todo : List Action
  rx : Byte
deriving DecidableEq, Repr

/-- The machine with nothing left to do. -/
def Sequenced.rest (s : State) : Sequenced := { block := s, todo := [], rx := 0x00 }

/-- Something that is no operation of the block happens in one event. -/
def settle (o : Host.Outcome State Fault Refusal) : Host.Outcome Sequenced Fault Refusal :=
  match o with
  | .next s => .next (Sequenced.rest s)
  | .fault f => .fault f
  | .refused r => .refused r

/-- A request is accepted or refused (10_state.md R39). DESIGN CHOICE: at this grain acceptance is one step that sets `busy` and
takes `done` down, and the operand registers are loaded after it, one a step; R39 names the loads before `busy`, and D1 and D2 do
not divide acceptance into steps (log 42). -/
def acceptSequence (refusal : State → Option Refusal) (todo : List Action) (s : State) :
    Host.Outcome Sequenced Fault Refusal :=
  if s.busy then .refused .busy
  else match refusal s with
    | some r => .refused r
    | none => .next { block := accept s, todo := todo, rx := 0x00 }

/-- An instruction begins. -/
def begin (i : Instr) (s : State) : Host.Outcome Sequenced Fault Refusal :=
  let v := s.cfg.variant
  match i with
  | .create auto => acceptSequence (createRefusal auto) (createActions auto) s
  | .initializeDevice => acceptSequence initRefusal initialiseActions s
  | .length => acceptSequence (fun _ => none) [.answerCapacity] s
  | .read a => acceptSequence dataRefusal (readSequence v a) s
  | .write a b => acceptSequence dataRefusal (writeSequence v a b) s
  | .update a b => acceptSequence dataRefusal (writeSequence v a b) s
  | .get a n => acceptSequence (payloadRefusal n) (getSequence v a n) s
  | .put a w => acceptSequence (payloadRefusal w.length) (putSequence v a w) s
  | .erase => acceptSequence dataRefusal (eraseSequence v) s
  | .checksum a len => acceptSequence (checksumRefusal len) (checksumSequence v a len) s
  | .index a => acceptSequence dataRefusal (readSequence v a) s
  | .reservedB => settle (execReservedB s)
  | .reservedC => settle (execReservedC s)
  | .reservedD => settle (execReservedD s)
  | .reservedE => settle (execReservedE s)
  | .reservedF => settle (execReservedF s)
  | .writeModeRegister => settle (execWriteModeRegister s)
  | .readS a ds => settle (execReadS a ds s)
  | .writeS a ds => settle (execWriteS a ds s)
  | .readL a ds => settle (execReadL a ds s)
  | .writeL a ds => settle (execWriteL a ds s)
  | .readModeRegister ds => settle (execReadModeRegister ds s)

/-- The next action of the operation in progress; after the last one, completion, in one step (log 42). An action that never returns leaves
everything as it is, for ever (70_reset_and_hazards.md R250); one that has no meaning stops here, after the events before it. -/
def advance (q : Sequenced) : Host.Outcome Sequenced Fault Refusal :=
  match q.todo with
  | [] => .next (Sequenced.rest (complete q.block))
  | act :: rest =>
    match act.run q.rx q.block with
    | .ok rx s => .next { block := s, todo := rest, rx := rx }
    | .hung _ => .next q
    | .refused r => .refused r

/-- One step at the finest grain. -/
def eventStep (q : Sequenced) : Host.Outcome Sequenced Fault Refusal :=
  if q.block.busy then advance q
  else match fetch q.block with
    | .hung => .next q
    | .waiting => .next (Sequenced.rest (wait q.block))
    | .instr i s => begin i s
    | .rawFrame bytes s => settle (deviceFrame bytes s)
    | .bad e => .refused (.badRequest e)
    | .busInit s => settle (hostBusInit s)
    | .blockReset s => .next (Sequenced.rest (blockReset s))

/-- `k` steps at the finest grain. -/
def eventSteps : Nat → Sequenced → Host.Outcome Sequenced Fault Refusal
  | 0, q => .next q
  | k + 1, q =>
    match eventStep q with
    | .next q' => eventSteps k q'
    | .fault f => .fault f
    | .refused r => .refused r

end Sys2Proof.Machine
end

