-- ==== Sys2Proof/Safety.lean ====
section
/-! DEFINITION. The terms claims are stated in: when an operation is admitted, what the environment guarantees, what an
operation puts on the wire (written from 30_encoding.md R81 to R88 in the shift form of R85 and R86, not from the
meanings), and the invariant of the machine. -/

namespace Sys2Proof.Machine

/-! ### Admitted states -/

/-- No operation in progress, and the line and the bus set up: the precondition of initializeDevice
(40_init_and_query.md R111). -/
structure BusReady (s : State) : Prop where
  idle : s.busy = false
  line : s.csCfg = true
  bus : s.busInited = true

/-- The common precondition of the data operations (40_init_and_query.md R113). -/
structure Ready (s : State) : Prop extends BusReady s where
  device : s.inited = true

/-! ### Kinds of instructions -/

/-- The data operations, whose precondition is 40_init_and_query.md R113. -/
def isDataOperation : Instr → Bool
  | .read _ | .write _ _ | .update _ _ | .get _ _ | .put _ _ | .erase | .checksum _ _ | .index _ => true
  | .create _ | .initializeDevice | .length => false
  | .reservedB | .reservedC | .reservedD | .reservedE | .reservedF => false
  | .writeModeRegister | .readS _ _ | .writeS _ _ | .readL _ _ | .writeL _ _ | .readModeRegister _ => false

/-- The operations of the block (30_encoding.md R96, the eleven that are not reserved). -/
def isOperation : Instr → Bool
  | .create _ | .initializeDevice | .length => true
  | .read _ | .write _ _ | .update _ _ | .get _ _ | .put _ _ | .erase | .checksum _ _ | .index _ => true
  | .reservedB | .reservedC | .reservedD | .reservedE | .reservedF => false
  | .writeModeRegister | .readS _ _ | .writeS _ _ | .readL _ _ | .writeL _ _ | .readModeRegister _ => false

/-- The wire commands (30_encoding.md R82). -/
def isWireCommand : Instr → Bool
  | .create _ | .initializeDevice | .length => false
  | .read _ | .write _ _ | .update _ _ | .get _ _ | .put _ _ | .erase | .checksum _ _ | .index _ => false
  | .reservedB | .reservedC | .reservedD | .reservedE | .reservedF => false
  | .writeModeRegister | .readS _ _ | .writeS _ _ | .readL _ _ | .writeL _ _ | .readModeRegister _ => true

/-- The instructions that send or carry WRITE frames (30_encoding.md R82). -/
def writesDevice : Instr → Bool
  | .create _ | .initializeDevice | .length => false
  | .write _ _ | .update _ _ | .put _ _ | .erase => true
  | .read _ | .get _ _ | .checksum _ _ | .index _ => false
  | .reservedB | .reservedC | .reservedD | .reservedE | .reservedF => false
  | .writeS _ _ | .writeL _ _ => true
  | .writeModeRegister | .readS _ _ | .readL _ _ | .readModeRegister _ => false

/-- The instructions that send or carry a WRITE_MODE_REGISTER frame (30_encoding.md R82). -/
def writesMode : Instr → Bool
  | .create _ | .initializeDevice => true
  | .length => false
  | .read _ | .write _ _ | .update _ _ | .get _ _ | .put _ _ | .erase | .checksum _ _ | .index _ => false
  | .reservedB | .reservedC | .reservedD | .reservedE | .reservedF => false
  | .writeModeRegister => true
  | .readS _ _ | .writeS _ _ | .readL _ _ | .writeL _ _ | .readModeRegister _ => false

/-! ### The environment -/

/-- "every transfer returns", the premise of a claim that an operation completes (70_reset_and_hazards.md R250, D17); a call
of `BusInit` returns too. -/
def Returns (s : State) : Prop := ∀ f ∈ s.fates, f ≠ .stalled

/-- A device is there and every transfer is delivered to it: the reference device of 20_memory.md R70 to R76. -/
structure Healthy (s : State) : Prop where
  there : s.devPresent = true
  delivered : ∀ f ∈ s.fates, f = .delivered

/-- The device is in sequential mode (20_memory.md R73). -/
def SequentialMode (s : State) : Prop := s.dev.mode = modeSeq

/-- Every data transfer of a frame of `n` data bytes has a meaning for whatever is on the bus: one byte in any mode, more
in sequential mode, any number with no device (20_memory.md R74, R77). -/
def Streams (s : State) (n : Nat) : Prop := n ≤ 1 ∨ SequentialMode s ∨ s.devPresent = false

/-! ### The wire trace -/

/-- The wire events in the order they happened (20_memory.md R66). -/
def State.wireTrace (s : State) : List WireEvent := s.wire.reverse

/-- A wire event without the byte received: the "wire trace up to the `rx` values" (20_memory.md R77). -/
inductive Drive where
  | cfg
  | init
  | csLow
  | csHigh
  | x (tx : Byte)
  | b (tx : Byte)
deriving DecidableEq, Repr

def WireEvent.drive : WireEvent → Drive
  | .cfg => .cfg
  | .init => .init
  | .csLow => .csLow
  | .csHigh => .csHigh
  | .x tx _ => .x tx
  | .b tx _ => .b tx

/-- From `s` to `t` exactly the events driven as `ds` happened, in that order. -/
def Emits (s t : State) (ds : List Drive) : Prop :=
  ∃ new, t.wireTrace = s.wireTrace ++ new ∧ new.map WireEvent.drive = ds

/-- The masked address as a number (20_memory.md R52: `a mod CAPACITY`). -/
def addressOf (v : Variant) (a : Word) : Nat := a.toNat % v.capacity

/-- The address bytes of a frame, most significant first (30_encoding.md R85, R86). -/
def addressBytes (v : Variant) (m : Nat) : List Byte :=
  match v with
  | .small => [BitVec.ofNat 8 (m / 256), BitVec.ofNat 8 m]
  | .large => [BitVec.ofNat 8 (m / 65536), BitVec.ofNat 8 (m / 256), BitVec.ofNat 8 m]

/-- The start of a bracket: `CS↓`, the command byte, the address bytes (30_encoding.md R80, R81). -/
def headerDrives (v : Variant) (cmd : Byte) (m : Nat) : List Drive :=
  .csLow :: .x cmd :: (addressBytes v m).map Drive.x

/-- A whole bracket with the given data phase (30_encoding.md R80, R88). -/
def frameDrives (v : Variant) (cmd : Byte) (m : Nat) (data : List Drive) : List Drive :=
  headerDrives v cmd m ++ data ++ [.csHigh]

/-- The bracket of one single-byte read (41_single_byte.md R130). -/
def readDrives (c : Config) (m : Nat) : List Drive := frameDrives c.variant cmdRead m [.x c.dummy]

/-- The bracket of initializeDevice (40_init_and_query.md R111). -/
def modeDrives : List Drive := [.csLow, .x 0x01, .x 0x40, .csHigh]

/-- The read brackets of a checksum of `k` bytes (44_checksum.md R185). -/
def checksumDrives (c : Config) (m : Nat) (k : Nat) : List Drive :=
  (List.range k).flatMap fun i => readDrives c ((m + i) % c.variant.capacity)

/-- The scratch buffer after a header for the masked address `m` (10_state.md R29). -/
def abufAfter (v : Variant) (old : AddrBuf) (m : Nat) : AddrBuf :=
  match v with
  | .small => old
  | .large =>
    { b0 := BitVec.ofNat 8 m, b1 := BitVec.ofNat 8 (m / 256), b2 := BitVec.ofNat 8 (m / 65536),
      b3 := BitVec.ofNat 8 (m / 16777216) }

/-- The scratch buffer after the headers of `k` reads from the masked address `m` on. -/
def abufAfterReads (v : Variant) (old : AddrBuf) (m k : Nat) : AddrBuf :=
  if k = 0 then old else abufAfter v old ((m + (k - 1)) % v.capacity)

/-- The bytes received in the data position of single-byte read brackets: the last before each `CS↑`. -/
def dataReplies : List WireEvent → List Byte
  | [] => []
  | .x _ rx :: .csHigh :: rest => rx :: dataReplies rest
  | _ :: rest => dataReplies rest

/-- The number of bytes a checksum folds (20_memory.md R53): `L` on Small, `L & 0x1FFFF` on Large. -/
def foldedLength (v : Variant) (len : Word) : Nat :=
  match v with
  | .small => len.toNat
  | .large => len.toNat % 131072

/-! ### Device contents -/

/-- Every byte of the device reads as before, and its mode register too. -/
def DeviceKept (s t : State) : Prop :=
  (∀ x, t.dev.byteAt x = s.dev.byteAt x) ∧ t.dev.mode = s.dev.mode

/-- The bytes at `m, m + 1, ...`, wrapping at the end of the device (20_memory.md R76). -/
def bytesAt (s : State) (m k : Nat) : List Byte :=
  (List.range k).map fun i => s.dev.byteAt ((m + i) % s.cfg.variant.capacity)

/-! ### The frame of an operation -/

/-- What an operation that sends frames leaves unchanged: everything but the chip-select level, the sequencer, the
scratch buffer, the device's and the bus's own state, the record of the wire, the response strobe, and the registers the
statement names one by one. -/
def busFrame (s t : State) : State :=
  { s with
    csN := true
    phase := .idle
    abuf := t.abuf
    dev := t.dev
    fates := t.fates
    draws := t.draws
    wire := t.wire
    done := true }

/-- What a frame at the device's own port leaves unchanged: everything but the device, its answer, the free bytes drawn
and the response strobe. -/
def portFrame (s t : State) : State := { s with dev := t.dev, reply := t.reply, draws := t.draws, done := false }

/-- Two states that differ at most in the registers that are "written before they are read within every operation that
reads them" (10_state.md R35). -/
def SameButScratch (s t : State) : Prop :=
  t.dbuf.length = s.dbuf.length ∧
  t = { s with
    addr := t.addr, len := t.len, val := t.val, n := t.n, res := t.res, acc := t.acc, abuf := t.abuf, dbuf := t.dbuf
    cur := t.cur, cnt := t.cnt }

/-- The operations that return a number in `res` (10_state.md R27). -/
def returnsRes : Instr → Bool
  | .length => true
  | .create _ | .initializeDevice => false
  | .read _ | .checksum _ _ | .index _ => true
  | .write _ _ | .update _ _ | .get _ _ | .put _ _ | .erase => false
  | .reservedB | .reservedC | .reservedD | .reservedE | .reservedF => false
  | .writeModeRegister | .readS _ _ | .writeS _ _ | .readL _ _ | .writeL _ _ | .readModeRegister _ => false

/-! ### Brackets on the wire -/

/-- Where a wire trace stands with respect to brackets. -/
inductive BracketPos where
  /-- chip-select is high. -/
  | closed
  /-- chip-select has just fallen. -/
  | opened
  /-- the command byte has been driven. -/
  | inFrame
deriving DecidableEq, Repr

/-- The commands the block ever sends (30_encoding.md R93). -/
def blockCommand (c : Byte) : Bool := c == 0x01 || c == 0x02 || c == 0x03

/-- One event more. `none`: the discipline of 30_encoding.md R80, R91, R93 is broken. -/
def BracketPos.next (p : BracketPos) (e : WireEvent) : Option BracketPos :=
  match p with
  | .closed =>
    match e with
    | .cfg | .init => some .closed
    | .csLow => some .opened
    | .csHigh | .x _ _ | .b _ _ => none
  | .opened =>
    match e with
    | .x c _ => if blockCommand c then some .inFrame else none
    | .cfg | .init | .csLow | .csHigh | .b _ _ => none
  | .inFrame =>
    match e with
    | .x _ _ | .b _ _ => some .inFrame
    | .csHigh => some .closed
    | .cfg | .init | .csLow => none

/-- The position after a trace given newest first. -/
def bracketPos : List WireEvent → Option BracketPos
  | [] => some .closed
  | e :: older => (bracketPos older).bind fun p => p.next e

/-! ### Hanging -/

/-- An operation waits inside its bracket for a transfer that never returns (70_reset_and_hazards.md R250: "`busy` stays 1,
`phase` stays where it was, and chip-select stays low if the stall is inside a bracket"). -/
structure StalledInBracket (s : State) : Prop where
  stalled : nextFate s = .stalled
  busy : s.busy = true
  pending : s.done = false
  low : s.csN = false
  inside : s.phase ≠ .idle

/-- `create(cs, true)` waits for a `BusInit` that never returns: the line has been configured and is high, the bus is not
initialised (70_reset_and_hazards.md R250, 40_init_and_query.md R110; log 41). -/
structure StalledInBusInit (s : State) : Prop where
  stalled : nextFate s = .stalled
  busy : s.busy = true
  pending : s.done = false
  line : s.csCfg = true
  high : s.csN = true
  bus : s.busInited = false

/-! ### The invariant -/

/-- What holds in every state a run reaches. -/
structure MachineInv (s : State) : Prop where
  /-- the byte array is in canonical form. -/
  memory : Memory.wf s.dev.mem
  /-- the byte array lies in the device's address space (20_memory.md R50). -/
  within : Memory.within s.cfg.variant.capacity s.dev.mem
  /-- the device pointer is an address of the device (20_memory.md R70). -/
  pointer : s.dev.ptr < s.cfg.variant.capacity
  /-- the transfer region has `N_MAX` bytes (10_state.md R20). -/
  region : s.dbuf.length = s.cfg.nMax
  /-- initialised only after construction and bus initialisation (70_reset_and_hazards.md R242). -/
  order : s.inited = true → s.csCfg = true ∧ s.busInited = true
  /-- between operations the sequencer is idle, chip-select is high, no bracket is open, the device's decoder is idle
  (10_state.md R24, R31, 20_memory.md R71). -/
  between : s.busy = false →
    s.phase = .idle ∧ s.csN = true ∧ bracketPos s.wire = some .closed ∧ s.dev.dpos = .idle
  /-- an operation that did not complete hangs on a stalled bus: inside an open bracket, or, in `BusInit`, before its first
  bracket with the line high and the sequencer where it was (70_reset_and_hazards.md R250). -/
  hanging : s.busy = true →
    (StalledInBracket s ∧ (bracketPos s.wire = some .opened ∨ bracketPos s.wire = some .inFrame)) ∨
      (StalledInBusInit s ∧ s.phase = .idle ∧ bracketPos s.wire = some .closed ∧ s.dev.dpos = .idle)

end Sys2Proof.Machine
end

