-- ==== Sys2Proof/Certificates/Slice0/Obligations.lean ====
section
/-! DEFINITION. The statements for the provers, family by family. -/

open Sys2Proof Sys2Proof.Machine

/-! ### Encoding and stepping -/

/-- Words written out from the tables of 30_encoding.md R81, R82 and R96 decode to the instructions they stand for. -/
def Obligations.WrittenOutWordsDecode : Prop :=
  decodeTableWord 8 0b0000 = some (.create false) ∧
  decodeTableWord 8 0b0010 = some .length ∧
  decodeTableWord 8 0b1000 = some .erase ∧
  decodeTableWord 8 0b1100 = some .reservedC ∧
  decodeTableWord 16 0b0000000101000000 = some .writeModeRegister ∧
  decodeTableWord 24 0b000000110001001000110100 = some (.readS 0x1234 [0x00]) ∧
  decodeTableWord 24 0b000000101111111100000001 = some (.writeS 0xFF01 [0x00]) ∧
  decodeTableWord 32 0b00000011000000010010001101000101 = some (.readL 0x12345 [0x00]) ∧
  decodeTableWord 32 0b00000010000000000000000000000100 = some (.writeL 0x00004 [0x00]) ∧
  decode .small (.frame [0x05, 0x00]) = .ok (.readModeRegister [0x00])

/-- Decoding an encoded well-formed instruction gives it back, whatever its operands. -/
def Obligations.DecodeInvertsEncode : Prop :=
  ∀ (c : Config) (i : Instr), wellFormed c i = true → decode c.variant (encode i) = .ok i

/-- A frame has one meaning: what a frame decodes to encodes to that frame, and is admitted on that variant. -/
def Obligations.EncodeInvertsDecodeOfFrames : Prop :=
  ∀ (c : Config) (bytes : List Byte) (i : Instr), decode c.variant (.frame bytes) = .ok i →
    encode i = .frame bytes ∧ wellFormed c i = true

/-- 30_encoding.md R96: the sixteen operation codes of the request port, each with the operand fields its row reads and no
other, and the five reserved ones refused: no next state. (A put whose `wbuf` does not hold its `n` bytes is no request,
10_state.md R39.) -/
def Obligations.HostRequestTable : Prop :=
  (∀ r : Request,
    (r.op = 0x0 → decodeRequest r = .ok (.create r.auto)) ∧
    (r.op = 0x1 → decodeRequest r = .ok .initializeDevice) ∧
    (r.op = 0x2 → decodeRequest r = .ok .length) ∧
    (r.op = 0x3 → decodeRequest r = .ok (.read r.addr)) ∧
    (r.op = 0x4 → decodeRequest r = .ok (.write r.addr r.val)) ∧
    (r.op = 0x5 → decodeRequest r = .ok (.update r.addr r.val)) ∧
    (r.op = 0x6 → decodeRequest r = .ok (.get r.addr r.n)) ∧
    (r.op = 0x7 → r.wbuf.length = r.n → decodeRequest r = .ok (.put r.addr r.wbuf)) ∧
    (r.op = 0x8 → decodeRequest r = .ok .erase) ∧
    (r.op = 0x9 → decodeRequest r = .ok (.checksum r.addr r.len)) ∧
    (r.op = 0xA → decodeRequest r = .ok (.index r.addr)) ∧
    (0xB ≤ r.op.toNat → ∃ i, decodeRequest r = .ok i ∧ ∀ s, ∃ why, exec i s = .refused why))

/-- 30_encoding.md R96: "Operand fields that an operation does not read are ignored": two requests with one operation code
that agree on the fields the table gives that operation decode to the same instruction. -/
def Obligations.UnreadOperandFieldsAreIgnored : Prop :=
  ∀ r r' : Request, r.op = r'.op →
    (r.op = 0x0 → r.auto = r'.auto) →
    (r.op ∈ [0x3, 0x4, 0x5, 0x6, 0x7, 0x9, 0xA] → r.addr = r'.addr) →
    (r.op = 0x9 → r.len = r'.len) →
    (r.op ∈ [0x4, 0x5] → r.val = r'.val) →
    (r.op ∈ [0x6, 0x7] → r.n = r'.n) →
    (r.op = 0x7 → r.wbuf = r'.wbuf) →
    decodeRequest r = decodeRequest r'

/-- A step runs the decoded instruction: an idle machine takes the first input; a request that decodes is executed with
that input taken, and so is a frame at the device's port. -/
def Obligations.StepRunsTheDecodedInstruction : Prop :=
  ∀ (s : State) (i : Instr) (rest : List Input), s.busy = false →
    (∀ r, s.inputs = .request r :: rest → decode s.cfg.variant (.request r) = .ok i →
      step s = exec i { s with inputs := rest }) ∧
    (∀ bytes, s.inputs = .frame bytes :: rest → decode s.cfg.variant (.frame bytes) = .ok i →
      step s = exec i { s with inputs := rest })

/-- 92_eei_decisions.md D1, 00_scope.md R7: the machine that takes one wire event or one internal assignment at a time reaches
exactly what one step does. From every state with no operation in progress: where the step answers a next state, some number
of event steps leads there, with nothing left to do if the operation completed, and to a stop that lasts if it hangs; where
the step is refused, an event step is, after the events before it. That a step is a whole operation is log 1. -/
def Obligations.EventsMakeTheStep : Prop :=
  ∀ s : State, s.busy = false →
    match step s with
    | .next t => ∃ k q, eventSteps (k + 1) (Sequenced.rest s) = .next q ∧ q.block = t ∧
        (t.busy = false → q.todo = []) ∧ (t.busy = true → eventStep q = .next q)
    | .fault _ => False
    | .refused r => ∃ k, eventSteps (k + 1) (Sequenced.rest s) = .refused r

/-- 92_eei_decisions.md D1, 20_memory.md R66: an event step adds at most one wire event, behind those before it. -/
def Obligations.OneWireEventAtATime : Prop :=
  ∀ q q' : Sequenced, eventStep q = .next q' →
    q'.block.wireTrace = q.block.wireTrace ∨ ∃ e, q'.block.wireTrace = q.block.wireTrace ++ [e]

/-! ### Reset and the invariant -/

/-- 10_state.md R40: the values it gives for the state before `create`, on either variant. -/
def Obligations.ResetLeavesTheGivenValues : Prop :=
  ∀ c : Config,
    (State.resetOf c).csCfg = false ∧ (State.resetOf c).inited = false ∧ (State.resetOf c).busy = false ∧
    (State.resetOf c).phase = .idle ∧ (State.resetOf c).busInited = false ∧ (State.resetOf c).cfg = c ∧
    State.reset = State.resetOf Config.machine

/-- The invariant holds after reset. -/
def Obligations.InvariantAtReset : Prop := MachineInv State.reset

/-- Every step keeps the invariant: canonical memory inside the device, pointer inside the device, bracket discipline on
the wire, sequencer and chip-select idle between operations, and a hanging operation inside an open bracket or in `BusInit`
before its first. That a hang is a state with a step to itself is log 22. -/
def Obligations.StepKeepsTheInvariant : Prop :=
  ∀ s t : State, MachineInv s → step s = .next t → MachineInv t

/-! ### Whole-machine rules -/

/-- 10_state.md R21: no operation writes the configuration, and the capacity is a function of the variant. -/
def Obligations.ConfigurationIsNeverWritten : Prop :=
  (∀ s t : State, step s = .next t → t.cfg = s.cfg) ∧
  (∀ (i : Instr) (s t : State), exec i s = .next t → t.cfg = s.cfg) ∧
  Variant.small.capacity = 65536 ∧ Variant.large.capacity = 131072

/-- 10_state.md R25: the one-way transition from uninitialised to initialised, made by every initializeDevice that completes
(create with `auto` runs one) and by nothing else, not by one that hangs; no operation takes it back. -/
def Obligations.InitedIsOneWay : Prop :=
  ∀ (i : Instr) (s t : State), exec i s = .next t →
    (s.inited = true → t.inited = true) ∧
    (s.inited = false → t.inited = true → (i = .initializeDevice ∨ i = .create true) ∧ t.busy = false) ∧
    (i = .initializeDevice ∨ i = .create true → t.busy = false → t.inited = true)

/-- 10_state.md R28: "`acc` is written only by checksum". -/
def Obligations.AccumulatorIsWrittenOnlyByChecksum : Prop :=
  ∀ (i : Instr) (s t : State), (∀ a len, i ≠ .checksum a len) → exec i s = .next t → t.acc = s.acc

/-- 20_memory.md R70, R73: the device's bytes change only in WRITE frames, and its mode only in WRITE_MODE_REGISTER
frames, whatever the bus does. On a failing bus this rests on log 23, in a hang on log 40. -/
def Obligations.OnlyWriteFramesChangeTheDevice : Prop :=
  ∀ (i : Instr) (s t : State), exec i s = .next t →
    (writesDevice i = false → t.dev.mem = s.dev.mem) ∧ (writesMode i = false → t.dev.mode = s.dev.mode)

/-- 60_exceptions.md R217: an operation ends in exactly one way, completed (and then `done`), or it never ends, and then it
hangs on a bus primitive that never returns, a transfer inside an open bracket or the `BusInit` of `create(cs, true)`
(70_reset_and_hazards.md R250). The forms of `done` and of a hang are the model's (logs 37, 22, 41). -/
def Obligations.OperationCompletesOrHangs : Prop :=
  ∀ (i : Instr) (s t : State), isOperation i = true → exec i s = .next t →
    (t.busy = false ∧ t.done = true ∧ t.phase = .idle) ∨ StalledInBracket t ∨
    (i = .create true ∧ StalledInBusInit t)

/-- 10_state.md R35: the registers that do not persist cannot influence a later operation: two states that differ at most
in them give the same refusal, or next states that again differ at most in them and return the same result. -/
def Obligations.ScratchRegistersDoNotPersist : Prop :=
  ∀ (i : Instr) (s s' : State), SameButScratch s s' →
    match exec i s, exec i s' with
    | .next t, .next t' => SameButScratch t t' ∧ (returnsRes i = true → t.busy = false → t'.res = t.res)
    | .refused r, .refused r' => r = r'
    | _, _ => False

/-- 20_memory.md R67, R66: there is no fence and none is needed, every operation is fully ordered before its successor. Of two
requests in a row, when the first completes, the second is what the next step runs, in the state the first has left, and its
wire events all come behind those of the first; and while an operation is in progress no event step takes an input. That what
the host does next is a list is log 2. -/
def Obligations.OperationsAreFullyOrdered : Prop :=
  (∀ (s t : State) (r₁ r₂ : Request) (i₁ i₂ : Instr) (rest : List Input), s.busy = false →
    s.inputs = .request r₁ :: .request r₂ :: rest → decode s.cfg.variant (.request r₁) = .ok i₁ →
    decode s.cfg.variant (.request r₂) = .ok i₂ → step s = .next t → t.busy = false →
    (∃ new, t.wireTrace = s.wireTrace ++ new) ∧ step t = exec i₂ { t with inputs := rest } ∧
    ∀ u, step t = .next u → ∃ new, u.wireTrace = t.wireTrace ++ new) ∧
  ∀ q q' : Sequenced, q.block.busy = true → eventStep q = .next q' → q'.block.inputs = q.block.inputs

/-- 20_memory.md R61: the device's pointer changes with every frame and "no later frame depends on" it: two states that differ
at most in it answer every instruction alike, and differ at most in it afterwards. -/
def Obligations.NoFrameDependsOnThePointer : Prop :=
  ∀ (i : Instr) (s : State) (p : Nat),
    match exec i s, exec i { s with dev := { s.dev with ptr := p } } with
    | .next t, .next t' => t' = { t with dev := { t.dev with ptr := t'.dev.ptr } }
    | .refused r, .refused r' => r = r'
    | _, _ => False

/-! ### Refusals and the hang -/

/-- 60_exceptions.md R215: a request presented while an operation is in progress is not accepted. -/
def Obligations.BusyRefusesEveryRequest : Prop :=
  ∀ (i : Instr) (s : State), s.busy = true → exec i s = .refused .busy

/-- 40_init_and_query.md R111, R113 (D12): outside its precondition an operation that uses the bus is refused. -/
def Obligations.OperationsBeforeInitialisationAreRefused : Prop :=
  ∀ (i : Instr) (s : State), s.busy = false →
    (isDataOperation i = true ∨ i = .initializeDevice → s.csCfg = false → exec i s = .refused .notCreated) ∧
    (isDataOperation i = true ∨ i = .initializeDevice → s.csCfg = true → s.busInited = false →
      exec i s = .refused .busNotInitialised) ∧
    (isDataOperation i = true → s.csCfg = true → s.busInited = true → s.inited = false →
      exec i s = .refused .deviceNotInitialised)

/-- 30_encoding.md R96: the codes `0xB` to `0xF` are refused, in every state. -/
def Obligations.ReservedCodesAreRefused : Prop :=
  ∀ s : State, s.busy = false →
    exec .reservedB s = .refused (.reservedCode 0xB) ∧ exec .reservedC s = .refused (.reservedCode 0xC) ∧
    exec .reservedD s = .refused (.reservedCode 0xD) ∧ exec .reservedE s = .refused (.reservedCode 0xE) ∧
    exec .reservedF s = .refused (.reservedCode 0xF)

/-- 42_block_transfer.md R152: "requests with `n = 0` or `n > N_MAX` are refused". -/
def Obligations.PayloadSizeIsChecked : Prop :=
  ∀ (s : State) (a : Word) (n : Nat) (w : List Byte), Ready s →
    (n = 0 ∨ s.cfg.nMax < n → exec (.get a n) s = .refused .payloadSize) ∧
    (w.length = 0 ∨ s.cfg.nMax < w.length → exec (.put a w) s = .refused .payloadSize)

/-- 20_memory.md R53, D22: on Small a checksum length above 65535 is refused. (On Large no length is:
ChecksumFoldsTheBytesRead.) -/
def Obligations.SmallChecksumLengthHasSixteenBits : Prop :=
  ∀ (s : State) (a len : Word), Ready s → s.cfg.variant = .small → 65535 < len.toNat →
    exec (.checksum a len) s = .refused .lengthPort

/-- 40_init_and_query.md R110: a second `create` is refused, and so is `create(cs, true)` on an initialised bus (D19). -/
def Obligations.SecondConstructionIsRefused : Prop :=
  ∀ (s : State) (auto : Bool), s.busy = false →
    (s.csCfg = true → exec (.create auto) s = .refused .alreadyCreated) ∧
    (s.csCfg = false → s.busInited = true → exec (.create true) s = .refused .busAlreadyInitialised)

/-- 70_reset_and_hazards.md R250: an operation that does not complete waits for a bus primitive that never returns, with `busy`
at 1, inside its bracket with chip-select low, or in `BusInit`; it stays so for ever. The model's choices: a hang is a state
with a step to itself (log 22), `done` is 0 in it (log 37), where a `BusInit` hangs (log 41). That every instruction is refused
there is 60_exceptions.md R215. -/
def Obligations.HangLastsForEver : Prop :=
  ∀ (i : Instr) (s t : State), exec i s = .next t → t.busy = true →
    (StalledInBracket t ∨ StalledInBusInit t) ∧ step t = .next t ∧
    (∀ k, Sys2Proof.core.run k t = .next t) ∧ ∀ j, exec j t = .refused .busy

/-- 70_reset_and_hazards.md R250 for the primitive `BusInit` (20_memory.md R62): `create(cs, true)` whose `BusInit` never returns
has configured the line (`CFG`) and stays busy, outside a bracket, with the line high and the sequencer where it was. That
neither `bus_inited` nor the event `INIT` has happened is the model's choice (log 41); so are the forms of the hang (log 22)
and of `done` (log 37), and that `res` stays (log 27). -/
def Obligations.CreateHangsInBusInit : Prop :=
  ∀ s : State, s.busy = false → s.csCfg = false → s.busInited = false → nextFate s = .stalled →
    exec (.create true) s =
      .next { s with csCfg := true, csN := true, wire := .cfg :: s.wire, busy := true, done := false }

/-- 70_reset_and_hazards.md R250 (95_test_vectors.md P4 row 8): a write, or an update, whose transfer number `k` never returns
has sent the events before it, keeps chip-select low and stays busy in the phase of that transfer, with or without a device
on the bus. The model's choices: the hang is a next state (log 22), `done` is 0 in it (log 37), the device has taken nothing of
the stalled transfer, so no byte is stored (log 40), and `res` keeps its value (log 27). -/
def Obligations.WriteHangsAtTheStalledTransfer : Prop :=
  ∀ (s : State) (a : Word) (v : Byte) (i : Instr) (k : Nat) (later : List Fate), i = .write a v ∨ i = .update a v →
    Ready s → s.fates = List.replicate k .delivered ++ .stalled :: later → k < (addressBytes s.cfg.variant 0).length + 2 →
    ∃ t, exec i s = .next t ∧ t.busy = true ∧ t.done = false ∧ t.csN = false ∧
      Emits s t ((headerDrives s.cfg.variant cmdWrite (addressOf s.cfg.variant a)).take (k + 1)) ∧
      (match s.cfg.variant with
        | .small => [Phase.cmd, .addr1, .addr0, .data]
        | .large => [Phase.cmd, .addr2, .addr1, .addr0, .data])[k]? = some t.phase ∧
      t.dev.mem = s.dev.mem ∧ t.inited = s.inited ∧ t.res = s.res

/-! ### create, initializeDevice, length -/

/-- 40_init_and_query.md R110, `auto = 0`: the line becomes an output, high; the trace is `CFG`; nothing else changes.
That `res`, undefined after create (10_state.md R27), keeps its value is the model's choice (log 27), and so is the form of
`done` (log 37). -/
def Obligations.CreateConfiguresTheLine : Prop :=
  ∀ s : State, s.busy = false → s.csCfg = false →
    exec (.create false) s =
      .next { s with csCfg := true, csN := true, wire := .cfg :: s.wire, phase := .idle, done := true }

/-- 40_init_and_query.md R110, `auto = 1`: the trace `CFG INIT CS↓ X(01,?) X(40,?) CS↑`, the bus and the device
initialised, on the reference device the mode register at `0x40`; no other register changes. That `res`, undefined after create
(10_state.md R27), keeps its value is the model's choice (log 27), and so is the form of `done` (log 37). -/
def Obligations.CreateAutoInitialises : Prop :=
  ∀ s : State, s.busy = false → s.csCfg = false → s.busInited = false → Returns s →
    ∃ t, exec (.create true) s = .next t ∧
      Emits s t [.cfg, .init, .csLow, .x 0x01, .x 0x40, .csHigh] ∧
      t = { busFrame s t with csCfg := true, busInited := true, inited := true } ∧
      t.abuf = s.abuf ∧ t.dev.mem = s.dev.mem ∧ (Healthy s → t.dev.mode = 0x40)

/-- 40_init_and_query.md R111 (`op = 0x1`): one bracket `01 40`, `inited <- 1`, on the reference device the mode register at `0x40`;
no other register changes. That `res`, undefined after initializeDevice (10_state.md R27), keeps its value is the model's choice
(log 27), and so is the form of `done` (log 37). -/
def Obligations.InitializeDeviceSendsTheModeFrame : Prop :=
  (∀ r : Request, r.op = 0x1 → decodeRequest r = .ok .initializeDevice) ∧
  ∀ s : State, BusReady s → Returns s →
    ∃ t, exec .initializeDevice s = .next t ∧ Emits s t modeDrives ∧
      t = { busFrame s t with inited := true } ∧ t.abuf = s.abuf ∧
      t.dev.mem = s.dev.mem ∧ (Healthy s → t.dev.mode = 0x40) ∧ (s.devPresent = false → t.dev = s.dev)

/-- 40_init_and_query.md R111 (a): "repeating has no adverse effect since it re-sends the same mode byte": a second
initializeDevice sends the same frame and leaves `inited` and the device's store as they are. -/
def Obligations.InitializeDeviceIsIdempotent : Prop :=
  ∀ s t : State, BusReady s → Healthy s → exec .initializeDevice s = .next t →
    ∃ u, exec .initializeDevice t = .next u ∧ Emits t u modeDrives ∧ u.inited = t.inited ∧
      u.dev.mode = t.dev.mode ∧ u.dev.mem = t.dev.mem

/-- 40_init_and_query.md R112: `res <- CAPACITY` in every state without an operation in progress; no wire event, no other
register. -/
def Obligations.LengthReturnsTheCapacity : Prop :=
  (∀ r : Request, r.op = 0x2 → decodeRequest r = .ok .length) ∧
  ∀ s : State, s.busy = false →
    exec .length s = .next { s with
      res := (match s.cfg.variant with | .small => 0x00010000 | .large => 0x00020000), phase := .idle, done := true }

/-! ### read, index, write, update -/

/-- 41_single_byte.md R130, R133: `read(a)` (`op = 0x3`) and `device[a]` (`op = 0xA`) on any bus whose transfers return: one bracket with the READ
header of the masked address and the dummy byte; `res` is the byte received in the data position, whatever it is, and on
the reference device the byte at the masked address. The device's bytes and mode stay; no other register changes. -/
def Obligations.ReadReturnsTheByteReceived : Prop :=
  (∀ r : Request, (r.op = 0x3 → decodeRequest r = .ok (.read r.addr)) ∧
    (r.op = 0xA → decodeRequest r = .ok (.index r.addr))) ∧
  ∀ (s : State) (a : Word) (i : Instr), i = .read a ∨ i = .index a → Ready s → Returns s →
    ∃ t hdr r, exec i s = .next t ∧
      t.wireTrace = s.wireTrace ++ hdr ++ [.x s.cfg.dummy r, .csHigh] ∧
      hdr.map WireEvent.drive = headerDrives s.cfg.variant 0x03 (addressOf s.cfg.variant a) ∧
      t.res = r.setWidth 32 ∧
      t = { busFrame s t with addr := a, res := t.res } ∧
      t.abuf = abufAfter s.cfg.variant s.abuf (addressOf s.cfg.variant a) ∧
      DeviceKept s t ∧
      (Healthy s → r = s.dev.byteAt (addressOf s.cfg.variant a))

/-- 41_single_byte.md R133: `device[a] = read(a)`, encoded as `op = 0xA`. -/
def Obligations.IndexIsRead : Prop :=
  (∀ r : Request, r.op = 0xA → decodeRequest r = .ok (.index r.addr)) ∧
  ∀ (a : Word) (s : State), exec (.index a) s = exec (.read a) s

/-- 41_single_byte.md R131, R132: `write(a, v)` (`op = 0x4`) and `update(a, v)` (`op = 0x5`) on any bus whose transfers return: one bracket with the
WRITE header of the masked address and the byte `v`. No other byte of the device changes, whatever the bus does; on the
reference device the byte at the masked address becomes `v`. No other register changes. The model's choices: `res`, undefined
after write and update (10_state.md R27), keeps its value (log 27); what a failing bus does to the device (log 23). -/
def Obligations.WriteStoresOneByte : Prop :=
  (∀ r : Request, (r.op = 0x4 → decodeRequest r = .ok (.write r.addr r.val)) ∧
    (r.op = 0x5 → decodeRequest r = .ok (.update r.addr r.val))) ∧
  ∀ (s : State) (a : Word) (v : Byte) (i : Instr), i = .write a v ∨ i = .update a v → Ready s → Returns s →
    ∃ t, exec i s = .next t ∧
      Emits s t (frameDrives s.cfg.variant 0x02 (addressOf s.cfg.variant a) [.x v]) ∧
      t = { busFrame s t with addr := a, val := v } ∧
      t.abuf = abufAfter s.cfg.variant s.abuf (addressOf s.cfg.variant a) ∧
      t.dev.mode = s.dev.mode ∧
      (Healthy s → t.dev.byteAt (addressOf s.cfg.variant a) = v) ∧
      (∀ x, x ≠ addressOf s.cfg.variant a → t.dev.byteAt x = s.dev.byteAt x) ∧
      (s.devPresent = false → t.dev = s.dev)

/-- 41_single_byte.md R132: `update(a, v) = write(a, v)`, encoded as `op = 0x5`. -/
def Obligations.UpdateIsWrite : Prop :=
  (∀ r : Request, r.op = 0x5 → decodeRequest r = .ok (.update r.addr r.val)) ∧
  ∀ (a : Word) (v : Byte) (s : State), exec (.update a v) s = exec (.write a v) s

/-- 41_single_byte.md R134: on the reference device `write(a, v)` followed by `read(a')` returns `v` whenever the two
addresses mask to the same: at once, and from every later state of the block in which that byte has not changed. -/
def Obligations.WriteThenReadReturnsTheByte : Prop :=
  ∀ (s t : State) (a a' : Word) (v : Byte), Ready s → Healthy s → maskAddr s.cfg.variant a = maskAddr s.cfg.variant a' →
    exec (.write a v) s = .next t →
    Ready t ∧ Healthy t ∧ t.cfg = s.cfg ∧
    ∀ l : State, Ready l → Healthy l → l.cfg = s.cfg →
      l.dev.byteAt (addressOf s.cfg.variant a) = t.dev.byteAt (addressOf s.cfg.variant a) →
      ∃ u, exec (.read a') l = .next u ∧ u.res = v.setWidth 32

/-- 20_memory.md R52: masking is reduction modulo the capacity, and the masked address is all an operation sends: two
addresses that mask to the same give the same step but for the latched operand. -/
def Obligations.AddressesActModuloCapacity : Prop :=
  (∀ (v : Variant) (a : Word), (maskAddr v a).toNat = a.toNat % v.capacity) ∧
  ∀ (s : State) (a a' : Word) (v : Byte) (n : Nat) (w : List Byte) (mk : Word → Instr),
    mk = Instr.read ∨ mk = Instr.index ∨ mk = (Instr.write · v) ∨ mk = (Instr.update · v) ∨ mk = (Instr.get · n) ∨
      mk = (Instr.put · w) →
    maskAddr s.cfg.variant a = maskAddr s.cfg.variant a' →
    match exec (mk a) s, exec (mk a') s with
    | .next t, .next t' => { t with addr := a' } = t'
    | .refused r, .refused r' => r = r'
    | _, _ => False

/-! ### get, put -/

/-- 42_block_transfer.md R150: `get(a, n)`: one bracket, one READ header of the masked start address, `n` bytes of a block
transfer; the result and the region are the bytes received in order, on the reference device the bytes from the masked
address on, wrapping at the end of the device (K4, log 21). The device's bytes and mode stay; no other register changes. That `res` keeps
its value is the model's choice (log 27). -/
def Obligations.GetReturnsTheBytesReceived : Prop :=
  ∀ (s : State) (a : Word) (n : Nat), Ready s → Returns s → 1 ≤ n → n ≤ s.cfg.nMax → s.dbuf.length = s.cfg.nMax →
    Streams s n →
    ∃ t hdr txs rxs, exec (.get a n) s = .next t ∧ txs.length = n ∧ rxs.length = n ∧
      t.wireTrace = s.wireTrace ++ hdr ++ List.zipWith WireEvent.b txs rxs ++ [.csHigh] ∧
      hdr.map WireEvent.drive = headerDrives s.cfg.variant 0x03 (addressOf s.cfg.variant a) ∧
      t = { busFrame s t with addr := a, n := n, rbuf := rxs, dbuf := rxs ++ s.dbuf.drop n } ∧
      t.abuf = abufAfter s.cfg.variant s.abuf (addressOf s.cfg.variant a) ∧
      DeviceKept s t ∧
      (Healthy s → rxs = bytesAt s (addressOf s.cfg.variant a) n)

/-- 42_block_transfer.md R151, 20_memory.md R76 (c): `put(a, w)`: one bracket, one WRITE header of the masked start
address, the bytes of `w` in order; the result is `w`, the region holds the replies. Every byte outside the addresses sent
to stays, whatever the bus does; on the reference device the last byte of `w` sent to an address is what it holds (K4, log 21).
No other register changes. The model's choices: `res` keeps its value (log 27); what a failing bus does to the device (log 23). -/
def Obligations.PutStoresTheBytes : Prop :=
  ∀ (s : State) (a : Word) (w : List Byte), Ready s → Returns s → 1 ≤ w.length → w.length ≤ s.cfg.nMax →
    s.dbuf.length = s.cfg.nMax → Streams s w.length →
    ∃ t hdr rxs, exec (.put a w) s = .next t ∧ rxs.length = w.length ∧
      t.wireTrace = s.wireTrace ++ hdr ++ List.zipWith WireEvent.b w rxs ++ [.csHigh] ∧
      hdr.map WireEvent.drive = headerDrives s.cfg.variant 0x02 (addressOf s.cfg.variant a) ∧
      t = { busFrame s t with addr := a, n := w.length, rbuf := w, dbuf := rxs ++ s.dbuf.drop w.length } ∧
      t.abuf = abufAfter s.cfg.variant s.abuf (addressOf s.cfg.variant a) ∧
      t.dev.mode = s.dev.mode ∧
      (Healthy s → ∀ i (hi : i < w.length),
        (∀ j < w.length, i < j → (addressOf s.cfg.variant a + j) % s.cfg.variant.capacity ≠
          (addressOf s.cfg.variant a + i) % s.cfg.variant.capacity) →
        t.dev.byteAt ((addressOf s.cfg.variant a + i) % s.cfg.variant.capacity) = w[i]) ∧
      (∀ x, (∀ i < w.length, x ≠ (addressOf s.cfg.variant a + i) % s.cfg.variant.capacity) →
        t.dev.byteAt x = s.dev.byteAt x) ∧
      (s.devPresent = false → t.dev = s.dev)

/-- 20_memory.md R74: on the reference device outside sequential mode a get or a put of more than one byte, and an erase,
have no meaning: refused. (With one byte they complete: GetReturnsTheBytesReceived, PutStoresTheBytes.) -/
def Obligations.BlockTransfersNeedSequentialMode : Prop :=
  ∀ s : State, Ready s → Healthy s → ¬SequentialMode s → s.dbuf.length = s.cfg.nMax →
    (∀ a n, 2 ≤ n → n ≤ s.cfg.nMax → exec (.get a n) s = .refused .deviceNoMeaning) ∧
    (∀ a (w : List Byte), 2 ≤ w.length → w.length ≤ s.cfg.nMax → exec (.put a w) s = .refused .deviceNoMeaning) ∧
    exec .erase s = .refused .deviceNoMeaning

/-- 42_block_transfer.md R154: on the reference device, for a payload no longer than the device, `put(a, w)` followed by
`get(a', n)` at an address that masks to the same returns `w`: at once, and from every later state of the block in which
those bytes have not changed. A payload that crosses the end of the device rests on the device's wrap (K4, log 21). -/
def Obligations.PutThenGetReturnsTheValue : Prop :=
  ∀ (s t : State) (a a' : Word) (w : List Byte), Ready s → Healthy s → SequentialMode s → s.dbuf.length = s.cfg.nMax →
    1 ≤ w.length → w.length ≤ s.cfg.nMax → w.length ≤ s.cfg.variant.capacity →
    maskAddr s.cfg.variant a = maskAddr s.cfg.variant a' →
    exec (.put a w) s = .next t →
    Ready t ∧ Healthy t ∧ t.cfg = s.cfg ∧ SequentialMode t ∧ t.dbuf.length = t.cfg.nMax ∧
    ∀ l : State, Ready l → Healthy l → SequentialMode l → l.cfg = s.cfg → l.dbuf.length = l.cfg.nMax →
      bytesAt l (addressOf s.cfg.variant a) w.length = bytesAt t (addressOf s.cfg.variant a) w.length →
      ∃ u, exec (.get a' w.length) l = .next u ∧ u.rbuf = w

/-! ### erase -/

/-- 43_erase.md R170: `erase()`: one bracket, the WRITE header of address 0, `CAPACITY` zero bytes; on the reference device
every byte becomes 0 and the pointer ends at 0 (its wrap is K4, log 21). No other register changes but `cnt`, which ends at 0. That
`res`, undefined after erase (10_state.md R27), keeps its value is the model's choice (log 27). -/
def Obligations.EraseZeroesTheDevice : Prop :=
  ∀ s : State, Ready s → Returns s → SequentialMode s ∨ s.devPresent = false →
    ∃ t, exec .erase s = .next t ∧
      Emits s t (frameDrives s.cfg.variant 0x02 0 (List.replicate s.cfg.variant.capacity (.x 0x00))) ∧
      t = { busFrame s t with cnt := 0 } ∧
      t.abuf = abufAfter s.cfg.variant s.abuf 0 ∧
      t.dev.mode = s.dev.mode ∧
      (Healthy s → ∀ x, t.dev.byteAt x = if x < s.cfg.variant.capacity then 0x00 else s.dev.byteAt x) ∧
      (Healthy s → t.dev.ptr = 0) ∧
      (s.devPresent = false → t.dev = s.dev)

/-- 43_erase.md R171: on the reference device, after `erase()`, every read returns 0, every get zero bytes, every checksum
0. -/
def Obligations.AfterEraseEverythingReadsZero : Prop :=
  ∀ s t : State, Ready s → Healthy s → SequentialMode s → s.dbuf.length = s.cfg.nMax → exec .erase s = .next t →
    (∀ a, ∃ u, exec (.read a) t = .next u ∧ u.res = 0) ∧
    (∀ a n, 1 ≤ n → n ≤ s.cfg.nMax → ∃ u, exec (.get a n) t = .next u ∧ u.rbuf = List.replicate n 0x00) ∧
    (∀ a len, lengthOk s.cfg len = true → ∃ u, exec (.checksum a len) t = .next u ∧ u.res = 0)

/-! ### The fold unit and checksum -/

/-- 44_checksum.md R181: the table form of the fold is the loop form, for every polynomial. -/
def Obligations.TableFoldIsLoopFold : Prop :=
  ∀ (poly crc : Crc) (b : Byte),
    crc16Update poly crc b = (crc >>> 8) ^^^ crcTable poly ((crc ^^^ b.setWidth 16).setWidth 8)

/-- 44_checksum.md R183 (a), (b), (d), (e), (f): the laws of the fold, for every polynomial. -/
def Obligations.FoldLaws : Prop :=
  ∀ (poly : Crc),
    (∀ s, crc16 poly s [] = s) ∧
    (∀ s xs ys, crc16 poly s (xs ++ ys) = crc16 poly (crc16 poly s xs) ys) ∧
    (∀ n ys, crc16 poly 0 (List.replicate n 0x00 ++ ys) = crc16 poly 0 ys) ∧
    (∀ x y b d, crc16Update poly (x ^^^ y) (b ^^^ d) = crc16Update poly x b ^^^ crc16Update poly y d) ∧
    (∀ xs ys : List Byte, xs.length = ys.length →
      crc16 poly 0 (List.zipWith (· ^^^ ·) xs ys) = crc16 poly 0 xs ^^^ crc16 poly 0 ys) ∧
    (∀ b, crc16Update poly 0 b = crcTable poly b)

/-- 44_checksum.md R184 and 95_test_vectors.md V-C6, V-C7, V-C12, V-C14, on the constant `0xA001` (general knowledge, K1,
log 9). -/
def Obligations.FoldCheckValues : Prop :=
  crc16 0xA001 0 [0x31, 0x32, 0x33, 0x34, 0x35, 0x36, 0x37, 0x38, 0x39] = 0xBB3D ∧
  crc16 0xA001 0 [0x01, 0x02] = 0x5180 ∧ crc16 0xA001 0 [0x02, 0x01] = 0xA0C0 ∧
  crc16 0xA001 0 [0xDE, 0xAD, 0xBE, 0xEF] = 0xE59B ∧ Config.machine.crcPoly = 0xA001

/-- 44_checksum.md R185: `checksum(a, L)` (`op = 0x9`) on any bus whose transfers return: one whole read bracket a byte at the
masked running address; the accumulator and the result are the CRC of the bytes received, seed 0, on the reference device
of the bytes from the masked address on, wrapping in the block. The device's bytes and mode stay; no other register
changes. -/
def Obligations.ChecksumFoldsTheBytesRead : Prop :=
  (∀ r : Request, r.op = 0x9 → decodeRequest r = .ok (.checksum r.addr r.len)) ∧
  ∀ (s : State) (a len : Word), Ready s → Returns s → lengthOk s.cfg len = true →
    ∃ t new, exec (.checksum a len) s = .next t ∧
      t.wireTrace = s.wireTrace ++ new ∧
      new.map WireEvent.drive =
        checksumDrives s.cfg (addressOf s.cfg.variant a) (foldedLength s.cfg.variant len) ∧
      (dataReplies new).length = foldedLength s.cfg.variant len ∧
      t.acc = crc16 s.cfg.crcPoly 0 (dataReplies new) ∧
      t.res = (crc16 s.cfg.crcPoly 0 (dataReplies new)).setWidth 32 ∧
      t = { busFrame s t with
        csN := if foldedLength s.cfg.variant len = 0 then s.csN else true
        addr := a, len := len, acc := t.acc, res := t.res, cur := t.cur, cnt := 0 } ∧
      t.abuf = abufAfterReads s.cfg.variant s.abuf (addressOf s.cfg.variant a) (foldedLength s.cfg.variant len) ∧
      DeviceKept s t ∧
      (Healthy s →
        dataReplies new = bytesAt s (addressOf s.cfg.variant a) (foldedLength s.cfg.variant len))

/-- 44_checksum.md R185 (a), (b): a checksum of no byte, on Large also one of `CAPACITY` bytes, has no bus activity and
returns 0. -/
def Obligations.EmptyChecksumIsZero : Prop :=
  ∀ (s : State) (a len : Word), Ready s → len = 0 ∨ s.cfg.variant = .large ∧ len = 0x20000 →
    ∃ t, exec (.checksum a len) s = .next t ∧ t.res = 0 ∧ t.wire = s.wire ∧ t.dev = s.dev

/-- 44_checksum.md R186: on Large the length operand acts modulo `0x20000`; on both variants the address operand acts
modulo the capacity; a Small length is not masked. -/
def Obligations.ChecksumMaskingIsAsymmetric : Prop :=
  ∀ (s t : State) (a len : Word), Healthy s → exec (.checksum a len) s = .next t →
    (∀ len' : Word, s.cfg.variant = .large → len'.toNat % 131072 = len.toNat % 131072 →
      ∃ u, exec (.checksum a len') s = .next u ∧ u.res = t.res) ∧
    (∀ a' : Word, maskAddr s.cfg.variant a' = maskAddr s.cfg.variant a →
      ∃ u, exec (.checksum a' len) s = .next u ∧ u.res = t.res) ∧
    (s.cfg.variant = .small → t.res = (crc16 s.cfg.crcPoly 0 (bytesAt s (addressOf .small a) len.toNat)).setWidth 32)

/-! ### The wire commands: the reference device -/

/-- 20_memory.md R72, R73: a READ frame at the device's port: the pointer is the address, each data exchange answers the
byte there and moves the pointer on (its wrap at the end is K4, log 21); more than one data byte needs sequential mode. Contents,
mode, and every register and the wire trace of the block stay. The port is log 5. -/
def Obligations.ReadCommandAnswersTheBytes : Prop :=
  ∀ (s : State) (i : Instr) (m h : Nat) (ds : List Byte), s.busy = false → s.devPresent = true →
    ds.length ≤ 1 ∨ SequentialMode s →
    (∃ a : BitVec 16, s.cfg.variant = .small ∧ i = .readS a ds ∧ m = a.toNat ∧ h = 3) ∨
      (∃ a : BitVec 17, s.cfg.variant = .large ∧ i = .readL a ds ∧ m = a.toNat ∧ h = 4) →
    ∃ t, exec i s = .next t ∧ t.reply.length = h + ds.length ∧ t.reply.drop h = bytesAt s m ds.length ∧
      t = portFrame s t ∧ DeviceKept s t ∧
      t.dev.ptr = (m + ds.length) % s.cfg.variant.capacity ∧ t.dev.dpos = .idle

/-- 20_memory.md R72, R73: a WRITE frame at the device's port: the last data byte sent to an address is what it holds (the wrap
at the end is K4, log 21); every other byte, the mode, and every register and the wire trace of the block stay. The port is
log 5. -/
def Obligations.WriteCommandStoresTheBytes : Prop :=
  ∀ (s : State) (i : Instr) (m : Nat) (ds : List Byte), s.busy = false → s.devPresent = true →
    ds.length ≤ 1 ∨ SequentialMode s →
    (∃ a : BitVec 16, s.cfg.variant = .small ∧ i = .writeS a ds ∧ m = a.toNat) ∨
      (∃ a : BitVec 17, s.cfg.variant = .large ∧ i = .writeL a ds ∧ m = a.toNat) →
    ∃ t, exec i s = .next t ∧ t = portFrame s t ∧ t.dev.mode = s.dev.mode ∧
      t.dev.ptr = (m + ds.length) % s.cfg.variant.capacity ∧ t.dev.dpos = .idle ∧
      (∀ k (hk : k < ds.length),
        (∀ j < ds.length, k < j → (m + j) % s.cfg.variant.capacity ≠ (m + k) % s.cfg.variant.capacity) →
        t.dev.byteAt ((m + k) % s.cfg.variant.capacity) = ds[k]) ∧
      ∀ x, (∀ k < ds.length, x ≠ (m + k) % s.cfg.variant.capacity) → t.dev.byteAt x = s.dev.byteAt x

/-- 20_memory.md R74: outside sequential mode a second data byte of a READ or WRITE frame has no meaning: refused. -/
def Obligations.SecondByteNeedsSequentialMode : Prop :=
  ∀ (s : State) (ds : List Byte), s.busy = false → s.devPresent = true → ¬SequentialMode s → 2 ≤ ds.length →
    (∀ a, s.cfg.variant = .small → exec (.readS a ds) s = .refused .deviceNoMeaning ∧
      exec (.writeS a ds) s = .refused .deviceNoMeaning) ∧
    (∀ a, s.cfg.variant = .large → exec (.readL a ds) s = .refused .deviceNoMeaning ∧
      exec (.writeL a ds) s = .refused .deviceNoMeaning)

/-- 20_memory.md R75: `WRITE_MODE_REGISTER` writes the mode byte, `READ_MODE_REGISTER` answers it in every data exchange;
the bytes of the device and every register and the wire trace of the block stay. The pointer is one of the device's addresses,
any of them (R61, log 39). -/
def Obligations.ModeRegisterCommands : Prop :=
  ∀ s : State, s.busy = false → s.devPresent = true →
    (∃ t, exec .writeModeRegister s = .next t ∧ t.dev.mode = 0x40 ∧ t = portFrame s t ∧
      t.dev.mem = s.dev.mem ∧ t.dev.ptr < s.cfg.variant.capacity ∧ t.dev.dpos = .idle) ∧
    ∀ ds, ∃ t, exec (.readModeRegister ds) s = .next t ∧
      t.reply.drop 1 = List.replicate ds.length s.dev.mode ∧ t = portFrame s t ∧
      DeviceKept s t ∧ t.dev.ptr < s.cfg.variant.capacity ∧ t.dev.dpos = .idle

/-- 20_memory.md R72: a frame whose first byte is no command is ignored to its end: a step that takes one changes neither
bytes nor mode of the device, nor any register of the block. The pointer is one of the device's addresses, any of them (R61,
log 39). -/
def Obligations.UnknownCommandsAreIgnored : Prop :=
  ∀ (s : State) (c : Byte) (ds : List Byte) (rest : List Input), s.busy = false → s.devPresent = true →
    s.inputs = .frame (c :: ds) :: rest → c ∉ [0x01, 0x02, 0x03, 0x05] →
    ∃ t, step s = .next t ∧ t = { portFrame s t with inputs := rest } ∧
      DeviceKept s t ∧ t.dev.ptr < s.cfg.variant.capacity ∧ t.dev.dpos = .idle

/-- 20_memory.md R65: with no device on the bus a wire command changes nothing but the answer, which is any values. -/
def Obligations.WireCommandsWithoutADevice : Prop :=
  ∀ (i : Instr) (s : State), isWireCommand i = true → s.busy = false → s.devPresent = false →
    ∃ t, exec i s = .next t ∧ t = portFrame s t ∧ t.dev = s.dev

/-! ### The outside world -/

/-- 10_state.md R37, 70_reset_and_hazards.md R242 step 3: the host initialises the bus itself: `bus_inited <- 1`, the event
`INIT`, nothing else; a second time is refused (D19). -/
def Obligations.HostInitialisesTheBus : Prop :=
  ∀ (s : State) (rest : List Input), s.busy = false → s.inputs = .busInit :: rest →
    (s.busInited = false →
      step s = .next { s with busInited := true, wire := .init :: s.wire, inputs := rest, done := false }) ∧
    (s.busInited = true → step s = .refused .busAlreadyInitialised)

/-- 70_reset_and_hazards.md R240, R241: a reset of the block leaves the device and the configuration as they are, and the block
unconstructed and uninitialised. The model's choice (log 26): such a reset is an input, and the bus stays as it was (`bus_inited`,
of which 10_state.md R40 says "0 unless the host initialised the bus"), and so do the trace and the other inputs. -/
def Obligations.BlockResetKeepsTheDevice : Prop :=
  ∀ (s : State) (rest : List Input), s.busy = false → s.inputs = .blockReset :: rest →
    ∃ t, step s = .next t ∧ t.csCfg = false ∧ t.inited = false ∧ t.busy = false ∧ t.phase = .idle ∧
      t.dev = s.dev ∧ t.busInited = s.busInited ∧ t.cfg = s.cfg ∧ t.wire = s.wire ∧ t.inputs = rest

/-- 10_state.md R31, R39: with no request nothing happens: nothing changes but the strobe `done`, which is over. A step that finds
no input is the model's own (log 2), and so is how long `done` lasts (log 37). -/
def Obligations.WaitingChangesNothing : Prop :=
  ∀ s : State, s.busy = false → s.inputs = [] → step s = .next { s with done := false }
end

