-- ==== Sys2Proof/Laws/Crc.lean ====
section
/-! SUPPORT. The step of the fold unit, over any polynomial (44_checksum.md R183). -/

namespace Sys2Proof.Machine

/-- One step is linear over exclusive-or. -/
theorem crcBit_xor (poly x y : Crc) : crcBit poly (x ^^^ y) = crcBit poly x ^^^ crcBit poly y := by
  unfold crcBit
  rw [BitVec.getLsbD_xor]
  cases x.getLsbD 0 <;> cases y.getLsbD 0 <;>
    simp only [BitVec.ushiftRight_xor_distrib, Bool.xor_false, Bool.false_xor, Bool.xor_self, Bool.false_eq_true, if_true,
      if_false] <;>
    ext i hi <;> simp only [BitVec.getElem_xor] <;> cases poly[i] <;> simp

theorem crcBits_xor (poly : Crc) (k : Nat) : ∀ x y : Crc,
    crcBits poly k (x ^^^ y) = crcBits poly k x ^^^ crcBits poly k y := by
  induction k with
  | zero => intros; rfl
  | succ k ih => intro x y; rw [crcBits, crcBit_xor, ih]; rfl

theorem crcBits_zero (poly : Crc) (k : Nat) : crcBits poly k 0 = 0 := by
  induction k with
  | zero => rfl
  | succ k ih => exact ih

/-- Bits above the low ones are only shifted: `k` steps of a value whose low `k` bits are zero. -/
theorem crcBits_shift (poly : Crc) (k : Nat) : ∀ x : Crc, (∀ i < k, x.getLsbD i = false) →
    crcBits poly k x = x >>> k := by
  induction k with
  | zero => intro x _; simp [crcBits]
  | succ k ih =>
    intro x h
    have h0 : crcBit poly x = x >>> 1 := by rw [crcBit, h 0 (by omega)]; rfl
    rw [crcBits, h0, ih]
    · rw [← BitVec.shiftRight_add, Nat.add_comm]
    · intro i hi
      rw [BitVec.getLsbD_ushiftRight]
      exact h _ (by omega)

end Sys2Proof.Machine
end

