-- ==== Sys2Proof/Laws/Memory.lean ====
section
/-! SUPPORT. The laws of the byte array: a read after a write, and that a write keeps the canonical form. -/

namespace Sys2Proof.Machine

/-- A byte reads as what was written there last. -/
theorem Memory.peek_poke_same (m : List Host.Cell) (a : Nat) (v : BitVec 8) :
    Memory.peek (Memory.poke m a v) a = some v := by
  induction m with
  | nil => simp [Memory.poke, Memory.peek]
  | cons c rest ih =>
    obtain ⟨b, w⟩ := c
    by_cases h1 : a < b
    · simp [Memory.poke, Memory.peek, h1]
    · by_cases h2 : a = b
      · simp [Memory.poke, Memory.peek, h2]
      · simp [Memory.poke, Memory.peek, h1, h2, ih]

/-- A write leaves every other byte alone. -/
theorem Memory.peek_poke_other (m : List Host.Cell) {a x : Nat} (v : BitVec 8) (h : x ≠ a) :
    Memory.peek (Memory.poke m a v) x = Memory.peek m x := by
  induction m with
  | nil => simp [Memory.poke, Memory.peek, h]
  | cons c rest ih =>
    obtain ⟨b, w⟩ := c
    by_cases h1 : a < b
    · simp [Memory.poke, Memory.peek, h1, h]
    · by_cases h2 : a = b
      · subst h2
        simp [Memory.poke, Memory.peek, h]
      · simp [Memory.poke, Memory.peek, h1, h2, ih]

/-- Which addresses are listed after a write. -/
theorem Memory.mem_poke {m : List Host.Cell} {a : Nat} {v : BitVec 8} {c : Host.Cell}
    (h : c ∈ Memory.poke m a v) : c.1 = a ∨ c ∈ m := by
  induction m with
  | nil => simp [Memory.poke] at h; simp [h]
  | cons d rest ih =>
    obtain ⟨b, w⟩ := d
    by_cases h1 : a < b
    · simp [Memory.poke, h1] at h
      rcases h with rfl | rfl | h <;> simp_all
    · by_cases h2 : a = b
      · simp [Memory.poke, h2] at h
        rcases h with rfl | h <;> simp_all
      · simp [Memory.poke, h1, h2] at h
        rcases h with rfl | h
        · simp
        · rcases ih h with h | h <;> simp [h]

/-- A write keeps the canonical form. -/
theorem Memory.wf_poke {m : List Host.Cell} (h : Memory.wf m) (a : Nat) (v : BitVec 8) :
    Memory.wf (Memory.poke m a v) := by
  induction m with
  | nil => simp [Memory.wf, Memory.poke]
  | cons c rest ih =>
    obtain ⟨b, w⟩ := c
    simp only [Memory.wf, List.map_cons, List.pairwise_cons] at h ih ⊢
    by_cases h1 : a < b
    · simp only [Memory.poke, h1, if_true, List.map_cons, List.pairwise_cons]
      refine ⟨?_, h⟩
      intro x hx
      rcases List.mem_cons.mp hx with rfl | hx
      · exact h1
      · exact Nat.lt_trans h1 (h.1 x hx)
    · by_cases h2 : a = b
      · subst h2
        simpa [Memory.poke] using h
      · simp only [Memory.poke, h1, h2, if_false, List.map_cons, List.pairwise_cons]
        refine ⟨?_, ih h.2⟩
        intro x hx
        obtain ⟨d, hd, rfl⟩ := List.mem_map.mp hx
        rcases Memory.mem_poke hd with hd | hd
        · omega
        · exact h.1 _ (List.mem_map_of_mem hd)

/-- A write at an address of the device keeps the array inside the device. -/
theorem Memory.within_poke {cap : Nat} {m : List Host.Cell} (h : Memory.within cap m) {a : Nat} (ha : a < cap)
    (v : BitVec 8) : Memory.within cap (Memory.poke m a v) := by
  intro c hc
  rcases Memory.mem_poke hc with hc | hc
  · omega
  · exact h c hc

end Sys2Proof.Machine
end

