-- ==== Sys2Proof/Laws/Operands.lean ====
section
/-! SUPPORT. Masking and address assembly as arithmetic on numbers (20_memory.md R52, 30_encoding.md R85, R86). -/

namespace Sys2Proof.Machine

theorem capacity_pos (v : Variant) : 0 < v.capacity := by cases v <;> decide

theorem addressOf_lt (v : Variant) (a : Word) : addressOf v a < v.capacity := Nat.mod_lt _ (capacity_pos v)

/-- The masking law: `a & MAXADDR = a mod CAPACITY`. -/
theorem maskAddr_toNat (v : Variant) (a : Word) : (maskAddr v a).toNat = addressOf v a := by
  cases v
  · exact (BitVec.toNat_and _ _).trans (Nat.and_two_pow_sub_one_eq_mod a.toNat 16)
  · exact (BitVec.toNat_and _ _).trans (Nat.and_two_pow_sub_one_eq_mod a.toNat 17)

theorem byteK_eq (k : Nat) (w : Word) : byteK k w = BitVec.ofNat 8 (w.toNat / 2 ^ (8 * k)) := by
  apply BitVec.eq_of_toNat_eq
  simp [byteK, Nat.shiftRight_eq_div_pow]

theorem abuf_ofWord (a : Word) (old : AddrBuf) :
    AddrBuf.ofWord (maskAddr .large a) = abufAfter .large old (addressOf .large a) := by
  simp [AddrBuf.ofWord, abufAfter, byteK_eq, maskAddr_toNat]

/-- Shifting in one more byte. -/
theorem latch_toNat (d : Device) (b : Byte) :
    (d.latch b).toNat = (d.alatch.toNat % 65536) * 256 + b.toNat := by
  have h : (d.latch b) = d.alatch.extractLsb' 0 16 ++ b := rfl
  rw [h, BitVec.toNat_append, ← Nat.shiftLeft_add_eq_or_of_lt b.isLt, Nat.shiftLeft_eq]
  simp

/-- The three bytes of a Large header make up the masked address again. -/
theorem assemble_large {m : Nat} (h : m < 131072) :
    ((m / 65536 % 256 * 256 + m / 256 % 256) % 65536 * 256 + m % 256) % 131072 = m := by omega

/-- The two bytes of a Small header make up the masked address again. -/
theorem assemble_small {m : Nat} (h : m < 65536) : (m / 256 % 256 % 65536 * 256 + m % 256) % 65536 = m := by omega

end Sys2Proof.Machine
end

