-- ==== Sys2Proof/Laws/Device.lean ====
section
/-! SUPPORT. The laws of the reference device: its bytes, what one exchange can change, and runs of data bytes. -/

namespace Sys2Proof.Machine

/-! ### Bytes -/

theorem byteAt_congr {d e : Device} (h : d.mem = e.mem) (x : Nat) : d.byteAt x = e.byteAt x := by
  simp [Device.byteAt, h]

theorem byteAt_poke_same {d e : Device} {a : Nat} {v : Byte} (h : d.mem = Memory.poke e.mem a v) :
    d.byteAt a = v := by
  simp [Device.byteAt, h, Memory.peek_poke_same]

theorem byteAt_poke_other {d e : Device} {a x : Nat} {v : Byte} (h : d.mem = Memory.poke e.mem a v) (hx : x ≠ a) :
    d.byteAt x = e.byteAt x := by
  simp [Device.byteAt, h, Memory.peek_poke_other _ _ hx]

/-! ### The end of a frame -/

@[simp] theorem deselect_mem (v : Variant) (k : Nat) (d : Device) : (d.deselect v k).mem = d.mem := rfl
@[simp] theorem deselect_mode (v : Variant) (k : Nat) (d : Device) : (d.deselect v k).mode = d.mode := rfl
@[simp] theorem deselect_dpos (v : Variant) (k : Nat) (d : Device) : (d.deselect v k).dpos = .idle := rfl

/-- After a frame that sent its address the pointer is where the frame left it. -/
theorem deselect_ptr_kept {v : Variant} {k : Nat} {d : Device} (h : d.dpos = .rd ∨ d.dpos = .wr) :
    (d.deselect v k).ptr = d.ptr := by
  rcases h with h | h <;> simp [Device.deselect, Device.hasAddress, h]

/-- After any frame the pointer is an address of the device, if it was one before. -/
theorem deselect_ptr_lt {v : Variant} {k : Nat} {d : Device} (h : d.ptr < v.capacity) :
    (d.deselect v k).ptr < v.capacity := by
  unfold Device.deselect
  split
  · exact h
  · exact Nat.mod_lt _ (by cases v <;> decide)

/-- After a frame that sent no address it is one whatever it was. -/
theorem deselect_ptr_free {v : Variant} {k : Nat} {d : Device} (h : d.hasAddress = false) :
    (d.deselect v k).ptr < v.capacity := by
  simp only [Device.deselect, h]
  exact Nat.mod_lt _ (by cases v <;> decide)

/-! ### One exchange -/

/-- When an exchange has a meaning. -/
theorem exchange_isSome {v : Variant} {f : Byte} {d : Device} {tx : Byte}
    (hd : d.dpos = .rd ∨ d.dpos = .wr → d.mayMove = true) (hm : d.dpos = .mrW → d.moved = false) :
    ∃ e rx, d.exchange v f tx = some (e, rx) := by
  unfold Device.exchange
  split <;> simp_all

/-- A command byte changes neither contents nor pointer nor mode, and it ends the idle position. -/
theorem command_effect (v : Variant) (d : Device) (c : Byte) :
    (d.command v c).mem = d.mem ∧ (d.command v c).ptr = d.ptr ∧ (d.command v c).mode = d.mode ∧
      (d.command v c).dpos ≠ .idle := by
  cases v <;> simp only [Device.command] <;> (repeat' split) <;> simp

/-- Everything an exchange can do to the device's contents and pointer. -/
theorem exchange_effect {v : Variant} {f : Byte} {d e : Device} {tx rx : Byte}
    (h : d.exchange v f tx = some (e, rx)) :
    (e.mem = d.mem ∨ d.dpos = .wr ∧ e.mem = Memory.poke d.mem d.ptr tx) ∧
    (e.ptr = d.ptr ∨ e.ptr < v.capacity) ∧
    (e.mode = d.mode ∨ d.dpos = .mrW ∧ e.mode = tx) ∧
    (d.dpos ≠ .idle → e.dpos ≠ .idle) := by
  have hc := capacity_pos v
  unfold Device.exchange at h
  split at h
  case h_2 hp =>
    simp only [Option.some.injEq, Prod.mk.injEq] at h
    obtain ⟨rfl, rfl⟩ := h
    obtain ⟨h1, h2, h3, h4⟩ := command_effect v d tx
    exact ⟨.inl h1, .inl h2, .inl h3, fun _ => h4⟩
  case h_5 hp =>
    simp only [Option.some.injEq, Prod.mk.injEq] at h
    obtain ⟨rfl, rfl⟩ := h
    refine ⟨.inl rfl, .inr (Nat.mod_lt _ hc), .inl rfl, fun _ => ?_⟩
    cases d.isWrite <;> simp
  case h_6 hp =>
    split at h
    · simp only [Option.some.injEq, Prod.mk.injEq] at h
      obtain ⟨rfl, rfl⟩ := h
      exact ⟨.inl rfl, .inr (Nat.mod_lt _ hc), .inl rfl, fun h => h⟩
    · simp at h
  case h_7 hp =>
    split at h
    · simp only [Option.some.injEq, Prod.mk.injEq] at h
      obtain ⟨rfl, rfl⟩ := h
      exact ⟨.inr ⟨hp, rfl⟩, .inr (Nat.mod_lt _ hc), .inl rfl, fun h => h⟩
    · simp at h
  case h_8 hp =>
    split at h
    · simp at h
    · simp only [Option.some.injEq, Prod.mk.injEq] at h
      obtain ⟨rfl, rfl⟩ := h
      exact ⟨.inl rfl, .inl rfl, .inr ⟨hp, rfl⟩, fun h => h⟩
  all_goals
    simp only [Option.some.injEq, Prod.mk.injEq] at h
    obtain ⟨rfl, rfl⟩ := h
    simp_all

/-! ### Runs of data bytes -/

/-- The device after data bytes written from its pointer on (20_memory.md R73). -/
def Device.writeMany (v : Variant) : Device → List Byte → Device
  | d, [] => d
  | d, b :: rest =>
    Device.writeMany v { d with mem := Memory.poke d.mem d.ptr b, ptr := d.nextPtr v, moved := true } rest

/-- The device after `k` data bytes read from its pointer on (20_memory.md R73). -/
def Device.readMany (v : Variant) (d : Device) : Nat → Device
  | 0 => d
  | k + 1 => Device.readMany v { d with ptr := d.nextPtr v, moved := true } k

theorem succ_mod {p i c : Nat} : ((p + 1) % c + i) % c = (p + (i + 1)) % c := by
  rw [Nat.mod_add_mod]
  congr 1
  omega

/-- Bytes past every address written stay. -/
theorem writeMany_other (v : Variant) (bytes : List Byte) (d : Device) (x : Nat) (hp : d.ptr < v.capacity)
    (h : ∀ i < bytes.length, x ≠ (d.ptr + i) % v.capacity) : (d.writeMany v bytes).byteAt x = d.byteAt x := by
  induction bytes generalizing d with
  | nil => rfl
  | cons b rest ih =>
    rw [Device.writeMany, ih _ (Nat.mod_lt _ (capacity_pos v))]
    · refine byteAt_poke_other rfl ?_
      have h0 := h 0 (by simp)
      rwa [Nat.add_zero, Nat.mod_eq_of_lt hp] at h0
    · intro i hi
      have := h (i + 1) (by simpa using hi)
      simpa only [Device.nextPtr, succ_mod] using this

/-- The last byte written at an address is what it holds. -/
theorem writeMany_get (v : Variant) (bytes : List Byte) (d : Device) (i : Nat) (hi : i < bytes.length)
    (hp : d.ptr < v.capacity)
    (h : ∀ j < bytes.length, i < j → (d.ptr + j) % v.capacity ≠ (d.ptr + i) % v.capacity) :
    (d.writeMany v bytes).byteAt ((d.ptr + i) % v.capacity) = bytes[i] := by
  induction bytes generalizing d i with
  | nil => simp at hi
  | cons b rest ih =>
    rw [Device.writeMany]
    cases i with
    | zero =>
      rw [writeMany_other v rest _ _ (Nat.mod_lt _ (capacity_pos v))]
      · rw [Nat.add_zero, Nat.mod_eq_of_lt hp]
        exact byteAt_poke_same rfl
      · intro j hj
        have := h (j + 1) (by simpa using hj) (by omega)
        simpa only [Device.nextPtr, succ_mod, Nat.add_zero] using this.symm
    | succ i =>
      have hi' : i < rest.length := by simpa using hi
      have := ih { d with mem := Memory.poke d.mem d.ptr b, ptr := d.nextPtr v, moved := true } i hi'
        (Nat.mod_lt _ (capacity_pos v))
        (by
          intro j hj hij
          have := h (j + 1) (by simpa using hj) (by omega)
          simpa only [Device.nextPtr, succ_mod] using this)
      simpa only [Device.nextPtr, succ_mod, List.getElem_cons_succ] using this

theorem writeMany_fields (v : Variant) (bytes : List Byte) (d : Device) :
    (d.writeMany v bytes).mode = d.mode ∧ (d.writeMany v bytes).dpos = d.dpos := by
  induction bytes generalizing d with
  | nil => exact ⟨rfl, rfl⟩
  | cons b rest ih => exact ih _

theorem readMany_fields (v : Variant) (k : Nat) (d : Device) :
    (d.readMany v k).mem = d.mem ∧ (d.readMany v k).mode = d.mode ∧ (d.readMany v k).dpos = d.dpos := by
  induction k generalizing d with
  | zero => exact ⟨rfl, rfl, rfl⟩
  | succ k ih => exact ih _

end Sys2Proof.Machine
end

