-- ==== Sys2Proof/Laws/State.lean ====
section
/-! SUPPORT. One lemma per field and per named update of the state, so that no proof unfolds a record update. -/

namespace Sys2Proof.Machine

/-! ### setPhase -/

@[simp] theorem setPhase_cfg (p : Phase) (s : State) : (setPhase p s).cfg = s.cfg := rfl
@[simp] theorem setPhase_csCfg (p : Phase) (s : State) : (setPhase p s).csCfg = s.csCfg := rfl
@[simp] theorem setPhase_csN (p : Phase) (s : State) : (setPhase p s).csN = s.csN := rfl
@[simp] theorem setPhase_inited (p : Phase) (s : State) : (setPhase p s).inited = s.inited := rfl
@[simp] theorem setPhase_addr (p : Phase) (s : State) : (setPhase p s).addr = s.addr := rfl
@[simp] theorem setPhase_len (p : Phase) (s : State) : (setPhase p s).len = s.len := rfl
@[simp] theorem setPhase_val (p : Phase) (s : State) : (setPhase p s).val = s.val := rfl
@[simp] theorem setPhase_n (p : Phase) (s : State) : (setPhase p s).n = s.n := rfl
@[simp] theorem setPhase_res (p : Phase) (s : State) : (setPhase p s).res = s.res := rfl
@[simp] theorem setPhase_acc (p : Phase) (s : State) : (setPhase p s).acc = s.acc := rfl
@[simp] theorem setPhase_abuf (p : Phase) (s : State) : (setPhase p s).abuf = s.abuf := rfl
@[simp] theorem setPhase_dbuf (p : Phase) (s : State) : (setPhase p s).dbuf = s.dbuf := rfl
@[simp] theorem setPhase_cur (p : Phase) (s : State) : (setPhase p s).cur = s.cur := rfl
@[simp] theorem setPhase_cnt (p : Phase) (s : State) : (setPhase p s).cnt = s.cnt := rfl
@[simp] theorem setPhase_phase (p : Phase) (s : State) : (setPhase p s).phase = p := rfl
@[simp] theorem setPhase_busy (p : Phase) (s : State) : (setPhase p s).busy = s.busy := rfl
@[simp] theorem setPhase_done (p : Phase) (s : State) : (setPhase p s).done = s.done := rfl
@[simp] theorem setPhase_rbuf (p : Phase) (s : State) : (setPhase p s).rbuf = s.rbuf := rfl
@[simp] theorem setPhase_busInited (p : Phase) (s : State) : (setPhase p s).busInited = s.busInited := rfl
@[simp] theorem setPhase_dev (p : Phase) (s : State) : (setPhase p s).dev = s.dev := rfl
@[simp] theorem setPhase_devPresent (p : Phase) (s : State) : (setPhase p s).devPresent = s.devPresent := rfl
@[simp] theorem setPhase_fates (p : Phase) (s : State) : (setPhase p s).fates = s.fates := rfl
@[simp] theorem setPhase_draws (p : Phase) (s : State) : (setPhase p s).draws = s.draws := rfl
@[simp] theorem setPhase_wire (p : Phase) (s : State) : (setPhase p s).wire = s.wire := rfl
@[simp] theorem setPhase_inputs (p : Phase) (s : State) : (setPhase p s).inputs = s.inputs := rfl
@[simp] theorem setPhase_reply (p : Phase) (s : State) : (setPhase p s).reply = s.reply := rfl

/-! ### emit -/

@[simp] theorem emit_cfg (e : WireEvent) (s : State) : (emit e s).cfg = s.cfg := rfl
@[simp] theorem emit_csCfg (e : WireEvent) (s : State) : (emit e s).csCfg = s.csCfg := rfl
@[simp] theorem emit_csN (e : WireEvent) (s : State) : (emit e s).csN = s.csN := rfl
@[simp] theorem emit_inited (e : WireEvent) (s : State) : (emit e s).inited = s.inited := rfl
@[simp] theorem emit_addr (e : WireEvent) (s : State) : (emit e s).addr = s.addr := rfl
@[simp] theorem emit_len (e : WireEvent) (s : State) : (emit e s).len = s.len := rfl
@[simp] theorem emit_val (e : WireEvent) (s : State) : (emit e s).val = s.val := rfl
@[simp] theorem emit_n (e : WireEvent) (s : State) : (emit e s).n = s.n := rfl
@[simp] theorem emit_res (e : WireEvent) (s : State) : (emit e s).res = s.res := rfl
@[simp] theorem emit_acc (e : WireEvent) (s : State) : (emit e s).acc = s.acc := rfl
@[simp] theorem emit_abuf (e : WireEvent) (s : State) : (emit e s).abuf = s.abuf := rfl
@[simp] theorem emit_dbuf (e : WireEvent) (s : State) : (emit e s).dbuf = s.dbuf := rfl
@[simp] theorem emit_cur (e : WireEvent) (s : State) : (emit e s).cur = s.cur := rfl
@[simp] theorem emit_cnt (e : WireEvent) (s : State) : (emit e s).cnt = s.cnt := rfl
@[simp] theorem emit_phase (e : WireEvent) (s : State) : (emit e s).phase = s.phase := rfl
@[simp] theorem emit_busy (e : WireEvent) (s : State) : (emit e s).busy = s.busy := rfl
@[simp] theorem emit_done (e : WireEvent) (s : State) : (emit e s).done = s.done := rfl
@[simp] theorem emit_rbuf (e : WireEvent) (s : State) : (emit e s).rbuf = s.rbuf := rfl
@[simp] theorem emit_busInited (e : WireEvent) (s : State) : (emit e s).busInited = s.busInited := rfl
@[simp] theorem emit_dev (e : WireEvent) (s : State) : (emit e s).dev = s.dev := rfl
@[simp] theorem emit_devPresent (e : WireEvent) (s : State) : (emit e s).devPresent = s.devPresent := rfl
@[simp] theorem emit_fates (e : WireEvent) (s : State) : (emit e s).fates = s.fates := rfl
@[simp] theorem emit_draws (e : WireEvent) (s : State) : (emit e s).draws = s.draws := rfl
@[simp] theorem emit_wire (e : WireEvent) (s : State) : (emit e s).wire = e :: s.wire := rfl
@[simp] theorem emit_inputs (e : WireEvent) (s : State) : (emit e s).inputs = s.inputs := rfl
@[simp] theorem emit_reply (e : WireEvent) (s : State) : (emit e s).reply = s.reply := rfl

/-! ### onDevice -/

@[simp] theorem onDevice_cfg (f : Device → Device) (s : State) : (onDevice f s).cfg = s.cfg := rfl
@[simp] theorem onDevice_csCfg (f : Device → Device) (s : State) : (onDevice f s).csCfg = s.csCfg := rfl
@[simp] theorem onDevice_csN (f : Device → Device) (s : State) : (onDevice f s).csN = s.csN := rfl
@[simp] theorem onDevice_inited (f : Device → Device) (s : State) : (onDevice f s).inited = s.inited := rfl
@[simp] theorem onDevice_addr (f : Device → Device) (s : State) : (onDevice f s).addr = s.addr := rfl
@[simp] theorem onDevice_len (f : Device → Device) (s : State) : (onDevice f s).len = s.len := rfl
@[simp] theorem onDevice_val (f : Device → Device) (s : State) : (onDevice f s).val = s.val := rfl
@[simp] theorem onDevice_n (f : Device → Device) (s : State) : (onDevice f s).n = s.n := rfl
@[simp] theorem onDevice_res (f : Device → Device) (s : State) : (onDevice f s).res = s.res := rfl
@[simp] theorem onDevice_acc (f : Device → Device) (s : State) : (onDevice f s).acc = s.acc := rfl
@[simp] theorem onDevice_abuf (f : Device → Device) (s : State) : (onDevice f s).abuf = s.abuf := rfl
@[simp] theorem onDevice_dbuf (f : Device → Device) (s : State) : (onDevice f s).dbuf = s.dbuf := rfl
@[simp] theorem onDevice_cur (f : Device → Device) (s : State) : (onDevice f s).cur = s.cur := rfl
@[simp] theorem onDevice_cnt (f : Device → Device) (s : State) : (onDevice f s).cnt = s.cnt := rfl
@[simp] theorem onDevice_phase (f : Device → Device) (s : State) : (onDevice f s).phase = s.phase := rfl
@[simp] theorem onDevice_busy (f : Device → Device) (s : State) : (onDevice f s).busy = s.busy := rfl
@[simp] theorem onDevice_done (f : Device → Device) (s : State) : (onDevice f s).done = s.done := rfl
@[simp] theorem onDevice_rbuf (f : Device → Device) (s : State) : (onDevice f s).rbuf = s.rbuf := rfl
@[simp] theorem onDevice_busInited (f : Device → Device) (s : State) : (onDevice f s).busInited = s.busInited := rfl
@[simp] theorem onDevice_dev (f : Device → Device) (s : State) : (onDevice f s).dev = if s.devPresent then f s.dev else s.dev := rfl
@[simp] theorem onDevice_devPresent (f : Device → Device) (s : State) : (onDevice f s).devPresent = s.devPresent := rfl
@[simp] theorem onDevice_fates (f : Device → Device) (s : State) : (onDevice f s).fates = s.fates := rfl
@[simp] theorem onDevice_draws (f : Device → Device) (s : State) : (onDevice f s).draws = s.draws := rfl
@[simp] theorem onDevice_wire (f : Device → Device) (s : State) : (onDevice f s).wire = s.wire := rfl
@[simp] theorem onDevice_inputs (f : Device → Device) (s : State) : (onDevice f s).inputs = s.inputs := rfl
@[simp] theorem onDevice_reply (f : Device → Device) (s : State) : (onDevice f s).reply = s.reply := rfl

/-! ### csAssert -/

@[simp] theorem csAssert_cfg (s : State) : (csAssert s).cfg = s.cfg := rfl
@[simp] theorem csAssert_csCfg (s : State) : (csAssert s).csCfg = s.csCfg := rfl
@[simp] theorem csAssert_csN (s : State) : (csAssert s).csN = false := rfl
@[simp] theorem csAssert_inited (s : State) : (csAssert s).inited = s.inited := rfl
@[simp] theorem csAssert_addr (s : State) : (csAssert s).addr = s.addr := rfl
@[simp] theorem csAssert_len (s : State) : (csAssert s).len = s.len := rfl
@[simp] theorem csAssert_val (s : State) : (csAssert s).val = s.val := rfl
@[simp] theorem csAssert_n (s : State) : (csAssert s).n = s.n := rfl
@[simp] theorem csAssert_res (s : State) : (csAssert s).res = s.res := rfl
@[simp] theorem csAssert_acc (s : State) : (csAssert s).acc = s.acc := rfl
@[simp] theorem csAssert_abuf (s : State) : (csAssert s).abuf = s.abuf := rfl
@[simp] theorem csAssert_dbuf (s : State) : (csAssert s).dbuf = s.dbuf := rfl
@[simp] theorem csAssert_cur (s : State) : (csAssert s).cur = s.cur := rfl
@[simp] theorem csAssert_cnt (s : State) : (csAssert s).cnt = s.cnt := rfl
@[simp] theorem csAssert_phase (s : State) : (csAssert s).phase = s.phase := rfl
@[simp] theorem csAssert_busy (s : State) : (csAssert s).busy = s.busy := rfl
@[simp] theorem csAssert_done (s : State) : (csAssert s).done = s.done := rfl
@[simp] theorem csAssert_rbuf (s : State) : (csAssert s).rbuf = s.rbuf := rfl
@[simp] theorem csAssert_busInited (s : State) : (csAssert s).busInited = s.busInited := rfl
@[simp] theorem csAssert_dev (s : State) : (csAssert s).dev = if s.devPresent then s.dev.select else s.dev := rfl
@[simp] theorem csAssert_devPresent (s : State) : (csAssert s).devPresent = s.devPresent := rfl
@[simp] theorem csAssert_fates (s : State) : (csAssert s).fates = s.fates := rfl
@[simp] theorem csAssert_draws (s : State) : (csAssert s).draws = s.draws := rfl
@[simp] theorem csAssert_wire (s : State) : (csAssert s).wire = .csLow :: s.wire := rfl
@[simp] theorem csAssert_inputs (s : State) : (csAssert s).inputs = s.inputs := rfl
@[simp] theorem csAssert_reply (s : State) : (csAssert s).reply = s.reply := rfl

/-! ### csDeassert -/

@[simp] theorem csDeassert_cfg (s : State) : (csDeassert s).cfg = s.cfg := rfl
@[simp] theorem csDeassert_csCfg (s : State) : (csDeassert s).csCfg = s.csCfg := rfl
@[simp] theorem csDeassert_csN (s : State) : (csDeassert s).csN = true := rfl
@[simp] theorem csDeassert_inited (s : State) : (csDeassert s).inited = s.inited := rfl
@[simp] theorem csDeassert_addr (s : State) : (csDeassert s).addr = s.addr := rfl
@[simp] theorem csDeassert_len (s : State) : (csDeassert s).len = s.len := rfl
@[simp] theorem csDeassert_val (s : State) : (csDeassert s).val = s.val := rfl
@[simp] theorem csDeassert_n (s : State) : (csDeassert s).n = s.n := rfl
@[simp] theorem csDeassert_res (s : State) : (csDeassert s).res = s.res := rfl
@[simp] theorem csDeassert_acc (s : State) : (csDeassert s).acc = s.acc := rfl
@[simp] theorem csDeassert_abuf (s : State) : (csDeassert s).abuf = s.abuf := rfl
@[simp] theorem csDeassert_dbuf (s : State) : (csDeassert s).dbuf = s.dbuf := rfl
@[simp] theorem csDeassert_cur (s : State) : (csDeassert s).cur = s.cur := rfl
@[simp] theorem csDeassert_cnt (s : State) : (csDeassert s).cnt = s.cnt := rfl
@[simp] theorem csDeassert_phase (s : State) : (csDeassert s).phase = s.phase := rfl
@[simp] theorem csDeassert_busy (s : State) : (csDeassert s).busy = s.busy := rfl
@[simp] theorem csDeassert_done (s : State) : (csDeassert s).done = s.done := rfl
@[simp] theorem csDeassert_rbuf (s : State) : (csDeassert s).rbuf = s.rbuf := rfl
@[simp] theorem csDeassert_busInited (s : State) : (csDeassert s).busInited = s.busInited := rfl
@[simp] theorem csDeassert_dev (s : State) : (csDeassert s).dev =
    if s.devPresent then s.dev.deselect s.cfg.variant (Config.freePointer s.draws) else s.dev := rfl
@[simp] theorem csDeassert_devPresent (s : State) : (csDeassert s).devPresent = s.devPresent := rfl
@[simp] theorem csDeassert_fates (s : State) : (csDeassert s).fates = s.fates := rfl
@[simp] theorem csDeassert_draws (s : State) : (csDeassert s).draws = s.draws + 1 := rfl
@[simp] theorem csDeassert_wire (s : State) : (csDeassert s).wire = .csHigh :: s.wire := rfl
@[simp] theorem csDeassert_inputs (s : State) : (csDeassert s).inputs = s.inputs := rfl
@[simp] theorem csDeassert_reply (s : State) : (csDeassert s).reply = s.reply := rfl

/-! ### openBracket -/

@[simp] theorem openBracket_cfg (s : State) : (openBracket s).cfg = s.cfg := rfl
@[simp] theorem openBracket_csCfg (s : State) : (openBracket s).csCfg = s.csCfg := rfl
@[simp] theorem openBracket_csN (s : State) : (openBracket s).csN = false := rfl
@[simp] theorem openBracket_inited (s : State) : (openBracket s).inited = s.inited := rfl
@[simp] theorem openBracket_addr (s : State) : (openBracket s).addr = s.addr := rfl
@[simp] theorem openBracket_len (s : State) : (openBracket s).len = s.len := rfl
@[simp] theorem openBracket_val (s : State) : (openBracket s).val = s.val := rfl
@[simp] theorem openBracket_n (s : State) : (openBracket s).n = s.n := rfl
@[simp] theorem openBracket_res (s : State) : (openBracket s).res = s.res := rfl
@[simp] theorem openBracket_acc (s : State) : (openBracket s).acc = s.acc := rfl
@[simp] theorem openBracket_abuf (s : State) : (openBracket s).abuf = s.abuf := rfl
@[simp] theorem openBracket_dbuf (s : State) : (openBracket s).dbuf = s.dbuf := rfl
@[simp] theorem openBracket_cur (s : State) : (openBracket s).cur = s.cur := rfl
@[simp] theorem openBracket_cnt (s : State) : (openBracket s).cnt = s.cnt := rfl
@[simp] theorem openBracket_phase (s : State) : (openBracket s).phase = .cmd := rfl
@[simp] theorem openBracket_busy (s : State) : (openBracket s).busy = s.busy := rfl
@[simp] theorem openBracket_done (s : State) : (openBracket s).done = s.done := rfl
@[simp] theorem openBracket_rbuf (s : State) : (openBracket s).rbuf = s.rbuf := rfl
@[simp] theorem openBracket_busInited (s : State) : (openBracket s).busInited = s.busInited := rfl
@[simp] theorem openBracket_dev (s : State) : (openBracket s).dev = if s.devPresent then s.dev.select else s.dev := rfl
@[simp] theorem openBracket_devPresent (s : State) : (openBracket s).devPresent = s.devPresent := rfl
@[simp] theorem openBracket_fates (s : State) : (openBracket s).fates = s.fates := rfl
@[simp] theorem openBracket_draws (s : State) : (openBracket s).draws = s.draws := rfl
@[simp] theorem openBracket_wire (s : State) : (openBracket s).wire = .csLow :: s.wire := rfl
@[simp] theorem openBracket_inputs (s : State) : (openBracket s).inputs = s.inputs := rfl
@[simp] theorem openBracket_reply (s : State) : (openBracket s).reply = s.reply := rfl

/-! ### closeBracket -/

@[simp] theorem closeBracket_cfg (s : State) : (closeBracket s).cfg = s.cfg := rfl
@[simp] theorem closeBracket_csCfg (s : State) : (closeBracket s).csCfg = s.csCfg := rfl
@[simp] theorem closeBracket_csN (s : State) : (closeBracket s).csN = true := rfl
@[simp] theorem closeBracket_inited (s : State) : (closeBracket s).inited = s.inited := rfl
@[simp] theorem closeBracket_addr (s : State) : (closeBracket s).addr = s.addr := rfl
@[simp] theorem closeBracket_len (s : State) : (closeBracket s).len = s.len := rfl
@[simp] theorem closeBracket_val (s : State) : (closeBracket s).val = s.val := rfl
@[simp] theorem closeBracket_n (s : State) : (closeBracket s).n = s.n := rfl
@[simp] theorem closeBracket_res (s : State) : (closeBracket s).res = s.res := rfl
@[simp] theorem closeBracket_acc (s : State) : (closeBracket s).acc = s.acc := rfl
@[simp] theorem closeBracket_abuf (s : State) : (closeBracket s).abuf = s.abuf := rfl
@[simp] theorem closeBracket_dbuf (s : State) : (closeBracket s).dbuf = s.dbuf := rfl
@[simp] theorem closeBracket_cur (s : State) : (closeBracket s).cur = s.cur := rfl
@[simp] theorem closeBracket_cnt (s : State) : (closeBracket s).cnt = s.cnt := rfl
@[simp] theorem closeBracket_phase (s : State) : (closeBracket s).phase = .idle := rfl
@[simp] theorem closeBracket_busy (s : State) : (closeBracket s).busy = s.busy := rfl
@[simp] theorem closeBracket_done (s : State) : (closeBracket s).done = s.done := rfl
@[simp] theorem closeBracket_rbuf (s : State) : (closeBracket s).rbuf = s.rbuf := rfl
@[simp] theorem closeBracket_busInited (s : State) : (closeBracket s).busInited = s.busInited := rfl
@[simp] theorem closeBracket_dev (s : State) : (closeBracket s).dev =
    if s.devPresent then s.dev.deselect s.cfg.variant (Config.freePointer s.draws) else s.dev := rfl
@[simp] theorem closeBracket_devPresent (s : State) : (closeBracket s).devPresent = s.devPresent := rfl
@[simp] theorem closeBracket_fates (s : State) : (closeBracket s).fates = s.fates := rfl
@[simp] theorem closeBracket_draws (s : State) : (closeBracket s).draws = s.draws + 1 := rfl
@[simp] theorem closeBracket_wire (s : State) : (closeBracket s).wire = .csHigh :: s.wire := rfl
@[simp] theorem closeBracket_inputs (s : State) : (closeBracket s).inputs = s.inputs := rfl
@[simp] theorem closeBracket_reply (s : State) : (closeBracket s).reply = s.reply := rfl

/-! ### accept -/

@[simp] theorem accept_cfg (s : State) : (accept s).cfg = s.cfg := rfl
@[simp] theorem accept_csCfg (s : State) : (accept s).csCfg = s.csCfg := rfl
@[simp] theorem accept_csN (s : State) : (accept s).csN = s.csN := rfl
@[simp] theorem accept_inited (s : State) : (accept s).inited = s.inited := rfl
@[simp] theorem accept_addr (s : State) : (accept s).addr = s.addr := rfl
@[simp] theorem accept_len (s : State) : (accept s).len = s.len := rfl
@[simp] theorem accept_val (s : State) : (accept s).val = s.val := rfl
@[simp] theorem accept_n (s : State) : (accept s).n = s.n := rfl
@[simp] theorem accept_res (s : State) : (accept s).res = s.res := rfl
@[simp] theorem accept_acc (s : State) : (accept s).acc = s.acc := rfl
@[simp] theorem accept_abuf (s : State) : (accept s).abuf = s.abuf := rfl
@[simp] theorem accept_dbuf (s : State) : (accept s).dbuf = s.dbuf := rfl
@[simp] theorem accept_cur (s : State) : (accept s).cur = s.cur := rfl
@[simp] theorem accept_cnt (s : State) : (accept s).cnt = s.cnt := rfl
@[simp] theorem accept_phase (s : State) : (accept s).phase = s.phase := rfl
@[simp] theorem accept_busy (s : State) : (accept s).busy = true := rfl
@[simp] theorem accept_done (s : State) : (accept s).done = false := rfl
@[simp] theorem accept_rbuf (s : State) : (accept s).rbuf = s.rbuf := rfl
@[simp] theorem accept_busInited (s : State) : (accept s).busInited = s.busInited := rfl
@[simp] theorem accept_dev (s : State) : (accept s).dev = s.dev := rfl
@[simp] theorem accept_devPresent (s : State) : (accept s).devPresent = s.devPresent := rfl
@[simp] theorem accept_fates (s : State) : (accept s).fates = s.fates := rfl
@[simp] theorem accept_draws (s : State) : (accept s).draws = s.draws := rfl
@[simp] theorem accept_wire (s : State) : (accept s).wire = s.wire := rfl
@[simp] theorem accept_inputs (s : State) : (accept s).inputs = s.inputs := rfl
@[simp] theorem accept_reply (s : State) : (accept s).reply = s.reply := rfl

/-! ### complete -/

@[simp] theorem complete_cfg (s : State) : (complete s).cfg = s.cfg := rfl
@[simp] theorem complete_csCfg (s : State) : (complete s).csCfg = s.csCfg := rfl
@[simp] theorem complete_csN (s : State) : (complete s).csN = s.csN := rfl
@[simp] theorem complete_inited (s : State) : (complete s).inited = s.inited := rfl
@[simp] theorem complete_addr (s : State) : (complete s).addr = s.addr := rfl
@[simp] theorem complete_len (s : State) : (complete s).len = s.len := rfl
@[simp] theorem complete_val (s : State) : (complete s).val = s.val := rfl
@[simp] theorem complete_n (s : State) : (complete s).n = s.n := rfl
@[simp] theorem complete_res (s : State) : (complete s).res = s.res := rfl
@[simp] theorem complete_acc (s : State) : (complete s).acc = s.acc := rfl
@[simp] theorem complete_abuf (s : State) : (complete s).abuf = s.abuf := rfl
@[simp] theorem complete_dbuf (s : State) : (complete s).dbuf = s.dbuf := rfl
@[simp] theorem complete_cur (s : State) : (complete s).cur = s.cur := rfl
@[simp] theorem complete_cnt (s : State) : (complete s).cnt = s.cnt := rfl
@[simp] theorem complete_phase (s : State) : (complete s).phase = .idle := rfl
@[simp] theorem complete_busy (s : State) : (complete s).busy = false := rfl
@[simp] theorem complete_done (s : State) : (complete s).done = true := rfl
@[simp] theorem complete_rbuf (s : State) : (complete s).rbuf = s.rbuf := rfl
@[simp] theorem complete_busInited (s : State) : (complete s).busInited = s.busInited := rfl
@[simp] theorem complete_dev (s : State) : (complete s).dev = s.dev := rfl
@[simp] theorem complete_devPresent (s : State) : (complete s).devPresent = s.devPresent := rfl
@[simp] theorem complete_fates (s : State) : (complete s).fates = s.fates := rfl
@[simp] theorem complete_draws (s : State) : (complete s).draws = s.draws := rfl
@[simp] theorem complete_wire (s : State) : (complete s).wire = s.wire := rfl
@[simp] theorem complete_inputs (s : State) : (complete s).inputs = s.inputs := rfl
@[simp] theorem complete_reply (s : State) : (complete s).reply = s.reply := rfl

/-! ### markBusInit -/

@[simp] theorem markBusInit_cfg (s : State) : (markBusInit s).cfg = s.cfg := rfl
@[simp] theorem markBusInit_csCfg (s : State) : (markBusInit s).csCfg = s.csCfg := rfl
@[simp] theorem markBusInit_csN (s : State) : (markBusInit s).csN = s.csN := rfl
@[simp] theorem markBusInit_inited (s : State) : (markBusInit s).inited = s.inited := rfl
@[simp] theorem markBusInit_addr (s : State) : (markBusInit s).addr = s.addr := rfl
@[simp] theorem markBusInit_len (s : State) : (markBusInit s).len = s.len := rfl
@[simp] theorem markBusInit_val (s : State) : (markBusInit s).val = s.val := rfl
@[simp] theorem markBusInit_n (s : State) : (markBusInit s).n = s.n := rfl
@[simp] theorem markBusInit_res (s : State) : (markBusInit s).res = s.res := rfl
@[simp] theorem markBusInit_acc (s : State) : (markBusInit s).acc = s.acc := rfl
@[simp] theorem markBusInit_abuf (s : State) : (markBusInit s).abuf = s.abuf := rfl
@[simp] theorem markBusInit_dbuf (s : State) : (markBusInit s).dbuf = s.dbuf := rfl
@[simp] theorem markBusInit_cur (s : State) : (markBusInit s).cur = s.cur := rfl
@[simp] theorem markBusInit_cnt (s : State) : (markBusInit s).cnt = s.cnt := rfl
@[simp] theorem markBusInit_phase (s : State) : (markBusInit s).phase = s.phase := rfl
@[simp] theorem markBusInit_busy (s : State) : (markBusInit s).busy = s.busy := rfl
@[simp] theorem markBusInit_done (s : State) : (markBusInit s).done = s.done := rfl
@[simp] theorem markBusInit_rbuf (s : State) : (markBusInit s).rbuf = s.rbuf := rfl
@[simp] theorem markBusInit_busInited (s : State) : (markBusInit s).busInited = true := rfl
@[simp] theorem markBusInit_dev (s : State) : (markBusInit s).dev = s.dev := rfl
@[simp] theorem markBusInit_devPresent (s : State) : (markBusInit s).devPresent = s.devPresent := rfl
@[simp] theorem markBusInit_fates (s : State) : (markBusInit s).fates = s.fates := rfl
@[simp] theorem markBusInit_draws (s : State) : (markBusInit s).draws = s.draws := rfl
@[simp] theorem markBusInit_wire (s : State) : (markBusInit s).wire = .init :: s.wire := rfl
@[simp] theorem markBusInit_inputs (s : State) : (markBusInit s).inputs = s.inputs := rfl
@[simp] theorem markBusInit_reply (s : State) : (markBusInit s).reply = s.reply := rfl

/-! ### configureLine -/

@[simp] theorem configureLine_cfg (s : State) : (configureLine s).cfg = s.cfg := rfl
@[simp] theorem configureLine_csCfg (s : State) : (configureLine s).csCfg = true := rfl
@[simp] theorem configureLine_csN (s : State) : (configureLine s).csN = true := rfl
@[simp] theorem configureLine_inited (s : State) : (configureLine s).inited = s.inited := rfl
@[simp] theorem configureLine_addr (s : State) : (configureLine s).addr = s.addr := rfl
@[simp] theorem configureLine_len (s : State) : (configureLine s).len = s.len := rfl
@[simp] theorem configureLine_val (s : State) : (configureLine s).val = s.val := rfl
@[simp] theorem configureLine_n (s : State) : (configureLine s).n = s.n := rfl
@[simp] theorem configureLine_res (s : State) : (configureLine s).res = s.res := rfl
@[simp] theorem configureLine_acc (s : State) : (configureLine s).acc = s.acc := rfl
@[simp] theorem configureLine_abuf (s : State) : (configureLine s).abuf = s.abuf := rfl
@[simp] theorem configureLine_dbuf (s : State) : (configureLine s).dbuf = s.dbuf := rfl
@[simp] theorem configureLine_cur (s : State) : (configureLine s).cur = s.cur := rfl
@[simp] theorem configureLine_cnt (s : State) : (configureLine s).cnt = s.cnt := rfl
@[simp] theorem configureLine_phase (s : State) : (configureLine s).phase = s.phase := rfl
@[simp] theorem configureLine_busy (s : State) : (configureLine s).busy = s.busy := rfl
@[simp] theorem configureLine_done (s : State) : (configureLine s).done = s.done := rfl
@[simp] theorem configureLine_rbuf (s : State) : (configureLine s).rbuf = s.rbuf := rfl
@[simp] theorem configureLine_busInited (s : State) : (configureLine s).busInited = s.busInited := rfl
@[simp] theorem configureLine_dev (s : State) : (configureLine s).dev = s.dev := rfl
@[simp] theorem configureLine_devPresent (s : State) : (configureLine s).devPresent = s.devPresent := rfl
@[simp] theorem configureLine_fates (s : State) : (configureLine s).fates = s.fates := rfl
@[simp] theorem configureLine_draws (s : State) : (configureLine s).draws = s.draws := rfl
@[simp] theorem configureLine_wire (s : State) : (configureLine s).wire = .cfg :: s.wire := rfl
@[simp] theorem configureLine_inputs (s : State) : (configureLine s).inputs = s.inputs := rfl
@[simp] theorem configureLine_reply (s : State) : (configureLine s).reply = s.reply := rfl

end Sys2Proof.Machine
end

