-- ==== Sys2Proof/Laws/Run.lean ====
section
/-! SUPPORT. What the bus primitives and the frame multiplexer do, said once: on any environment in which every transfer
returns, and exactly on the reference device. -/

namespace Sys2Proof.Machine

/-! ### The environment -/

theorem Returns.nextFate {s : State} (h : Returns s) : nextFate s ≠ .stalled := by
  unfold Machine.nextFate
  cases hf : s.fates with
  | nil => simp
  | cons f rest => simpa using h f (by simp [hf])

theorem Returns.of_drop {s t : State} {k : Nat} (h : Returns s) (ht : t.fates = s.fates.drop k) : Returns t := by
  intro f hf
  exact h f (List.mem_of_mem_drop (ht ▸ hf))

theorem Healthy.of_drop {s t : State} {k : Nat} (h : Healthy s) (ht : t.fates = s.fates.drop k)
    (hp : t.devPresent = s.devPresent) : Healthy t where
  there := hp.trans h.there
  delivered f hf := h.delivered f (List.mem_of_mem_drop (ht ▸ hf))

theorem Healthy.returns {s : State} (h : Healthy s) : Returns s := by
  intro f hf
  simp [h.delivered f hf]

theorem Healthy.nextFate {s : State} (h : Healthy s) : nextFate s = .delivered := by
  unfold Machine.nextFate
  cases hf : s.fates with
  | nil => simp
  | cons f rest => simpa using h.delivered f (by simp [hf])

/-! ### Where the device stands inside a bracket -/

/-- The device inside a bracket that began with the device `d0` and would, on a healthy bus, have brought it to `T`: an
absent device is left alone, a present one is at `T`, or has lost the frame (and then `K` holds of it). -/
def Stage (H : Prop) (K : Device → Prop) (present : Bool) (d0 T d : Device) : Prop :=
  (present = false → d = d0) ∧ (present = true → d = T ∨ (¬H ∧ d.dpos = .dead ∧ K d))

theorem lose_of_dead {d : Device} (h : d.dpos = .dead) : d.lose = d := by
  cases d
  simp_all [Device.lose]

/-- One exchange moves the stage on, whatever the bus does. -/
theorem respond_stage {s : State} {tx : Byte} {H : Prop} {K : Device → Prop} {d0 T T' : Device} {g : Byte → Byte}
    (hH : H → Healthy s) (hs : Stage H K s.devPresent d0 T s.dev) (hK : K T.lose)
    (hx : s.devPresent = true → ∀ f, T.exchange s.cfg.variant f tx = some (T', g f)) :
    ∃ d rx, respond s tx = some (d, rx) ∧ Stage H K s.devPresent d0 T' d ∧
      (H → rx = g (Config.freeByte s.draws)) := by
  cases hp : s.devPresent with
  | false =>
    refine ⟨s.dev, Config.freeByte s.draws, by simp [respond, hp], ⟨fun _ => hs.1 hp, by simp⟩, fun h => ?_⟩
    have := (hH h).there
    simp [hp] at this
  | true =>
    have hx := hx hp
    rcases hs.2 hp with hT | ⟨hn, hd, hk⟩
    · cases hf : nextFate s with
      | failed =>
        have hnH : ¬H := fun h => by
          have := (hH h).nextFate
          simp [hf] at this
        by_cases ht : Config.freeTaken s.draws
        · exact ⟨T', Config.freeByte s.draws, by simp [respond, hp, hf, ht, hT, hx], ⟨by simp, fun _ => .inl rfl⟩,
            fun h => (hnH h).elim⟩
        · exact ⟨T.lose, Config.freeByte s.draws, by simp [respond, hp, hf, ht, hT],
            ⟨by simp, fun _ => .inr ⟨hnH, rfl, hK⟩⟩, fun h => (hnH h).elim⟩
      | delivered =>
        exact ⟨T', g (Config.freeByte s.draws), by simp [respond, hp, hf, hT, hx], ⟨by simp, fun _ => .inl rfl⟩,
          fun _ => rfl⟩
      | stalled =>
        exact ⟨T', g (Config.freeByte s.draws), by simp [respond, hp, hf, hT, hx], ⟨by simp, fun _ => .inl rfl⟩,
          fun _ => rfl⟩
    · refine ⟨s.dev, Config.freeByte s.draws, ?_, ⟨by simp, fun _ => .inr ⟨hn, hd, hk⟩⟩, fun h => (hn h).elim⟩
      have he : ∀ f, s.dev.exchange s.cfg.variant f tx = some (s.dev, f) := by
        intro f
        simp [Device.exchange, hd]
      cases hf : nextFate s <;> simp [respond, hp, hf, he, lose_of_dead hd]

/-- The state after one exchange. -/
def afterExchange (s : State) (d : Device) (e : WireEvent) : State :=
  { s with dev := d, fates := s.fates.tail, draws := s.draws + 1, wire := e :: s.wire }

/-- A transfer that returns. -/
theorem exchange_eq {s : State} {ev : Byte → Byte → WireEvent} {tx rx : Byte} {d : Device}
    (hb : s.busInited = true) (hR : Returns s) (h : respond s tx = some (d, rx)) :
    exchange ev tx s = .ok rx (afterExchange s d (ev tx rx)) := by
  simp [exchange, hb, hR.nextFate, h, afterExchange]

/-! ### Following a state through a bracket -/

/-- `t` is `s` but for what transfers change: the device, the fates used up, the free bytes drawn, the events `new` on
the wire, the sequencer position and the level of chip-select. -/
def Follows (s t : State) (new : List WireEvent) : Prop :=
  (∃ k, t.fates = s.fates.drop k) ∧ t.wire = new.reverse ++ s.wire ∧
  t = { s with dev := t.dev, fates := t.fates, draws := t.draws, wire := t.wire, phase := t.phase, csN := t.csN }

theorem Follows.refl (s : State) : Follows s s [] := ⟨⟨0, rfl⟩, rfl, rfl⟩

theorem Follows.trans {s t u : State} {n1 n2 : List WireEvent} (h1 : Follows s t n1) (h2 : Follows t u n2) :
    Follows s u (n1 ++ n2) := by
  obtain ⟨⟨k1, f1⟩, w1, e1⟩ := h1
  obtain ⟨⟨k2, f2⟩, w2, e2⟩ := h2
  refine ⟨⟨k1 + k2, by rw [f2, f1, List.drop_drop]⟩, by rw [w2, w1]; simp, ?_⟩
  rw [e2, e1]

theorem Follows.after {s : State} (d : Device) (e : WireEvent) : Follows s (afterExchange s d e) [e] :=
  ⟨⟨1, by simp [afterExchange]⟩, rfl, rfl⟩

theorem Follows.phase (s : State) (p : Phase) : Follows s (setPhase p s) [] := ⟨⟨0, rfl⟩, rfl, rfl⟩

theorem Follows.open (s : State) : Follows s (openBracket s) [.csLow] := ⟨⟨0, rfl⟩, rfl, rfl⟩

theorem Follows.close (s : State) : Follows s (closeBracket s) [.csHigh] := ⟨⟨0, rfl⟩, rfl, rfl⟩

section Fields
variable {s t : State} {new : List WireEvent}
theorem Follows.cfg (h : Follows s t new) : t.cfg = s.cfg := by rw [h.2.2]
theorem Follows.devPresent (h : Follows s t new) : t.devPresent = s.devPresent := by rw [h.2.2]
theorem Follows.busInited (h : Follows s t new) : t.busInited = s.busInited := by rw [h.2.2]
theorem Follows.abuf (h : Follows s t new) : t.abuf = s.abuf := by rw [h.2.2]
theorem Follows.dbuf (h : Follows s t new) : t.dbuf = s.dbuf := by rw [h.2.2]
theorem Follows.returns (h : Follows s t new) (hR : Returns s) : Returns t := by
  obtain ⟨⟨k, hk⟩, -⟩ := h
  exact hR.of_drop hk
theorem Follows.healthy (h : Follows s t new) (hH : Healthy s) : Healthy t := by
  have hp := h.devPresent
  obtain ⟨⟨k, hk⟩, -⟩ := h
  exact hH.of_drop hk hp
end Fields

/-- One byte sent at a position of the frame. -/
theorem send_stage {s : State} {p : Phase} {tx : Byte} {H : Prop} {K : Device → Prop} {d0 T T' : Device}
    (hb : s.busInited = true) (hR : Returns s) (hH : H → Healthy s) (hs : Stage H K s.devPresent d0 T s.dev)
    (hK : K T.lose) (hx : s.devPresent = true → ∀ f, T.exchange s.cfg.variant f tx = some (T', f)) :
    ∃ t rx, send p tx s = .ok () t ∧ Follows s t [.x tx rx] ∧ t.phase = p ∧ t.csN = s.csN ∧
      Stage H K s.devPresent d0 T' t.dev := by
  obtain ⟨d, rx, hr, hst, -⟩ := respond_stage (s := setPhase p s) (g := id) (T' := T')
    (fun h => ⟨(hH h).1, (hH h).2⟩) hs hK hx
  refine ⟨afterExchange (setPhase p s) d (.x tx rx), rx, ?_,
    (Follows.phase s p).trans (Follows.after d _), rfl, rfl, hst⟩
  have hR' : Returns (setPhase p s) := hR
  simp only [send, xfer]
  rw [exchange_eq (s := setPhase p s) hb hR' hr]
  rfl

/-! ### The header -/

/-- The device once a header for the masked address `m` has reached it (20_memory.md R72). -/
def Device.addressed (d : Device) (isWrite : Bool) (m : Nat) : Device :=
  { d with
    isWrite := isWrite, alatch := BitVec.ofNat 24 m, moved := false, ptr := m
    dpos := if isWrite then .wr else .rd }

/-- The command byte of a READ or a WRITE frame. -/
def cmdOf (isWrite : Bool) : Byte := if isWrite then cmdWrite else cmdRead

theorem exchange_cmd (v : Variant) (d : Device) (w : Bool) (f : Byte) (h : d.dpos = .cmd) :
    d.exchange v f (cmdOf w) = some ({ d with
      isWrite := w, alatch := 0, moved := false
      dpos := match v with | .small => .a1 | .large => .a2 }, f) := by
  cases w <;> cases v <;> simp [Device.exchange, h, Device.command, cmdOf, cmdRead, cmdWrite]

/-- Contents and mode of the device are those of `d0`. -/
def SameStore (d0 d : Device) : Prop := d.mem = d0.mem ∧ d.mode = d0.mode

/-- The effect of `SendHeader` on any environment in which every transfer returns (30_encoding.md R84). -/
theorem sendHeader_run {s : State} {H : Prop} (w : Bool) (a : Word) (hb : s.busInited = true) (hR : Returns s)
    (hH : H → Healthy s) (hd : s.devPresent = true → s.dev.dpos = .cmd) :
    ∃ t new, sendHeader (cmdOf w) a s = .ok () t ∧
      Follows { s with abuf := abufAfter s.cfg.variant s.abuf (addressOf s.cfg.variant a) } t new ∧
      new.map WireEvent.drive = .x (cmdOf w) :: (addressBytes s.cfg.variant (addressOf s.cfg.variant a)).map Drive.x ∧
      t.phase = .addr0 ∧ t.csN = s.csN ∧
      Stage H (SameStore s.dev) s.devPresent s.dev
        (s.dev.addressed w (addressOf s.cfg.variant a)) t.dev := by
  have hs0 : Stage H (SameStore s.dev) s.devPresent s.dev s.dev s.dev := ⟨fun _ => rfl, fun _ => .inl rfl⟩
  have hlt := addressOf_lt s.cfg.variant a
  have hmask := maskAddr_toNat s.cfg.variant a
  cases hv : s.cfg.variant with
  | small =>
    rw [hv] at hlt hmask
    generalize hm : addressOf .small a = m at *
    obtain ⟨t1, r1, e1, f1, -, c1, st1⟩ := send_stage (p := .cmd) (tx := cmdOf w)
      (T' := { s.dev with isWrite := w, alatch := 0, moved := false, dpos := .a1 }) hb hR hH hs0 ⟨rfl, rfl⟩
      (fun hp f => by rw [exchange_cmd _ _ _ _ (hd hp), hv])
    obtain ⟨t2, r2, e2, f2, -, c2, st2⟩ := send_stage (p := .addr1) (tx := byteK 1 (maskAddr .small a))
      (T' := { s.dev with
        isWrite := w, alatch := BitVec.ofNat 24 (m / 256), moved := false, dpos := .a0 })
      (f1.busInited.trans hb) (f1.returns hR) (fun h => f1.healthy (hH h)) (f1.devPresent ▸ st1) ⟨rfl, rfl⟩
      (fun hp f => by
        simp only [Device.exchange, Option.some.injEq, Prod.mk.injEq, and_true, Device.mk.injEq, true_and]
        apply BitVec.eq_of_toNat_eq
        rw [latch_toNat, byteK_eq, hmask]
        simp [Variant.capacity] at hlt ⊢
        omega)
    obtain ⟨t3, r3, e3, f3, p3, c3, st3⟩ := send_stage (p := .addr0) (tx := byteK 0 (maskAddr .small a))
      (T' := s.dev.addressed w m)
      ((f1.trans f2).busInited.trans hb) ((f1.trans f2).returns hR) (fun h => (f1.trans f2).healthy (hH h))
      ((f1.trans f2).devPresent ▸ (f1.devPresent ▸ st2)) ⟨rfl, rfl⟩
      (fun hp f => by
        have hcfg : t2.cfg.variant = .small := by rw [(f1.trans f2).cfg, hv]
        have hl : (Device.latch { s.dev with
            isWrite := w, alatch := BitVec.ofNat 24 (m / 256), moved := false, dpos := .a0 }
            (byteK 0 (maskAddr .small a))).toNat = m := by
          rw [latch_toNat, byteK_eq, hmask]
          simp [Variant.capacity] at hlt ⊢
          omega
        simp only [Device.exchange, Device.addressed, hcfg, Option.some.injEq, Prod.mk.injEq, and_true,
          Device.mk.injEq, true_and]
        rw [hl]
        refine ⟨Nat.mod_eq_of_lt hlt, ?_⟩
        apply BitVec.eq_of_toNat_eq
        rw [hl]
        simp [Variant.capacity] at hlt ⊢
        omega)
    have f := f1.trans (f2.trans f3)
    refine ⟨t3, [.x (cmdOf w) r1] ++ ([.x (byteK 1 (maskAddr .small a)) r2] ++ [.x (byteK 0 (maskAddr .small a)) r3]),
      ?_, ?_, ?_, p3, by rw [c3, c2, c1], ?_⟩
    · simp only [sendHeader, hv, e1, e2, e3, Run.bind]
    · simpa [abufAfter] using f
    · simp [WireEvent.drive, addressBytes, byteK_eq, hmask]
    · exact (f1.trans f2).devPresent ▸ st3
  | large =>
    rw [hv] at hlt hmask
    have hab := abuf_ofWord a s.abuf
    generalize hm : addressOf .large a = m at *
    generalize hs1 : ({ s with abuf := AddrBuf.ofWord (maskAddr .large a) } : State) = s1
    have hb1 : s1.busInited = true := by rw [← hs1]; exact hb
    have hR1 : Returns s1 := by rw [← hs1]; exact hR
    have hH1 : H → Healthy s1 := fun h => by
      rw [← hs1]
      exact ⟨(hH h).1, (hH h).2⟩
    have hdev : s1.dev = s.dev := by rw [← hs1]
    have hp1 : s1.devPresent = s.devPresent := by rw [← hs1]
    have hv1 : s1.cfg.variant = .large := by rw [← hs1]; exact hv
    have habuf : s1.abuf = AddrBuf.ofWord (maskAddr .large a) := by rw [← hs1]
    obtain ⟨t1, r1, e1, f1, -, c1, st1⟩ := send_stage (s := s1) (p := .cmd) (tx := cmdOf w) (d0 := s.dev) (T := s.dev)
      (H := H) (K := SameStore s.dev)
      (T' := { s.dev with isWrite := w, alatch := 0, moved := false, dpos := .a2 }) hb1 hR1 hH1
      (by rw [hdev, hp1]; exact hs0) ⟨rfl, rfl⟩
      (fun hp f => by rw [exchange_cmd _ _ _ _ (hd (hp1 ▸ hp)), hv1])
    obtain ⟨t2, r2, e2, f2, -, c2, st2⟩ := send_stage (p := .addr2) (tx := byteK 2 (maskAddr .large a))
      (T' := { s.dev with
        isWrite := w, alatch := BitVec.ofNat 24 (m / 65536), moved := false, dpos := .a1 })
      (f1.busInited.trans hb1) (f1.returns hR1) (fun h => f1.healthy (hH1 h)) (f1.devPresent ▸ st1) ⟨rfl, rfl⟩
      (fun hp f => by
        simp only [Device.exchange, Option.some.injEq, Prod.mk.injEq, and_true, Device.mk.injEq, true_and]
        apply BitVec.eq_of_toNat_eq
        rw [latch_toNat, byteK_eq, hmask]
        simp [Variant.capacity] at hlt ⊢
        omega)
    have g2 := f1.trans f2
    obtain ⟨t3, r3, e3, f3, -, c3, st3⟩ := send_stage (p := .addr1) (tx := byteK 1 (maskAddr .large a))
      (T' := { s.dev with
        isWrite := w, alatch := BitVec.ofNat 24 (m / 256), moved := false, dpos := .a0 })
      (g2.busInited.trans hb1) (g2.returns hR1) (fun h => g2.healthy (hH1 h))
      (g2.devPresent ▸ (f1.devPresent ▸ st2)) ⟨rfl, rfl⟩
      (fun hp f => by
        simp only [Device.exchange, Option.some.injEq, Prod.mk.injEq, and_true, Device.mk.injEq, true_and]
        apply BitVec.eq_of_toNat_eq
        rw [latch_toNat, byteK_eq, hmask]
        simp [Variant.capacity] at hlt ⊢
        omega)
    have g3 := g2.trans f3
    obtain ⟨t4, r4, e4, f4, p4, c4, st4⟩ := send_stage (p := .addr0) (tx := byteK 0 (maskAddr .large a))
      (T' := s.dev.addressed w m)
      (g3.busInited.trans hb1) (g3.returns hR1) (fun h => g3.healthy (hH1 h))
      (g3.devPresent ▸ (g2.devPresent ▸ st3)) ⟨rfl, rfl⟩
      (fun hp f => by
        have hcfg : t3.cfg.variant = .large := by rw [g3.cfg, hv1]
        have hl : (Device.latch { s.dev with
            isWrite := w, alatch := BitVec.ofNat 24 (m / 256), moved := false, dpos := .a0 }
            (byteK 0 (maskAddr .large a))).toNat = m := by
          rw [latch_toNat, byteK_eq, hmask]
          simp [Variant.capacity] at hlt ⊢
          omega
        simp only [Device.exchange, Device.addressed, hcfg, Option.some.injEq, Prod.mk.injEq, and_true,
          Device.mk.injEq, true_and]
        rw [hl]
        refine ⟨Nat.mod_eq_of_lt hlt, ?_⟩
        apply BitVec.eq_of_toNat_eq
        rw [hl]
        simp [Variant.capacity] at hlt ⊢
        omega)
    have f := g3.trans f4
    have a1 : t1.abuf.b2 = byteK 2 (maskAddr .large a) := by rw [f1.abuf, habuf]; rfl
    have a2 : t2.abuf.b1 = byteK 1 (maskAddr .large a) := by rw [g2.abuf, habuf]; rfl
    have a3 : t3.abuf.b0 = byteK 0 (maskAddr .large a) := by rw [g3.abuf, habuf]; rfl
    refine ⟨t4, [.x (cmdOf w) r1] ++ [.x (byteK 2 (maskAddr .large a)) r2] ++ [.x (byteK 1 (maskAddr .large a)) r3] ++
      [.x (byteK 0 (maskAddr .large a)) r4], ?_, ?_, ?_, p4, by rw [c4, c3, c2, c1, ← hs1], ?_⟩
    · simp only [sendHeader, hv, hs1, e1, e2, e3, e4, a1, a2, a3, Run.bind]
    · rw [← hs1, hab] at f
      exact f
    · simp [WireEvent.drive, addressBytes, byteK_eq, hmask]
    · exact hp1 ▸ g3.devPresent ▸ st4

end Sys2Proof.Machine
end

