-- ==== Sys2Proof/Laws/Frames.lean ====
section
/-! SUPPORT. Whole brackets: what one read bracket, one write bracket, the mode frame, a block transfer and a run of zeros
do, on any environment in which every transfer returns and exactly on the reference device. -/

namespace Sys2Proof.Machine

/-- A state with the scratch buffer as a header for the masked address `m` leaves it. -/
def withHeader (s : State) (m : Nat) : State := { s with abuf := abufAfter s.cfg.variant s.abuf m }

/-- Everything up to the data phase of a READ or WRITE bracket. -/
theorem bracket_run {s : State} {H : Prop} (w : Bool) (a : Word) (hb : s.busInited = true) (hR : Returns s)
    (hH : H → Healthy s) :
    ∃ u new, (∀ {α : Type} (body : State → Run α),
        bracket (cmdOf w) a body s = (body u).bind fun r t => .ok r (closeBracket t)) ∧
      Follows (withHeader s (addressOf s.cfg.variant a)) u new ∧
      new.map WireEvent.drive = headerDrives s.cfg.variant (cmdOf w) (addressOf s.cfg.variant a) ∧
      u.phase = .data ∧
      Stage H (SameStore s.dev) s.devPresent s.dev (s.dev.addressed w (addressOf s.cfg.variant a)) u.dev := by
  have fo := Follows.open s
  obtain ⟨t, new, e, f, hd, -, -, st⟩ := sendHeader_run (s := openBracket s) (H := H) w a hb (fo.returns hR)
    (fun h => fo.healthy (hH h)) (fun hp => by
      have hp : s.devPresent = true := hp
      simp [hp, Device.select])
  refine ⟨setPhase .data t, [.csLow] ++ new ++ [], ?_, ?_, ?_, rfl, ?_⟩
  · intro α body
    simp only [bracket, e, Run.bind]
  · obtain ⟨⟨k, f1⟩, f2, f3⟩ := f
    exact ⟨⟨k, f1⟩, by simp [f2, withHeader], by simp only [withHeader, setPhase]; rw [f3]; rfl⟩
  · simp only [List.append_nil, List.map_append, hd]
    rfl
  · have hp : (openBracket s).devPresent = s.devPresent := rfl
    rw [hp] at st
    refine ⟨fun h => ?_, fun h => ?_⟩
    · have := st.1 h
      simpa [h] using this
    · have h2 := st.2 h
      simpa [h, Device.addressed, Device.select, SameStore] using h2

/-- The device after a bracket closes. -/
theorem closeBracket_store (t : State) : SameStore t.dev (closeBracket t).dev := by
  cases h : t.devPresent <;> simp [SameStore, h, Device.deselect]

/-- What a stage that keeps the store says of the store. -/
theorem Stage.sameStore {H : Prop} {p : Bool} {d0 T d : Device} (h : Stage H (SameStore d0) p d0 T d)
    (hT : SameStore d0 T) : SameStore d0 d := by
  cases hp : p with
  | false => rw [h.1 hp]; exact ⟨rfl, rfl⟩
  | true =>
    rcases h.2 hp with rfl | ⟨-, -, hk⟩
    · exact hT
    · exact hk

/-- On the reference device the stage is reached. -/
theorem Stage.exact {H : Prop} {K : Device → Prop} {p : Bool} {d0 T d : Device} (h : Stage H K p d0 T d) (hH : H)
    (hp : p = true) : d = T := by
  rcases h.2 hp with h | h
  · exact h
  · exact (h.1 hH).elim

/-- One read bracket (41_single_byte.md R130): the byte `r` comes in at the data position, whatever it is; contents and
mode of the device stay; on the reference device `r` is the byte at the masked address. -/
theorem readByte_run {s : State} {H : Prop} (a : Word) (hb : s.busInited = true) (hR : Returns s)
    (hH : H → Healthy s) :
    ∃ t r hdr, readByte a s = .ok r t ∧
      Follows (withHeader s (addressOf s.cfg.variant a)) t (hdr ++ [.x s.cfg.dummy r, .csHigh]) ∧
      hdr.map WireEvent.drive = headerDrives s.cfg.variant cmdRead (addressOf s.cfg.variant a) ∧
      t.phase = .idle ∧ t.csN = true ∧ SameStore s.dev t.dev ∧
      (H → r = s.dev.byteAt (addressOf s.cfg.variant a)) := by
  obtain ⟨u, hdr, he, hf, hd, hph, hst⟩ := bracket_run (H := H) false a hb hR hH
  have hRu : Returns u := hf.returns (s := withHeader s _) hR
  have hHu : H → Healthy u := fun h => hf.healthy (s := withHeader s _) ⟨(hH h).1, (hH h).2⟩
  have hbu : u.busInited = true := hf.busInited.trans hb
  have hpu : u.devPresent = s.devPresent := hf.devPresent
  have hcu : u.cfg = s.cfg := hf.cfg
  generalize hm : addressOf s.cfg.variant a = m at *
  obtain ⟨d, r, hr, hst', hrx⟩ := respond_stage (s := u) (tx := u.cfg.dummy) (H := H) (K := SameStore s.dev)
    (d0 := s.dev) (T := s.dev.addressed false m)
    (T' := { s.dev.addressed false m with ptr := (m + 1) % s.cfg.variant.capacity, moved := true })
    (g := fun _ => s.dev.byteAt m) hHu (hpu ▸ hst) ⟨rfl, rfl⟩
    (fun _ f => by simp [Device.exchange, Device.addressed, Device.mayMove, Device.nextPtr, hcu, Device.byteAt])
  have hstep := (hf.trans (Follows.after (s := u) d (.x u.cfg.dummy r))).trans (Follows.close (afterExchange u d (.x u.cfg.dummy r)))
  refine ⟨closeBracket (afterExchange u d (.x u.cfg.dummy r)), r, hdr, ?_, ?_, hd, rfl, rfl, ?_, hrx⟩
  · show bracket (cmdOf false) a (fun s => xfer s.cfg.dummy s) s = _
    rw [he]
    simp only [xfer]
    rw [exchange_eq hbu hRu hr]
    rfl
  · simpa [hcu] using hstep
  · have h1 : SameStore s.dev d := (hpu ▸ hst').sameStore ⟨rfl, rfl⟩
    have h2 := closeBracket_store (afterExchange u d (.x u.cfg.dummy r))
    exact ⟨h2.1.trans h1.1, h2.2.trans h1.2⟩

/-- One write bracket (41_single_byte.md R131): whatever the bus does, no other byte changes; on the reference device the
byte at the masked address is written. -/
theorem writeByte_run {s : State} {H : Prop} (a : Word) (v : Byte) (hb : s.busInited = true) (hR : Returns s)
    (hH : H → Healthy s) :
    ∃ t new, writeByte a v s = .ok () t ∧
      Follows (withHeader s (addressOf s.cfg.variant a)) t new ∧
      new.map WireEvent.drive = frameDrives s.cfg.variant cmdWrite (addressOf s.cfg.variant a) [.x v] ∧
      t.phase = .idle ∧ t.csN = true ∧ t.dev.mode = s.dev.mode ∧
      (∀ x, x ≠ addressOf s.cfg.variant a → t.dev.byteAt x = s.dev.byteAt x) ∧
      (H → t.dev.mem = Memory.poke s.dev.mem (addressOf s.cfg.variant a) v) ∧
      (s.devPresent = false → t.dev = s.dev) := by
  obtain ⟨u, hdr, he, hf, hd, hph, hst⟩ := bracket_run (H := H) true a hb hR hH
  have hRu : Returns u := hf.returns (s := withHeader s _) hR
  have hHu : H → Healthy u := fun h => hf.healthy (s := withHeader s _) ⟨(hH h).1, (hH h).2⟩
  have hbu : u.busInited = true := hf.busInited.trans hb
  have hpu : u.devPresent = s.devPresent := hf.devPresent
  have hcu : u.cfg = s.cfg := hf.cfg
  generalize hm : addressOf s.cfg.variant a = m at *
  have hst1 : Stage H (SameStore s.dev) u.devPresent s.dev (s.dev.addressed true m) u.dev := by
    rw [hpu]
    exact hst
  obtain ⟨t, rx, e, f, ph, -, st⟩ := send_stage (s := u) (p := .data) (tx := v) (H := H)
    (K := SameStore s.dev) (d0 := s.dev) (T := s.dev.addressed true m)
    (T' := { s.dev.addressed true m with
      mem := Memory.poke s.dev.mem m v, ptr := (m + 1) % s.cfg.variant.capacity, moved := true })
    hbu hRu hHu hst1 ⟨rfl, rfl⟩
    (fun _ f => by simp [Device.exchange, Device.addressed, Device.mayMove, Device.nextPtr, hcu])
  have hpt : t.devPresent = s.devPresent := f.devPresent.trans hpu
  refine ⟨closeBracket t, hdr ++ [.x v rx] ++ [.csHigh], ?_, (hf.trans f).trans (Follows.close t), ?_, rfl, rfl, ?_, ?_, ?_, ?_⟩
  · show bracket (cmdOf true) a (send .data v) s = _
    rw [he, e]
    rfl
  · simp only [List.map_append, hd]
    rfl
  · rw [(closeBracket_store t).2]
    cases hp : u.devPresent with
    | false => rw [st.1 hp]
    | true => rcases st.2 hp with h | h
              · rw [h]; rfl
              · exact h.2.2.2
  · intro x hx
    rw [byteAt_congr (closeBracket_store t).1]
    cases hp : u.devPresent with
    | false => rw [st.1 hp]
    | true => rcases st.2 hp with h | h
              · rw [h]; exact byteAt_poke_other rfl hx
              · exact byteAt_congr h.2.2.1 x
  · intro h
    rw [(closeBracket_store t).1, st.exact h (by rw [hpu]; exact (hH h).there)]
  · intro h
    have : t.devPresent = false := hpt.trans h
    simp [this, st.1 (hpu.trans h)]

/-- The W-MR frame (40_init_and_query.md R111). On the reference device the mode register holds `0x40` afterwards. -/
theorem modeFrame_run {s : State} {H : Prop} (hb : s.busInited = true) (hR : Returns s) (hH : H → Healthy s) :
    ∃ t new, modeFrame s = .ok () t ∧ Follows s t new ∧ new.map WireEvent.drive = modeDrives ∧
      t.phase = .idle ∧ t.csN = true ∧ t.dev.mem = s.dev.mem ∧ (H → t.dev.mode = modeSeq) ∧
      (s.devPresent = false → t.dev = s.dev) := by
  have fo := Follows.open s
  have hopen : Stage H (fun d => d.mem = s.dev.mem) s.devPresent s.dev s.dev.select (openBracket s).dev := by
    refine ⟨fun h => by simp [h], fun h => .inl (by simp [h])⟩
  obtain ⟨t1, r1, e1, f1, -, -, st1⟩ := send_stage (s := openBracket s) (p := .cmd) (tx := cmdWriteModeRegister) (H := H)
    (K := fun d => d.mem = s.dev.mem) (d0 := s.dev) (T := s.dev.select)
    (T' := { s.dev.select with moved := false, dpos := .mrW })
    hb (fo.returns hR) (fun h => fo.healthy (hH h)) hopen rfl
    (fun _ f => by simp [Device.exchange, Device.select, Device.command, cmdWriteModeRegister, cmdRead, cmdWrite])
  have g1 := fo.trans f1
  obtain ⟨t2, r2, e2, f2, -, -, st2⟩ := send_stage (s := t1) (p := .mode) (tx := modeSeq) (H := H)
    (K := fun d => d.mem = s.dev.mem) (d0 := s.dev) (T := { s.dev.select with moved := false, dpos := .mrW })
    (T' := { s.dev.select with moved := true, dpos := .mrW, mode := modeSeq })
    (g1.busInited.trans hb) (g1.returns hR) (fun h => g1.healthy (hH h)) (f1.devPresent ▸ st1) rfl
    (fun _ f => by simp [Device.exchange])
  have g2 := g1.trans f2
  have hpt : t1.devPresent = s.devPresent := g1.devPresent
  have hpt2 : t2.devPresent = s.devPresent := g2.devPresent
  refine ⟨closeBracket t2, [.csLow] ++ [.x cmdWriteModeRegister r1] ++ [.x modeSeq r2] ++ [.csHigh], ?_,
    g2.trans (Follows.close t2), rfl, rfl, rfl, ?_, ?_, ?_⟩
  · simp only [modeFrame, e1, e2, Run.bind]
  · rw [(closeBracket_store t2).1]
    cases hp : t1.devPresent with
    | false => rw [st2.1 hp]
    | true => rcases st2.2 hp with h | h
              · rw [h]; rfl
              · exact h.2.2
  · intro h
    rw [(closeBracket_store t2).2, st2.exact h (by rw [hpt]; exact (hH h).there)]
  · intro h
    simp [hpt2.trans h, st2.1 (hpt.trans h)]

end Sys2Proof.Machine
end

