-- ==== Sys2Proof/Laws/Loops.lean ====
section
/-! SUPPORT. The counted loops: a run of zeros (erase), a block transfer (get, put), the folds of a checksum. -/

namespace Sys2Proof.Machine

/-- `k` more data transfers of this frame have a meaning (20_memory.md R74). -/
def Moves (T : Device) (k : Nat) : Prop := k = 0 ∨ T.mode = modeSeq ∨ k = 1 ∧ T.moved = false

theorem Moves.mayMove {T : Device} {k : Nat} (h : Moves T (k + 1)) : T.mayMove = true := by
  rcases h with h | h | ⟨-, h⟩
  · omega
  · simp [Device.mayMove, h]
  · simp [Device.mayMove, h]

theorem Moves.next {T T' : Device} {k : Nat} (h : Moves T (k + 1)) (hm : T'.mode = T.mode) : Moves T' k := by
  rcases h with h | h | ⟨h, -⟩
  · omega
  · exact .inr (.inl (hm.trans h))
  · exact .inl (by omega)

/-- The stage of a write data phase: a lost frame leaves the mode. -/
abbrev WriteStage (H : Prop) (s : State) (d0 T : Device) : Prop :=
  Stage H (fun d => d.mode = d0.mode) s.devPresent d0 T s.dev

/-- A run of zeros (43_erase.md R170). -/
theorem sendZeros_run {H : Prop} {d0 : Device} (k : Nat) :
    ∀ {s : State} {T : Device}, s.busInited = true → Returns s → (H → Healthy s) → WriteStage H s d0 T →
      T.mode = d0.mode → (s.devPresent = true → T.dpos = .wr ∧ Moves T k) →
    ∃ t new, sendZeros k s = .ok () t ∧ Follows { s with cnt := s.cnt - BitVec.ofNat 32 k } t new ∧
      new.map WireEvent.drive = List.replicate k (.x 0x00) ∧
      WriteStage H t d0 (T.writeMany s.cfg.variant (List.replicate k 0x00)) := by
  induction k with
  | zero =>
    intro s T _ _ _ hs _ _
    exact ⟨s, [], rfl, by simpa using Follows.refl s, rfl, hs⟩
  | succ k ih =>
    intro s T hb hR hH hs hmode hT
    obtain ⟨t1, r1, e1, f1, -, -, st1⟩ := send_stage (s := s) (p := .data) (tx := 0x00) (H := H)
      (K := fun d => d.mode = d0.mode) (d0 := d0) (T := T)
      (T' := { T with mem := Memory.poke T.mem T.ptr 0x00, ptr := T.nextPtr s.cfg.variant, moved := true })
      hb hR hH hs hmode
      (fun hp f => by simp [Device.exchange, (hT hp).1, (hT hp).2.mayMove])
    have hp1 : t1.devPresent = s.devPresent := f1.devPresent
    obtain ⟨t2, new, e2, f2, hd, st2⟩ := ih (s := { t1 with cnt := t1.cnt - 1 })
      (T := { T with mem := Memory.poke T.mem T.ptr 0x00, ptr := T.nextPtr s.cfg.variant, moved := true })
      (f1.busInited.trans hb) (fun x hx => f1.returns hR x hx)
      (fun h => ⟨(f1.healthy (hH h)).1, (f1.healthy (hH h)).2⟩) (hp1 ▸ st1) hmode
      (fun hp => ⟨(hT (hp1 ▸ hp)).1, (hT (hp1 ▸ hp)).2.next rfl⟩)
    refine ⟨t2, .x 0x00 r1 :: new, ?_, ?_, ?_, ?_⟩
    · simp only [sendZeros, e1, Run.bind]
      exact e2
    · have f1' : Follows { s with cnt := s.cnt - BitVec.ofNat 32 (k + 1) }
          { t1 with cnt := s.cnt - BitVec.ofNat 32 (k + 1) } [.x 0x00 r1] := by
        obtain ⟨g1, g2, g3⟩ := f1
        exact ⟨g1, g2, by rw [g3]⟩
      have hc : t1.cnt - 1 - BitVec.ofNat 32 k = s.cnt - BitVec.ofNat 32 (k + 1) := by
        have : t1.cnt = s.cnt := by rw [f1.2.2]
        rw [this, Nat.add_comm k 1, BitVec.ofNat_add]
        exact BitVec.sub_sub _ _ _
      refine f1'.trans (t := { t1 with cnt := s.cnt - BitVec.ofNat 32 (k + 1) }) ?_
      rw [← hc]
      exact f2
    · simp [hd, List.replicate_succ, WireEvent.drive]
    · have : t1.cfg = s.cfg := f1.cfg
      simpa only [this, List.replicate_succ, Device.writeMany] using st2

/-- The bytes a block transfer drives are those of the region, and the region takes the replies (20_memory.md R64). -/
def regionAfter (s : State) (i : Nat) (rxs : List Byte) : State :=
  { s with dbuf := s.dbuf.take i ++ rxs ++ s.dbuf.drop (i + rxs.length) }

theorem region_cons (l rxs : List Byte) (i : Nat) (rx : Byte) (hi : i < l.length) :
    (l.set i rx).take (i + 1) ++ rxs ++ (l.set i rx).drop (i + 1 + rxs.length) =
      l.take i ++ (rx :: rxs) ++ l.drop (i + (rxs.length + 1)) := by
  have h1 : (l.set i rx).take (i + 1) = l.take i ++ [rx] := by
    rw [List.take_add_one, List.take_set_of_le (Nat.le_refl i)]
    simp [hi]
  have h2 : (l.set i rx).drop (i + 1 + rxs.length) = l.drop (i + (rxs.length + 1)) := by
    rw [List.drop_set_of_lt (by omega)]
    congr 1
    omega
  rw [h1, h2]
  simp

/-- The device in the data phase of a block transfer: reading or writing. -/
def Device.blockMany (v : Variant) (w : Bool) (T : Device) (txs : List Byte) : Device :=
  if w then T.writeMany v txs else T.readMany v txs.length

/-- A block transfer (20_memory.md R64) in a READ frame (`w = false`) or a WRITE frame. -/
theorem xferBlock_run {H : Prop} {K : Device → Prop} {d0 : Device} (w : Bool) (k : Nat) :
    ∀ {s : State} {T : Device} (i : Nat), s.busInited = true → Returns s → (H → Healthy s) →
      Stage H K s.devPresent d0 T s.dev →
      (∀ j ≤ k, K (T.blockMany s.cfg.variant w (((s.dbuf.drop i).take k).take j)).lose) →
      T.mode = d0.mode → (w = false → T.mem = d0.mem) → i + k ≤ s.dbuf.length →
      (s.devPresent = true → T.dpos = (if w then .wr else .rd) ∧ Moves T k) →
      T.ptr < s.cfg.variant.capacity →
    ∃ t new rxs, xferBlock k i s = .ok () t ∧ rxs.length = k ∧ Follows (regionAfter s i rxs) t new ∧
      new = List.zipWith WireEvent.b ((s.dbuf.drop i).take k) rxs ∧
      Stage H K t.devPresent d0 (T.blockMany s.cfg.variant w ((s.dbuf.drop i).take k)) t.dev ∧
      (H → w = false → rxs = (List.range k).map fun j => d0.byteAt ((T.ptr + j) % s.cfg.variant.capacity)) := by
  induction k with
  | zero =>
    intro s T i _ _ _ hs _ _ _ _ _ _
    refine ⟨s, [], [], rfl, rfl, ?_, by simp, ?_, by simp⟩
    · simpa [regionAfter] using Follows.refl s
    · cases w <;> simpa [Device.blockMany, Device.writeMany, Device.readMany] using hs
  | succ k ih =>
    intro s T i hb hR hH hs hKK hmode hmem hi hT hptr
    have hlt : i < s.dbuf.length := by omega
    have htx : s.dbuf.getD i 0 = s.dbuf[i] := by simp [hlt]
    obtain ⟨d, rx, hr, hst, hrx⟩ := respond_stage (s := s) (tx := s.dbuf[i]) (H := H) (K := K) (d0 := d0) (T := T)
      (T' := if w then { T with mem := Memory.poke T.mem T.ptr s.dbuf[i], ptr := T.nextPtr s.cfg.variant, moved := true }
        else { T with ptr := T.nextPtr s.cfg.variant, moved := true })
      (g := fun f => if w then f else T.byteAt T.ptr) hH hs
      (by simpa [Device.blockMany, Device.writeMany, Device.readMany] using hKK 0 (by omega))
      (fun hp f => by cases w <;> simp_all [Device.exchange, (hT hp).2.mayMove])
    generalize hT' : (if w then { T with mem := Memory.poke T.mem T.ptr s.dbuf[i], ptr := T.nextPtr s.cfg.variant, moved := true }
        else { T with ptr := T.nextPtr s.cfg.variant, moved := true } : Device) = T' at hst
    have hm' : T'.mode = T.mode := by rw [← hT']; cases w <;> rfl
    have hp' : T'.dpos = T.dpos := by rw [← hT']; cases w <;> rfl
    have hptr' : T'.ptr = T.nextPtr s.cfg.variant := by rw [← hT']; cases w <;> rfl
    have hdrop : (s.dbuf.set i rx).drop (i + 1) = s.dbuf.drop (i + 1) := List.drop_set_of_lt (by omega)
    have htake : (s.dbuf.drop i).take (k + 1) = s.dbuf[i] :: (s.dbuf.drop (i + 1)).take k := by
      rw [List.drop_eq_getElem_cons hlt, List.take_succ_cons]
    have hmany : ∀ l, T'.blockMany s.cfg.variant w l = T.blockMany s.cfg.variant w (s.dbuf[i] :: l) := by
      intro l
      rw [← hT']
      cases w <;> rfl
    have hmem' : w = false → T'.mem = d0.mem := by
      intro hw
      rw [← hT', hw]
      exact hmem hw
    obtain ⟨t, new, rxs, e, hlen, f, hnew, hstf, hrxs⟩ := ih
      (s := { afterExchange s d (.b s.dbuf[i] rx) with dbuf := s.dbuf.set i rx }) (T := T') (i + 1)
      hb ((Follows.after (s := s) d (.b s.dbuf[i] rx)).returns hR)
      (fun h => ⟨((Follows.after (s := s) d (.b s.dbuf[i] rx)).healthy (hH h)).1,
        ((Follows.after (s := s) d (.b s.dbuf[i] rx)).healthy (hH h)).2⟩)
      hst (by
        intro j hj
        simp only [hdrop]
        show K (T'.blockMany s.cfg.variant w _).lose
        rw [hmany, ← List.take_succ_cons, ← htake]
        exact hKK (j + 1) (by omega)) (hm'.trans hmode) hmem' (by simp; omega)
      (fun hp => ⟨by rw [hp']; exact (hT hp).1, (hT hp).2.next hm'⟩)
      (by rw [hptr']; exact Nat.mod_lt _ (capacity_pos _))
    refine ⟨t, .b s.dbuf[i] rx :: new, rx :: rxs, ?_, by simp [hlen], ?_, ?_, ?_, ?_⟩
    · simp only [xferBlock, htx]
      rw [exchange_eq hb hR hr]
      exact e
    · have h0 := Follows.after (s := regionAfter s i (rx :: rxs)) d (.b s.dbuf[i] rx)
      refine h0.trans (?_ : Follows _ t new)
      have : afterExchange (regionAfter s i (rx :: rxs)) d (.b s.dbuf[i] rx) =
          regionAfter { afterExchange s d (.b s.dbuf[i] rx) with dbuf := s.dbuf.set i rx } (i + 1) rxs := by
        simp only [regionAfter, afterExchange, region_cons _ _ _ _ hlt, List.length_cons]
      rw [this]
      exact f
    · rw [htake, List.zipWith_cons_cons, hnew, hdrop]
    · rw [htake]
      have hv : (afterExchange s d (.b s.dbuf[i] rx)).cfg.variant = s.cfg.variant := rfl
      simp only [hdrop, hv, hmany] at hstf
      exact hstf
    · intro h hw
      have h1 := hrx h
      have h2 := hrxs h hw
      rw [List.range_succ_eq_map, List.map_cons, List.map_map, h2, h1, hw]
      congr 1
      · rw [Nat.add_zero, Nat.mod_eq_of_lt hptr]
        exact byteAt_congr (hmem hw) _
      · apply List.map_congr_left
        intro j _
        simp only [Function.comp, hptr', Device.nextPtr, afterExchange, succ_mod]

/-! ### The folds of a checksum -/

/-- The running address wraps with the masked address (44_checksum.md R185 (e)). -/
theorem addressOf_succ (v : Variant) (a : Word) : addressOf v (a + 1) = (addressOf v a + 1) % v.capacity := by
  have h := a.isLt
  cases v <;> simp [addressOf, Variant.capacity] at *

theorem abufAfter_twice (v : Variant) (old : AddrBuf) (m m' : Nat) :
    abufAfter v (abufAfter v old m) m' = abufAfter v old m' := by cases v <;> rfl

/-- A header closes no bracket, so it holds no data reply. -/
theorem dataReplies_header {hdr : List WireEvent} {ds : List Drive} (h : hdr.map WireEvent.drive = ds)
    (hn : Drive.csHigh ∉ ds) (dummy r : Byte) (rest : List WireEvent) :
    dataReplies (hdr ++ .x dummy r :: .csHigh :: rest) = r :: dataReplies rest := by
  induction hdr generalizing ds with
  | nil => rfl
  | cons e hdr ih =>
    subst h
    simp only [List.map_cons, List.mem_cons, not_or] at hn
    have hi := ih rfl hn.2
    cases hdr with
    | nil => cases e <;> simp_all [dataReplies, WireEvent.drive]
    | cons e2 hdr =>
      have h2 : Drive.csHigh ≠ e2.drive := fun h => hn.2 (by simp [← h])
      cases e <;> cases e2 <;> simp_all [dataReplies, WireEvent.drive]

theorem csHigh_not_header (v : Variant) (c : Byte) (m : Nat) : Drive.csHigh ∉ headerDrives v c m := by
  cases v <;> simp [headerDrives, addressBytes]

/-- The loop of a checksum (44_checksum.md R185): one read bracket a byte, each byte folded in turn. -/
theorem foldBytes_run {H : Prop} (k : Nat) :
    ∀ {s : State}, s.busInited = true → Returns s → (H → Healthy s) →
    ∃ t new bs, foldBytes k s = .ok () t ∧ bs.length = k ∧
      Follows { s with
        abuf := abufAfterReads s.cfg.variant s.abuf (addressOf s.cfg.variant s.cur) k
        acc := crc16 s.cfg.crcPoly s.acc bs
        cur := s.cur + BitVec.ofNat 32 k
        cnt := s.cnt - BitVec.ofNat 32 k } t new ∧
      new.map WireEvent.drive = checksumDrives s.cfg (addressOf s.cfg.variant s.cur) k ∧
      dataReplies new = bs ∧ SameStore s.dev t.dev ∧ t.csN = (if k = 0 then s.csN else true) ∧
      (H → bs = bytesAt s (addressOf s.cfg.variant s.cur) k) := by
  induction k with
  | zero =>
    intro s _ _ _
    exact ⟨s, [], [], rfl, rfl, by simpa [abufAfterReads, crc16] using Follows.refl s, rfl, rfl, ⟨rfl, rfl⟩, rfl, fun _ => rfl⟩
  | succ k ih =>
    intro s hb hR hH
    obtain ⟨t1, b, hdr, e1, f1, hd1, -, c1, st1, hb1⟩ := readByte_run s.cur hb hR hH
    have hlt := addressOf_lt s.cfg.variant s.cur
    generalize hm : addressOf s.cfg.variant s.cur = m at *
    have hcfg : t1.cfg = s.cfg := f1.cfg
    have hR1 : Returns t1 := f1.returns (s := withHeader s m) hR
    have hH1 : H → Healthy t1 := fun h => f1.healthy (s := withHeader s m) ⟨(hH h).1, (hH h).2⟩
    have hcur : t1.cur = s.cur := by rw [f1.2.2]; rfl
    have hacc : t1.acc = s.acc := by rw [f1.2.2]; rfl
    have hcnt : t1.cnt = s.cnt := by rw [f1.2.2]; rfl
    have habuf : t1.abuf = abufAfter s.cfg.variant s.abuf m := by rw [f1.2.2]; rfl
    obtain ⟨t2, new, bs, e2, hlen, f2, hd2, hdr2, st2, c2, hbs⟩ := ih (s := foldUnit b t1) (f1.busInited.trans hb)
      (fun x hx => hR1 x hx) (fun h => ⟨(hH1 h).1, (hH1 h).2⟩)
    have ha : addressOf (foldUnit b t1).cfg.variant (foldUnit b t1).cur = (m + 1) % s.cfg.variant.capacity := by
      show addressOf t1.cfg.variant (t1.cur + 1) = _
      rw [hcfg, hcur, addressOf_succ, hm]
    rw [ha] at hd2 hbs f2
    have hone : (1 : Word) + BitVec.ofNat 32 k = BitVec.ofNat 32 (k + 1) := by
      rw [Nat.add_comm k 1, BitVec.ofNat_add]
      rfl
    refine ⟨t2, hdr ++ [.x s.cfg.dummy b, .csHigh] ++ new, b :: bs, ?_, by simp [hlen], ?_, ?_, ?_, ?_, ?_, ?_⟩
    · simp only [foldBytes, e1, Run.bind]
      exact e2
    · obtain ⟨⟨k1, g1⟩, g2, g3⟩ := f1
      obtain ⟨⟨k2, h1⟩, h2, h3⟩ := f2
      refine ⟨⟨k1 + k2, ?_⟩, ?_, ?_⟩
      · rw [h1]
        show t1.fates.drop k2 = _
        rw [g1, List.drop_drop]
        rfl
      · rw [h2]
        show new.reverse ++ t1.wire = _
        rw [g2]
        simp [withHeader]
      · rw [h3]
        have hv : (foldUnit b t1).cfg = s.cfg := hcfg
        have hab : abufAfterReads s.cfg.variant (foldUnit b t1).abuf ((m + 1) % s.cfg.variant.capacity) k =
            abufAfterReads s.cfg.variant s.abuf m (k + 1) := by
          show abufAfterReads s.cfg.variant t1.abuf _ k = _
          rw [habuf]
          cases k with
          | zero => simp [abufAfterReads, Nat.mod_eq_of_lt hlt]
          | succ k => simp [abufAfterReads, abufAfter_twice, Nat.add_assoc, Nat.add_comm 1]
        have hfold : crc16 s.cfg.crcPoly (foldUnit b t1).acc bs = crc16 s.cfg.crcPoly s.acc (b :: bs) := by
          show crc16 s.cfg.crcPoly (crc16Update t1.cfg.crcPoly t1.acc b) bs = _
          rw [hcfg, hacc]
          rfl
        have hcu : (foldUnit b t1).cur + BitVec.ofNat 32 k = s.cur + BitVec.ofNat 32 (k + 1) := by
          show t1.cur + 1 + BitVec.ofNat 32 k = _
          rw [hcur, BitVec.add_assoc, hone]
        have hcn : (foldUnit b t1).cnt - BitVec.ofNat 32 k = s.cnt - BitVec.ofNat 32 (k + 1) := by
          show t1.cnt - 1 - BitVec.ofNat 32 k = _
          rw [hcnt, BitVec.sub_sub, hone]
        rw [hv, hab, hfold, hcu, hcn]
        simp only [foldUnit, setPhase]
        rw [g3]
        rfl
    · rw [List.map_append, hd2]
      have hv : (foldUnit b t1).cfg = s.cfg := hcfg
      rw [hv]
      simp only [checksumDrives, List.range_succ_eq_map, List.flatMap_cons, List.flatMap_map, List.map_append, hd1]
      congr 1
      · simp [readDrives, frameDrives, WireEvent.drive, Nat.mod_eq_of_lt hlt]
      · simp only [succ_mod]
    · rw [List.append_assoc]
      exact (dataReplies_header hd1 (csHigh_not_header _ _ _) _ _ _).trans (congrArg (b :: ·) hdr2)
    · exact ⟨st2.1.trans st1.1, st2.2.trans st1.2⟩
    · rw [c2]
      cases k with
      | zero => simp [foldUnit, c1]
      | succ k => simp
    · intro h
      have hd : ∀ x, (foldUnit b t1).dev.byteAt x = s.dev.byteAt x := fun x => byteAt_congr st1.1 x
      have hv : (foldUnit b t1).cfg = s.cfg := hcfg
      have hbytes : bs = (List.range k).map fun i =>
          s.dev.byteAt (((m + 1) % s.cfg.variant.capacity + i) % s.cfg.variant.capacity) := by
        rw [hbs h]
        simp only [bytesAt, hv, hd]
      rw [hbytes, hb1 h]
      simp only [bytesAt, List.range_succ_eq_map, List.map_cons, List.map_map, Nat.add_zero,
        Nat.mod_eq_of_lt hlt, List.cons.injEq, true_and]
      apply List.map_congr_left
      intro j _
      simp only [Function.comp, succ_mod]

end Sys2Proof.Machine
end

