-- ==== Sys2Proof/Laws/Wire.lean ====
section
/-! SUPPORT. What the reference device does with a whole frame at its own port (20_memory.md R71 to R75). -/

namespace Sys2Proof.Machine

theorem exchanges_append (v : Variant) (xs ys : List Byte) : ∀ (k : Nat) (d : Device),
    Device.exchanges v k d (xs ++ ys) =
      (Device.exchanges v k d xs).bind fun p =>
        (Device.exchanges v (k + xs.length) p.1 ys).map fun q => (q.1, p.2 ++ q.2) := by
  induction xs with
  | nil =>
    intro k d
    cases h : Device.exchanges v k d ys <;> simp [Device.exchanges, h]
  | cons x xs ih =>
    intro k d
    simp only [List.cons_append, Device.exchanges]
    cases h : d.exchange v (Config.freeByte k) x with
    | none => rfl
    | some p =>
      simp only [ih]
      cases h2 : Device.exchanges v (k + 1) p.1 xs with
      | none => rfl
      | some q =>
        simp only [Option.bind_some, List.length_cons, Nat.add_assoc, Nat.add_comm 1]
        cases Device.exchanges v (k + (xs.length + 1)) q.1 ys <;> rfl

/-- A Small header at a selected device. -/
theorem exchanges_headerS (w : Bool) (a : BitVec 16) (k : Nat) (d : Device) :
    ∃ rs, rs.length = 3 ∧ Device.exchanges .small k d.select (headerS (cmdOf w) a) = some (d.addressed w a.toNat, rs) := by
  have ha := a.isLt
  refine ⟨[Config.freeByte k, Config.freeByte (k + 1), Config.freeByte (k + 1 + 1)], rfl, ?_⟩
  have hl : ∀ e : Device, e.alatch = 0 →
      (Device.latch { e with alatch := e.latch (a.extractLsb' 8 8), dpos := .a0 } (a.extractLsb' 0 8)).toNat = a.toNat := by
    intro e he
    simp only [latch_toNat, he]
    simp [Nat.shiftRight_eq_div_pow]
    omega
  simp only [headerS, Device.exchanges]
  rw [exchange_cmd _ _ _ _ rfl]
  simp only [Device.exchange, Variant.capacity]
  have h := hl { d with isWrite := w, alatch := 0, moved := false, dpos := .a1 } rfl
  simp only [Option.some.injEq, Prod.mk.injEq, and_true, Device.addressed, Device.select, Device.mk.injEq, true_and]
  refine ⟨?_, ?_⟩
  · exact (congrArg (· % 65536) h).trans (Nat.mod_eq_of_lt ha)
  · apply BitVec.eq_of_toNat_eq
    refine h.trans ?_
    simp
    omega

/-- A Large header at a selected device. -/
theorem exchanges_headerL (w : Bool) (a : BitVec 17) (k : Nat) (d : Device) :
    ∃ rs, rs.length = 4 ∧ Device.exchanges .large k d.select (headerL (cmdOf w) a) = some (d.addressed w a.toNat, rs) := by
  have ha := a.isLt
  refine ⟨[Config.freeByte k, Config.freeByte (k + 1), Config.freeByte (k + 1 + 1), Config.freeByte (k + 1 + 1 + 1)],
    rfl, ?_⟩
  have hl : ∀ e : Device, e.alatch = 0 →
      (Device.latch { e with
        alatch := Device.latch { e with alatch := e.latch ((a.extractLsb' 16 1).setWidth 8), dpos := .a1 }
          (a.extractLsb' 8 8)
        dpos := .a0 } (a.extractLsb' 0 8)).toNat = a.toNat := by
    intro e he
    simp only [latch_toNat, he]
    simp [Nat.shiftRight_eq_div_pow]
    omega
  simp only [headerL, Device.exchanges]
  rw [exchange_cmd _ _ _ _ rfl]
  simp only [Device.exchange, Variant.capacity]
  have h := hl { d with isWrite := w, alatch := 0, moved := false, dpos := .a2 } rfl
  simp only [Option.some.injEq, Prod.mk.injEq, and_true, Device.addressed, Device.select, Device.mk.injEq, true_and]
  refine ⟨?_, ?_⟩
  · exact (congrArg (· % 131072) h).trans (Nat.mod_eq_of_lt ha)
  · apply BitVec.eq_of_toNat_eq
    refine h.trans ?_
    simp
    omega

/-- Data bytes read (20_memory.md R73). -/
theorem exchanges_read (v : Variant) (ds : List Byte) : ∀ (k : Nat) (T : Device), T.dpos = .rd → Moves T ds.length →
    T.ptr < v.capacity →
    Device.exchanges v k T ds = some (T.readMany v ds.length,
      (List.range ds.length).map fun j => T.byteAt ((T.ptr + j) % v.capacity)) := by
  induction ds with
  | nil => intros; rfl
  | cons b ds ih =>
    intro k T hd hm hp
    simp only [Device.exchanges, Device.exchange, hd, hm.mayMove, if_true]
    rw [ih (k + 1) { T with dpos := .rd, ptr := T.nextPtr v, moved := true } rfl (hm.next rfl) (Nat.mod_lt _ (capacity_pos v))]
    have hT : ({ T with dpos := .rd } : Device) = T := by rw [← hd]
    simp only [List.length_cons, Device.readMany, List.range_succ_eq_map, List.map_cons, List.map_map, Nat.add_zero,
      Nat.mod_eq_of_lt hp, Option.some.injEq, Prod.mk.injEq, List.cons.injEq, true_and]
    refine ⟨by rw [← hd], List.map_congr_left ?_⟩
    intro j _
    simp only [Function.comp, Device.nextPtr, succ_mod]
    exact byteAt_congr rfl _

/-- Data bytes written (20_memory.md R73). -/
theorem exchanges_write (v : Variant) (ds : List Byte) : ∀ (k : Nat) (T : Device), T.dpos = .wr → Moves T ds.length →
    ∃ rs, rs.length = ds.length ∧ Device.exchanges v k T ds = some (T.writeMany v ds, rs) := by
  induction ds with
  | nil => intros; exact ⟨[], rfl, rfl⟩
  | cons b ds ih =>
    intro k T hd hm
    obtain ⟨rs, hl, h⟩ := ih (k + 1)
      { T with mem := Memory.poke T.mem T.ptr b, ptr := T.nextPtr v, moved := true } hd (hm.next rfl)
    refine ⟨Config.freeByte k :: rs, by simp [hl], ?_⟩
    simp only [Device.exchanges, Device.exchange, hd, hm.mayMove, if_true, Device.writeMany]
    rw [hd] at h
    rw [h]

theorem readMany_ptr (v : Variant) (k : Nat) : ∀ T : Device, T.ptr < v.capacity →
    (T.readMany v k).ptr = (T.ptr + k) % v.capacity := by
  induction k with
  | zero => intro T h; simp [Device.readMany, Nat.mod_eq_of_lt h]
  | succ k ih =>
    intro T h
    rw [Device.readMany, ih _ (Nat.mod_lt _ (capacity_pos v))]
    simp only [Device.nextPtr, succ_mod]

theorem writeMany_ptr (v : Variant) (bytes : List Byte) : ∀ T : Device, T.ptr < v.capacity →
    (T.writeMany v bytes).ptr = (T.ptr + bytes.length) % v.capacity := by
  induction bytes with
  | nil => intro T h; simp [Device.writeMany, Nat.mod_eq_of_lt h]
  | cons b rest ih =>
    intro T h
    rw [Device.writeMany, ih _ (Nat.mod_lt _ (capacity_pos v))]
    simp only [Device.nextPtr, succ_mod, List.length_cons]

end Sys2Proof.Machine
end

