-- ==== Sys2Proof/Laws/Requests.lean ====
section
/-! SUPPORT. Requests: when they are accepted and how they complete. -/

namespace Sys2Proof.Machine

/-- A request that is accepted and whose operation runs to its end. -/
theorem perform_ok {refusal : State → Option Refusal} {body : State → Run Unit} {s t : State}
    (hb : s.busy = false) (hr : refusal s = none) (h : body (accept s) = .ok () t) :
    perform refusal body s = .next (complete t) := by
  simp [perform, hb, hr, h, Run.finish]

/-- Everything `perform` can do when it answers a next state: the operation completed, or it hangs. -/
theorem perform_next {refusal : State → Option Refusal} {body : State → Run Unit} {s t : State}
    (h : perform refusal body s = .next t) :
    s.busy = false ∧ refusal s = none ∧
      ((∃ u, body (accept s) = .ok () u ∧ t = complete u) ∨ body (accept s) = .hung t) := by
  unfold perform at h
  cases hb : s.busy with
  | true => simp [hb] at h
  | false =>
    cases hr : refusal s with
    | some r => simp [hb, hr] at h
    | none =>
      simp only [hb, hr, Bool.false_eq_true, if_false] at h
      refine ⟨rfl, rfl, ?_⟩
      cases hm : body (accept s) with
      | ok a u => simp only [hm, Run.finish, Host.Outcome.next.injEq] at h; exact .inl ⟨u, rfl, h.symm⟩
      | hung u => simp only [hm, Run.finish, Host.Outcome.next.injEq] at h; exact .inr (by rw [h])
      | refused r => simp [hm, Run.finish] at h

theorem dataRefusal_ready {s : State} (h : Ready s) : dataRefusal s = none := by
  simp [dataRefusal, h.line, h.bus, h.device]

/-- The state handed to an operation is as admitted as the state the request met. -/
theorem returns_accept {s : State} (h : Returns s) : Returns (accept s) := h

theorem healthy_accept {s : State} (h : Healthy s) : Healthy (accept s) := ⟨h.there, h.delivered⟩

/-- What a wire trace stored newest first gains. -/
theorem wireTrace_of_wire {s t : State} {new : List WireEvent} (h : t.wire = new.reverse ++ s.wire) :
    t.wireTrace = s.wireTrace ++ new := by simp [State.wireTrace, h]

theorem SameStore.kept {s t : State} (h : SameStore s.dev t.dev) : DeviceKept s t :=
  ⟨fun x => byteAt_congr h.1 x, h.2⟩

end Sys2Proof.Machine
end

