-- ==== Sys2Proof/Laws/Rules.lean ====
section
/-! SUPPORT. Two rules for reasoning about a run piece by piece: what holds after every piece, and what holds between two
runs of it. -/

namespace Sys2Proof.Machine

/-! ### One run -/

/-- `Q` holds when the piece goes on, `H` holds when it hangs; nothing is said of a refusal. -/
def Run.Post {α : Type} (m : Run α) (Q : α → State → Prop) (H : State → Prop) : Prop :=
  match m with
  | .ok a s => Q a s
  | .hung s => H s
  | .refused _ => True

theorem Run.Post.bind {α β : Type} {m : Run α} {k : α → State → Run β} {P : α → State → Prop} {Q : β → State → Prop}
    {H : State → Prop} (h : m.Post P H) (hk : ∀ a s, P a s → (k a s).Post Q H) : (m.bind k).Post Q H := by
  cases m with
  | ok a s => exact hk a s h
  | hung s => exact h
  | refused r => trivial

theorem Run.Post.mono {α : Type} {m : Run α} {P Q : α → State → Prop} {G H : State → Prop} (h : m.Post P G)
    (hq : ∀ a s, P a s → Q a s) (hh : ∀ s, G s → H s) : m.Post Q H := by
  cases m with
  | ok a s => exact hq a s h
  | hung s => exact hh s h
  | refused r => trivial

/-- From the pieces of an operation to the step that requests it. -/
theorem Run.Post.perform {refusal : State → Option Refusal} {body : State → Run Unit} {Q H : State → Prop} {s t : State}
    (h : s.busy = false → refusal s = none → (body (accept s)).Post (fun _ u => Q (complete u)) H)
    (e : perform refusal body s = .next t) : Q t ∨ H t := by
  obtain ⟨hb, hr, ⟨u, hu, rfl⟩ | hu⟩ := perform_next e
  · have := h hb hr
    rw [hu] at this
    exact .inl this
  · have := h hb hr
    rw [hu] at this
    exact .inr this

/-- Everything one exchange can end in: it goes on with what the environment answers, or it hangs on a stalled bus. -/
theorem exchange_post {ev : Byte → Byte → WireEvent} {tx : Byte} {s : State} {Q : Byte → State → Prop} {H : State → Prop}
    (hq : ∀ d rx, respond s tx = some (d, rx) → Q rx (afterExchange s d (ev tx rx)))
    (hh : nextFate s = .stalled → H s) : (exchange ev tx s).Post Q H := by
  unfold exchange
  split
  · trivial
  · split
    · rename_i h
      exact hh h
    · split
      · trivial
      · rename_i h
        exact hq _ _ h

/-- One byte sent at a position of the frame. -/
theorem send_post {p : Phase} {tx : Byte} {s : State} {Q : Unit → State → Prop} {H : State → Prop}
    (hq : ∀ d rx, respond s tx = some (d, rx) → Q () (afterExchange (setPhase p s) d (.x tx rx)))
    (hh : nextFate s = .stalled → H (setPhase p s)) : (send p tx s).Post Q H :=
  (exchange_post (Q := fun _ t => Q () t) hq hh).bind fun _ _ h => h

/-- Everything a call of `BusInit` by the block can end in. -/
theorem busInit_post {s : State} {Q : Unit → State → Prop} {H : State → Prop}
    (hq : nextFate s ≠ .stalled → Q () (markBusInit { s with fates := s.fates.tail }))
    (hh : nextFate s = .stalled → H s) : (busInit s).Post Q H := by
  unfold busInit
  split
  · rename_i h
    exact hh h
  · rename_i h
    exact hq h

/-- What the environment's part of an exchange can do to the device: nothing without a device; else the device takes the
exchange or loses the frame. -/
theorem respond_device {s : State} {tx rx : Byte} {d : Device} (h : respond s tx = some (d, rx)) :
    (s.devPresent = false ∧ d = s.dev) ∨
      (s.devPresent = true ∧ (d = s.dev.lose ∨ ∃ f r, s.dev.exchange s.cfg.variant f tx = some (d, r))) := by
  unfold respond at h
  cases hp : s.devPresent with
  | false =>
    simp only [hp, Bool.not_false, if_true, Option.some.injEq, Prod.mk.injEq] at h
    exact .inl ⟨rfl, h.1.symm⟩
  | true =>
    refine .inr ⟨rfl, ?_⟩
    simp only [hp, Bool.not_true, Bool.false_eq_true, if_false] at h
    split at h
    · split at h
      · obtain ⟨⟨e, r⟩, hp, he⟩ := Option.map_eq_some_iff.mp h
        simp only [Prod.mk.injEq] at he
        obtain ⟨rfl, -⟩ := he
        exact .inr ⟨_, _, hp⟩
      · simp only [Option.some.injEq, Prod.mk.injEq] at h
        exact .inl h.1.symm
    · exact .inr ⟨_, _, h⟩

/-- What must be shown of a family of predicates, one for each position of the bracket, for a READ or WRITE bracket to
carry it through: the pieces of 30_encoding.md R91. -/
structure BracketRule (cmd : Byte) (I : BracketPos → State → Prop) (H : State → Prop) : Prop where
  buffer : ∀ s b, I .opened s → I .opened { s with abuf := b }
  opens : ∀ s, I .closed s → I .opened (openBracket s)
  command : ∀ s, I .opened s → (send .cmd cmd s).Post (fun _ t => I .inFrame t) H
  address : ∀ p tx s, p = .addr2 ∨ p = .addr1 ∨ p = .addr0 → I .inFrame s →
    (send p tx s).Post (fun _ t => I .inFrame t) H
  data : ∀ s, I .inFrame s → I .inFrame (setPhase .data s)
  closes : ∀ s, I .inFrame s → I .closed (closeBracket s)

theorem bracket_post {α : Type} {cmd : Byte} {I : BracketPos → State → Prop} {H : State → Prop} {a : Word}
    {body : State → Run α} {s : State} (r : BracketRule cmd I H) (h : I .closed s)
    (hb : ∀ s, I .inFrame s → (body (setPhase .data s)).Post (fun _ t => I .inFrame t) H) :
    (bracket cmd a body s).Post (fun _ t => I .closed t) H := by
  unfold bracket
  refine Run.Post.bind (P := fun _ t => I .inFrame t) ?_ fun _ t ht => (hb t ht).bind fun _ u hu => r.closes u hu
  have ho := r.opens s h
  unfold sendHeader
  cases (openBracket s).cfg.variant with
  | small =>
    exact (r.command _ ho).bind fun _ _ h1 => (r.address _ _ _ (.inr (.inl rfl)) h1).bind fun _ _ h2 =>
      r.address _ _ _ (.inr (.inr rfl)) h2
  | large =>
    exact (r.command _ (r.buffer _ _ ho)).bind fun _ _ h1 => (r.address _ _ _ (.inl rfl) h1).bind fun _ _ h2 =>
      (r.address _ _ _ (.inr (.inl rfl)) h2).bind fun _ _ h3 => r.address _ _ _ (.inr (.inr rfl)) h3

/-! ### Two runs -/

/-- Two pieces end alike, with the same value, in states that `R` relates. -/
def Run.Rel {α : Type} (R : State → State → Prop) (m m' : Run α) : Prop :=
  match m, m' with
  | .ok a s, .ok a' s' => a = a' ∧ R s s'
  | .hung s, .hung s' => R s s'
  | .refused r, .refused r' => r = r'
  | _, _ => False

theorem Run.Rel.bind {α β : Type} {R : State → State → Prop} {m m' : Run α} {k k' : α → State → Run β}
    (h : m.Rel R m') (hk : ∀ a s s', R s s' → (k a s).Rel R (k' a s')) : (m.bind k).Rel R (m'.bind k') := by
  cases m <;> cases m' <;> simp only [Run.Rel, Run.bind] at h ⊢
  case ok.ok a s a' s' =>
    obtain ⟨rfl, h⟩ := h
    exact hk _ _ _ h
  all_goals exact h

/-- Two outcomes of a step of the same kind, next states related by `R`. -/
def OutcomeRel (R : State → State → Prop) (o o' : Host.Outcome State Fault Refusal) : Prop :=
  match o, o' with
  | .next t, .next t' => R t t'
  | .refused r, .refused r' => r = r'
  | _, _ => False

theorem Run.Rel.finish {R : State → State → Prop} {m m' : Run Unit} (h : m.Rel R m')
    (hR : ∀ s s', R s s' → R (complete s) (complete s')) : OutcomeRel R m.finish m'.finish := by
  cases m <;> cases m' <;> simp only [Run.Rel, Run.finish, OutcomeRel] at h ⊢
  case ok.ok a s a' s' => exact hR _ _ h.2
  all_goals exact h

end Sys2Proof.Machine
end

