-- ==== Sys2Proof/Laws/Events.lean ====
section
/-! SUPPORT. The event machine: a list of actions run one after another, and what some number of event steps make of it. -/

namespace Sys2Proof.Machine

/-- A list of actions run without a stop between two of them. -/
def runActions : List Action → Byte → State → Run Byte
  | [], rx, s => .ok rx s
  | act :: rest, rx, s => (act.run rx s).bind fun rx s => runActions rest rx s

@[simp] theorem runActions_nil (rx : Byte) (s : State) : runActions [] rx s = .ok rx s := rfl
theorem runActions_cons (act : Action) (rest : List Action) (rx : Byte) (s : State) :
    runActions (act :: rest) rx s = (act.run rx s).bind fun rx s => runActions rest rx s := rfl

theorem runActions_append (as bs : List Action) (rx : Byte) (s : State) :
    runActions (as ++ bs) rx s = (runActions as rx s).bind fun rx s => runActions bs rx s := by
  induction as generalizing rx s with
  | nil => rfl
  | cons act rest ih =>
    rw [List.cons_append, runActions_cons, runActions_cons]
    cases act.run rx s with
    | ok rx' s' => exact ih rx' s'
    | hung s' => rfl
    | refused r => rfl

/-- What an action leaves alone, and where one that never returns leaves the state: as it was. -/
theorem Action.run_post (act : Action) (rx : Byte) (s : State) :
    (act.run rx s).Post (fun _ t => t.busy = s.busy ∧ t.cfg = s.cfg) (fun t => t = s) := by
  have hx : ∀ ev tx, (exchange ev tx s).Post (fun _ t => t.busy = s.busy ∧ t.cfg = s.cfg) (fun t => t = s) :=
    fun ev tx => exchange_post (fun _ _ _ => ⟨rfl, rfl⟩) fun _ => rfl
  cases act with
  | xfer tx => exact hx _ _
  | block i => exact (hx _ _).bind fun _ _ h => h
  | busInit =>
    have h : (Machine.busInit s).Post (fun _ t => t.busy = s.busy ∧ t.cfg = s.cfg) (fun t => t = s) :=
      busInit_post (fun _ => ⟨rfl, rfl⟩) fun _ => rfl
    exact h.bind (k := fun _ s => .ok rx s) fun _ _ h => h
  | _ => exact ⟨rfl, rfl⟩

/-- An event step of an operation in progress runs its next action. -/
theorem eventStep_cons {act : Action} {rest : List Action} {rx : Byte} {s : State} (hb : s.busy = true) :
    eventStep ⟨s, act :: rest, rx⟩ =
      match act.run rx s with
      | .ok rx t => .next ⟨t, rest, rx⟩
      | .hung _ => .next ⟨s, act :: rest, rx⟩
      | .refused r => .refused r := if_pos hb

/-- After the last action the operation completes. -/
theorem eventStep_nil {rx : Byte} {s : State} (hb : s.busy = true) :
    eventStep ⟨s, [], rx⟩ = .next (Sequenced.rest (complete s)) := if_pos hb

/-- A sequence that runs to its end does so in as many event steps as it has actions. -/
theorem eventSteps_of_ok {acts : List Action} : ∀ {rest : List Action} {rx rx' : Byte} {s t : State}, s.busy = true →
    runActions acts rx s = .ok rx' t → ∀ k, eventSteps (acts.length + k) ⟨s, acts ++ rest, rx⟩ = eventSteps k ⟨t, rest, rx'⟩ := by
  induction acts with
  | nil =>
    intro rest rx rx' s t _ h k
    cases h
    exact congrArg (eventSteps · _) (Nat.zero_add k)
  | cons act acts ih =>
    intro rest rx rx' s t hb h k
    have hp := act.run_post rx s
    rw [runActions_cons] at h
    cases hr : act.run rx s with
    | ok rx1 s1 =>
      rw [hr] at h hp
      have e : eventStep ⟨s, (act :: acts) ++ rest, rx⟩ = .next ⟨s1, acts ++ rest, rx1⟩ := by
        rw [List.cons_append, eventStep_cons hb, hr]
      rw [show (act :: acts).length + k = (acts.length + k) + 1 by simp only [List.length_cons]; omega]
      simp only [eventSteps, e]
      exact ih (hp.1.trans hb) h k
    | hung s1 => rw [hr] at h; cases h
    | refused r => rw [hr] at h; cases h

/-- A sequence that meets a primitive that never returns comes to a stop there that lasts. -/
theorem eventSteps_of_hung {acts : List Action} : ∀ {rest : List Action} {rx : Byte} {s t : State}, s.busy = true →
    runActions acts rx s = .hung t →
    ∃ k q, eventSteps k ⟨s, acts ++ rest, rx⟩ = .next q ∧ q.block = t ∧ t.busy = true ∧ eventStep q = .next q := by
  induction acts with
  | nil => intro rest rx s t _ h; cases h
  | cons act acts ih =>
    intro rest rx s t hb h
    have hp := act.run_post rx s
    rw [runActions_cons] at h
    cases hr : act.run rx s with
    | ok rx1 s1 =>
      rw [hr] at h hp
      have e : eventStep ⟨s, (act :: acts) ++ rest, rx⟩ = .next ⟨s1, acts ++ rest, rx1⟩ := by
        rw [List.cons_append, eventStep_cons hb, hr]
      obtain ⟨k, q, h1, h2⟩ := ih (rest := rest) (hp.1.trans hb) h
      exact ⟨k + 1, q, by simp only [eventSteps, e, h1], h2⟩
    | hung s1 =>
      rw [hr] at h hp
      cases h
      cases hp
      refine ⟨0, _, rfl, rfl, hb, ?_⟩
      rw [List.cons_append, eventStep_cons hb, hr]
    | refused r => rw [hr] at h; cases h

/-- A sequence that meets something without a meaning is refused there. -/
theorem eventSteps_of_refused {acts : List Action} : ∀ {rest : List Action} {rx : Byte} {s : State} {r : Refusal},
    s.busy = true → runActions acts rx s = .refused r → ∃ k, eventSteps k ⟨s, acts ++ rest, rx⟩ = .refused r := by
  induction acts with
  | nil => intro rest rx s r _ h; cases h
  | cons act acts ih =>
    intro rest rx s r hb h
    have hp := act.run_post rx s
    rw [runActions_cons] at h
    cases hr : act.run rx s with
    | ok rx1 s1 =>
      rw [hr] at h hp
      have e : eventStep ⟨s, (act :: acts) ++ rest, rx⟩ = .next ⟨s1, acts ++ rest, rx1⟩ := by
        rw [List.cons_append, eventStep_cons hb, hr]
      obtain ⟨k, h1⟩ := ih (rest := rest) (hp.1.trans hb) h
      exact ⟨k + 1, by simp only [eventSteps, e, h1]⟩
    | hung s1 => rw [hr] at h; cases h
    | refused r1 =>
      rw [hr] at h
      cases h
      refine ⟨1, ?_⟩
      rw [List.cons_append, eventSteps, eventStep_cons hb, hr]

end Sys2Proof.Machine
end

