-- ==== Sys2Proof/Laws/PerInstr.lean ====
section
/-! SUPPORT. The statement made of every instruction: how long its frame is (30_encoding.md R90). -/

namespace Sys2Proof.Laws.FrameLength

/-- The fixed part of a frame: 2 bytes for W-MR, 3 for a W-A16 header, 4 for a W-A24 header, 1 for READ_MODE_REGISTER
(30_encoding.md R90, R82). -/
def header : Instr → Nat
  | .writeModeRegister => 2
  | .readS _ _ | .writeS _ _ => 3
  | .readL _ _ | .writeL _ _ => 4
  | .readModeRegister _ => 1
  | .create _ | .initializeDevice | .length => 0
  | .read _ | .write _ _ | .update _ _ | .get _ _ | .put _ _ | .erase | .checksum _ _ | .index _ => 0
  | .reservedB | .reservedC | .reservedD | .reservedE | .reservedF => 0

/-- The number of data bytes of a frame. -/
def data : Instr → Nat
  | .readS _ ds | .writeS _ ds | .readL _ ds | .writeL _ ds | .readModeRegister ds => ds.length
  | .writeModeRegister => 0
  | .create _ | .initializeDevice | .length => 0
  | .read _ | .write _ _ | .update _ _ | .get _ _ | .put _ _ | .erase | .checksum _ _ | .index _ => 0
  | .reservedB | .reservedC | .reservedD | .reservedE | .reservedF => 0

/-- A wire command is encoded as a frame of its header and its data, and nothing else is a frame. -/
def Statement (i : Instr) : Prop :=
  match encode i with
  | .request _ => Machine.isWireCommand i = false
  | .frame bytes => Machine.isWireCommand i = true ∧ bytes.length = header i + data i

theorem create (auto : Bool) : Statement (.create auto) := rfl
theorem initializeDevice : Statement .initializeDevice := rfl
theorem length : Statement .length := rfl
theorem read (a : Word) : Statement (.read a) := rfl
theorem write (a : Word) (v : Byte) : Statement (.write a v) := rfl
theorem update (a : Word) (v : Byte) : Statement (.update a v) := rfl
theorem get (a : Word) (n : Nat) : Statement (.get a n) := rfl
theorem put (a : Word) (w : List Byte) : Statement (.put a w) := rfl
theorem erase : Statement .erase := rfl
theorem checksum (a len : Word) : Statement (.checksum a len) := rfl
theorem index (a : Word) : Statement (.index a) := rfl
theorem reservedB : Statement .reservedB := rfl
theorem reservedC : Statement .reservedC := rfl
theorem reservedD : Statement .reservedD := rfl
theorem reservedE : Statement .reservedE := rfl
theorem reservedF : Statement .reservedF := rfl
theorem writeModeRegister : Statement .writeModeRegister := ⟨rfl, rfl⟩

theorem readS (a : BitVec 16) (ds : List Byte) : Statement (.readS a ds) := by
  refine ⟨rfl, ?_⟩
  simp only [headerS, header, data, List.cons_append, List.nil_append, List.length_cons]
  omega

theorem writeS (a : BitVec 16) (ds : List Byte) : Statement (.writeS a ds) := by
  refine ⟨rfl, ?_⟩
  simp only [headerS, header, data, List.cons_append, List.nil_append, List.length_cons]
  omega

theorem readL (a : BitVec 17) (ds : List Byte) : Statement (.readL a ds) := by
  refine ⟨rfl, ?_⟩
  simp only [headerL, header, data, List.cons_append, List.nil_append, List.length_cons]
  omega

theorem writeL (a : BitVec 17) (ds : List Byte) : Statement (.writeL a ds) := by
  refine ⟨rfl, ?_⟩
  simp only [headerL, header, data, List.cons_append, List.nil_append, List.length_cons]
  omega

theorem readModeRegister (ds : List Byte) : Statement (.readModeRegister ds) := by
  refine ⟨rfl, ?_⟩
  simp [header, data, Nat.add_comm]

end Sys2Proof.Laws.FrameLength
end

