-- ==== Sys2Proof/Tests/Slice0.lean ====
section
/-! SUPPORT. Tests: what the well-formedness checks refuse, every constructor's decoding, one or two steps of every
instruction, and for every statement with hypotheses a state that meets them. Expected values are the vectors of
95_test_vectors.md where a name says so; numeric checksums rest on K1 (log 9). -/

namespace Sys2Proof.Machine

/-! ### Small states -/

/-- A configuration with room for eight payload bytes. -/
def cfgOf (v : Variant) : Config := { variant := v, nMax := 8, dummy := 0x00, crcPoly := 0xA001 }

/-- A block at reset. -/
def freshOf (v : Variant) : State := State.resetOf (cfgOf v)

/-- A block ready for data operations, its device in sequential mode and holding `m`. -/
def idleOf (v : Variant) (m : List Host.Cell) : State :=
  { freshOf v with
    csCfg := true, busInited := true, inited := true
    dev := { Device.fresh with mem := m, mode := modeSeq } }

/-- The same block with its device in a mode that is not sequential. -/
def plainOf (v : Variant) : State := { idleOf v [] with dev := Device.fresh }

/-- The same block with no device on the bus. -/
def absentOf (v : Variant) : State := { idleOf v [] with devPresent := false }

/-- The same block on a bus whose transfer number `k` never returns. -/
def stallingOf (v : Variant) (k : Nat) : State :=
  { idleOf v [] with fates := List.replicate k .delivered ++ [.stalled] }

/-- A block before `create` whose first `BusInit` never returns. -/
def stalledInitOf (v : Variant) : State := { freshOf v with fates := [.stalled] }

/-- Whether an outcome is a next state with a property. -/
def after (o : Host.Outcome State Fault Refusal) (p : State → Bool) : Bool :=
  match o with
  | .next t => p t
  | .fault _ => false
  | .refused _ => false

/-- Whether an outcome is the given refusal. -/
def refusedAs (o : Host.Outcome State Fault Refusal) (r : Refusal) : Bool :=
  match o with
  | .next _ => false
  | .fault _ => false
  | .refused r' => r' == r

theorem next_of_after {o : Host.Outcome State Fault Refusal} {p : State → Bool} (h : after o p = true) :
    ∃ t, o = .next t ∧ p t = true := by
  cases o with
  | next t => exact ⟨t, rfl, h⟩
  | fault f => cases h
  | refused r => cases h

theorem idleOf_ready (v : Variant) (m : List Host.Cell) : Ready (idleOf v m) := ⟨⟨rfl, rfl, rfl⟩, rfl⟩
theorem idleOf_healthy (v : Variant) (m : List Host.Cell) : Healthy (idleOf v m) := ⟨rfl, (fun _ h => nomatch h)⟩
theorem idleOf_returns (v : Variant) (m : List Host.Cell) : Returns (idleOf v m) := (idleOf_healthy v m).returns
theorem idleOf_sequential (v : Variant) (m : List Host.Cell) : SequentialMode (idleOf v m) := rfl
theorem idleOf_region (v : Variant) (m : List Host.Cell) : (idleOf v m).dbuf.length = (idleOf v m).cfg.nMax := by
  simp [idleOf, freshOf, State.resetOf]

theorem not_sequential (v : Variant) : ¬SequentialMode (plainOf v) := fun h => by
  have h : (0x00 : Byte) = 0x40 := h
  exact absurd h (by decide)

/-! ### What the well-formedness checks refuse -/

theorem smoke_get_empty : wellFormed (cfgOf .small) (.get 0 0) = false := by decide
theorem smoke_get_too_long : wellFormed (cfgOf .small) (.get 0 9) = false := by decide
theorem smoke_put_empty : wellFormed (cfgOf .large) (.put 0 []) = false := by decide
theorem smoke_put_too_long : wellFormed (cfgOf .large) (.put 0 (List.replicate 9 0x5A)) = false := by decide
theorem smoke_checksum_small_length : wellFormed (cfgOf .small) (.checksum 0 0x10000) = false := by decide
theorem smoke_readS_on_large : wellFormed (cfgOf .large) (.readS 0 [0x00]) = false := by decide
theorem smoke_readS_no_data : wellFormed (cfgOf .small) (.readS 0 []) = false := by decide
theorem smoke_writeS_on_large : wellFormed (cfgOf .large) (.writeS 0 [0x00]) = false := by decide
theorem smoke_writeS_no_data : wellFormed (cfgOf .small) (.writeS 0 []) = false := by decide
theorem smoke_readL_on_small : wellFormed (cfgOf .small) (.readL 0 [0x00]) = false := by decide
theorem smoke_readL_no_data : wellFormed (cfgOf .large) (.readL 0 []) = false := by decide
theorem smoke_writeL_on_small : wellFormed (cfgOf .small) (.writeL 0 [0x00]) = false := by decide
theorem smoke_writeL_no_data : wellFormed (cfgOf .large) (.writeL 0 []) = false := by decide
theorem smoke_readModeRegister_no_data : wellFormed (cfgOf .small) (.readModeRegister []) = false := by decide

/-! ### Decoding: words written out from 30_encoding.md R81, R82, R96 -/

/-- A request whose operand fields are all different, so that a field read in the wrong place shows. -/
def fullRequest (op : BitVec 4) : Request :=
  { op := op, auto := true, addr := 0x12345678, len := 0x9ABCDEF0, val := 0x5A, n := 2, wbuf := [0xC3, 0x3C] }

theorem decode_create : decodeRequest (fullRequest 0b0000) = .ok (.create true) := by decide
theorem decode_initializeDevice : decodeRequest (fullRequest 0b0001) = .ok .initializeDevice := by decide
theorem decode_length : decodeRequest (fullRequest 0b0010) = .ok .length := by decide
theorem decode_read : decodeRequest (fullRequest 0b0011) = .ok (.read 0x12345678) := by decide
theorem decode_write : decodeRequest (fullRequest 0b0100) = .ok (.write 0x12345678 0x5A) := by decide
theorem decode_update : decodeRequest (fullRequest 0b0101) = .ok (.update 0x12345678 0x5A) := by decide
theorem decode_get : decodeRequest (fullRequest 0b0110) = .ok (.get 0x12345678 2) := by decide
theorem decode_put : decodeRequest (fullRequest 0b0111) = .ok (.put 0x12345678 [0xC3, 0x3C]) := by decide
theorem decode_erase : decodeRequest (fullRequest 0b1000) = .ok .erase := by decide
theorem decode_checksum : decodeRequest (fullRequest 0b1001) = .ok (.checksum 0x12345678 0x9ABCDEF0) := by decide
theorem decode_index : decodeRequest (fullRequest 0b1010) = .ok (.index 0x12345678) := by decide
theorem decode_reservedB : decodeRequest (fullRequest 0b1011) = .ok .reservedB := by decide
theorem decode_reservedC : decodeRequest (fullRequest 0b1100) = .ok .reservedC := by decide
theorem decode_reservedD : decodeRequest (fullRequest 0b1101) = .ok .reservedD := by decide
theorem decode_reservedE : decodeRequest (fullRequest 0b1110) = .ok .reservedE := by decide
theorem decode_reservedF : decodeRequest (fullRequest 0b1111) = .ok .reservedF := by decide

theorem decode_writeModeRegister :
    decodeFrame .large [0b00000001, 0b01000000] = .ok .writeModeRegister := by decide
theorem decode_readS :
    decodeFrame .small [0b00000011, 0b00010010, 0b00110100, 0x00] = .ok (.readS 0x1234 [0x00]) := by decide
theorem decode_writeS :
    decodeFrame .small [0b00000010, 0b00010010, 0b00110100, 0xAB] = .ok (.writeS 0x1234 [0xAB]) := by decide
theorem decode_readL :
    decodeFrame .large [0b00000011, 0b00000001, 0b11111111, 0b11111111, 0x00] = .ok (.readL 0x1FFFF [0x00]) := by decide
theorem decode_writeL :
    decodeFrame .large [0b00000010, 0b00000001, 0b00100011, 0b01000101, 0x7F] = .ok (.writeL 0x12345 [0x7F]) := by decide
theorem decode_readModeRegister :
    decodeFrame .small [0b00000101, 0x00, 0x00] = .ok (.readModeRegister [0x00, 0x00]) := by decide

/-! What the decoder refuses, by name. -/

theorem decode_refuses_wbuf : decodeRequest { fullRequest 0b0111 with n := 3 } = .error .wbufSize := by decide
theorem decode_refuses_command : decodeFrame .small [0x9F, 0x00] = .error (.unknownCommand 0x9F) := by decide
theorem decode_refuses_mode_byte : decodeFrame .small [0x01, 0x41] = .error (.modeByte 0x41) := by decide
theorem decode_refuses_long_mode_frame : decodeFrame .small [0x01, 0x40, 0x40] = .error .modeFrameLength := by decide
theorem decode_refuses_short_header : decodeFrame .large [0x03, 0x00, 0x00] = .error .shortHeader := by decide
theorem decode_refuses_no_data : decodeFrame .small [0x03, 0x00, 0x00] = .error .noData := by decide
theorem decode_refuses_high_address : decodeFrame .large [0x03, 0x02, 0x00, 0x00, 0x00] = .error .addressHigh := by decide
theorem decode_refuses_empty : decodeFrame .large [] = .error .emptyFrame := by decide

/-! The words of spec/opcode_table.json, placed where the next step takes its input: the step runs the row's instruction. -/

theorem step_runs_create : after (step (State.reset.withFetchWord 8 0x0)) (fun t => t.csCfg) = true := by decide
theorem step_runs_length : after (step (State.reset.withFetchWord 8 0x2)) (fun t => t.done) = true := by decide
theorem step_runs_reservedC :
    refusedAs (step (State.reset.withFetchWord 8 0xC)) (.reservedCode 0xC) = true := by decide
theorem step_runs_writeModeRegister :
    after (step (State.reset.withFetchWord 16 0x0140)) (fun t => t.dev.mode == 0x40) = true := by decide
theorem step_runs_readS :
    after (step (State.reset.withFetchWord 24 0x031234)) (fun t => t.dev.ptr == 0x1235) = true := by decide
theorem step_runs_writeL :
    after (step (State.reset.withFetchWord 32 0x0201FFFF)) (fun t => t.dev.mem == [(0x1FFFF, 0x00)]) = true := by decide

/-! ### Addresses and the fold unit -/

theorem test_frame_small : encode (.readS 0x1234 [0x00]) = .frame [0x03, 0x12, 0x34, 0x00] := by decide
theorem test_frame_large : encode (.writeL 0x12345 [0x7F]) = .frame [0x02, 0x01, 0x23, 0x45, 0x7F] := by decide
theorem test_V_A6 : maskAddr .small 0xFFFFFFFF = 0xFFFF := by decide
theorem test_V_A14 : maskAddr .large 0x00FE0001 = 0x00001 := by decide
theorem test_V_F11 : crc16Update 0xA001 0x1234 0x56 = 0xE993 := by decide
theorem test_V_F12 : crc16Update 0xA001 0x8000 0x00 = 0x0080 := by decide

/-! ### One step of every instruction -/

theorem test_V_S1_create :
    after (exec (.create false) (freshOf .small)) (fun t => t.csCfg && t.csN && !t.inited && t.wire == [.cfg]) = true := by
  decide
theorem test_V_S2_create_auto :
    after (exec (.create true) (freshOf .small)) (fun t => t.inited && t.busInited && t.dev.mode == 0x40 &&
      t.wireTrace.map WireEvent.drive == [.cfg, .init, .csLow, .x 0x01, .x 0x40, .csHigh]) = true := by
  decide
theorem test_V_S3_initializeDevice :
    after (exec .initializeDevice { freshOf .large with csCfg := true, busInited := true })
      (fun t => t.inited && t.dev.mode == 0x40 && t.csN) = true := by
  decide
theorem test_V_S8_initializeDevice :
    refusedAs (exec .initializeDevice { freshOf .large with csCfg := true }) .busNotInitialised = true := by decide
theorem test_V_S5_length : after (exec .length (freshOf .small)) (fun t => t.res == 0x00010000) = true := by decide
theorem test_V_S6_length : after (exec .length (freshOf .large)) (fun t => t.res == 0x00020000) = true := by decide
theorem test_V_R2_read :
    after (exec (.read 0x11234) (idleOf .small [(0x1234, 0xAB)])) (fun t => t.res == 0xAB && t.csN && t.done) = true := by
  decide
theorem test_V_S9_read : refusedAs (exec (.read 0) (freshOf .small)) .notCreated = true := by decide
theorem test_V_R3_index :
    after (exec (.index 0x1FFFF) (idleOf .large [(0x1FFFF, 0xFF)])) (fun t => t.res == 0xFF &&
      t.wireTrace.map WireEvent.drive == [.csLow, .x 0x03, .x 0x01, .x 0xFF, .x 0xFF, .x 0x00, .csHigh]) = true := by
  decide
theorem test_V_W5_write :
    after (exec (.write 0x20004 0x7F) (idleOf .large [])) (fun t => t.dev.mem == [(4, 0x7F)] &&
      t.wireTrace.map WireEvent.drive == [.csLow, .x 0x02, .x 0x00, .x 0x00, .x 0x04, .x 0x7F, .csHigh]) = true := by
  decide
theorem test_write_scratch :
    after (exec (.write 0x12345 0x7F) (idleOf .large [])) (fun t => t.abuf == ⟨0x45, 0x23, 0x01, 0x00⟩) = true := by decide
theorem test_V_W3_update :
    after (exec (.update 0x0042 0x00) (idleOf .small [(0x42, 0x00)])) (fun t => t.dev.mem == [(0x42, 0x00)] &&
      t.wireTrace.map WireEvent.drive == [.csLow, .x 0x02, .x 0x00, .x 0x42, .x 0x00, .csHigh]) = true := by
  decide
theorem test_V_B6_get :
    after (exec (.get 0x3FFFE 4) (idleOf .large [(0, 0x33), (1, 0x44), (0x1FFFE, 0x11), (0x1FFFF, 0x22)]))
      (fun t => t.rbuf == [0x11, 0x22, 0x33, 0x44]) = true := by
  decide
theorem test_V_B8_get : refusedAs (exec (.get 0 0) (idleOf .small [])) .payloadSize = true := by decide
theorem test_V_B5_put :
    after (exec (.put 0x1FFFE [0x11, 0x22, 0x33, 0x44]) (idleOf .large []))
      (fun t => t.dev.mem == [(0, 0x33), (1, 0x44), (0x1FFFE, 0x11), (0x1FFFF, 0x22)] &&
        t.rbuf == [0x11, 0x22, 0x33, 0x44]) = true := by
  decide
theorem test_V_B4_put :
    after (exec (.put 0x0020 [0x5A]) (idleOf .small [])) (fun t =>
      t.wireTrace.map WireEvent.drive == [.csLow, .x 0x02, .x 0x00, .x 0x20, .b 0x5A, .csHigh]) = true := by
  decide
set_option maxRecDepth 10000 in
theorem test_V_K2_checksum :
    after (exec (.checksum 0 3) (idleOf .small [(0, 0x01), (1, 0x02), (2, 0x03)])) (fun t => t.res == 0xA110) = true := by
  decide
set_option maxRecDepth 10000 in
theorem test_V_K6_checksum :
    after (exec (.checksum 0x1FFFE 0x20003) (idleOf .large [(0, 0x33), (0x1FFFE, 0x11), (0x1FFFF, 0x22)]))
      (fun t => t.res == 0xB008 && t.dev.mem == [(0, 0x33), (0x1FFFE, 0x11), (0x1FFFF, 0x22)]) = true := by
  decide

/-- The erase frame up to a stall in its third zero byte (43_erase.md R170): 02 00 00, then zeros. -/
theorem test_erase_start :
    after (exec .erase (stallingOf .small 5)) (fun t => t.busy && t.cnt == 65534 && t.phase == .data &&
      t.dev.mem == [(0, 0x00), (1, 0x00)]) = true := by
  decide

theorem test_reservedB : refusedAs (exec .reservedB (idleOf .small [])) (.reservedCode 0xB) = true := by decide
theorem test_reservedC : refusedAs (exec .reservedC (idleOf .small [])) (.reservedCode 0xC) = true := by decide
theorem test_reservedD : refusedAs (exec .reservedD (idleOf .small [])) (.reservedCode 0xD) = true := by decide
theorem test_reservedE : refusedAs (exec .reservedE (idleOf .small [])) (.reservedCode 0xE) = true := by decide
theorem test_reservedF : refusedAs (exec .reservedF (idleOf .small [])) (.reservedCode 0xF) = true := by decide

theorem test_writeModeRegister :
    after (exec .writeModeRegister (plainOf .small)) (fun t => t.dev.mode == 0x40 && t.dev.dpos == .idle) = true := by decide
theorem test_readS :
    after (exec (.readS 0xFFFF [0x00, 0x00]) (idleOf .small [(0, 0xAD), (0xFFFF, 0xDE)]))
      (fun t => t.reply.drop 3 == [0xDE, 0xAD] && t.dev.ptr == 1) = true := by
  decide
theorem test_writeS :
    after (exec (.writeS 0xFFFF [0xDE, 0xAD]) (idleOf .small []))
      (fun t => t.dev.mem == [(0, 0xAD), (0xFFFF, 0xDE)]) = true := by
  decide
theorem test_readL :
    after (exec (.readL 0x10000 [0x00]) (idleOf .large [(0, 0x01), (0x10000, 0x02)]))
      (fun t => t.reply.drop 4 == [0x02]) = true := by
  decide
theorem test_writeL :
    after (exec (.writeL 0x1FFFF [0xFF]) (plainOf .large)) (fun t => t.dev.mem == [(0x1FFFF, 0xFF)]) = true := by decide
theorem test_writeS_needs_sequential :
    refusedAs (exec (.writeS 0 [0x01, 0x02]) (plainOf .small)) .deviceNoMeaning = true := by decide
theorem test_readModeRegister :
    after (exec (.readModeRegister [0x00, 0x00]) (idleOf .small [])) (fun t => t.reply.drop 1 == [0x40, 0x40]) = true := by
  decide

/-! The outside world, and a hang (95_test_vectors.md P4 row 8). -/

theorem test_host_bus_init :
    after (step { freshOf .small with inputs := [.busInit] }) (fun t => t.busInited && t.wire == [.init]) = true := by decide
theorem test_block_reset :
    after (step { idleOf .small [(5, 0x01)] with inputs := [.blockReset] })
      (fun t => !t.inited && !t.csCfg && t.busInited && t.dev.mem == [(5, 0x01)]) = true := by
  decide
theorem test_P4_hang :
    after (exec (.write 0 0x01) (stallingOf .small 2)) (fun t => t.busy && !t.csN && !t.done && t.phase == .addr0 &&
      t.wireTrace.map WireEvent.drive == [.csLow, .x 0x02, .x 0x00]) = true := by
  decide

theorem test_create_hang :
    after (exec (.create true) (stalledInitOf .small)) (fun t => t.busy && t.csN && t.csCfg && !t.busInited && !t.inited &&
      !t.done && t.wire == [.cfg]) = true := by
  decide

/-! The event machine (92_eei_decisions.md D1), one wire event or assignment a step. -/

/-- What `k` event steps from a state that has been given a request leave. -/
def afterEvents (k : Nat) (s : State) (i : Instr) (p : Sequenced → Bool) : Bool :=
  match eventSteps k (Sequenced.rest { s with inputs := [inputOf (encode i)] }) with
  | .next q => p q
  | .fault _ => false
  | .refused _ => false

/-- `write(0x1234, 0xAB)` after its header and before its data byte (95_test_vectors.md V-W1: `CS↓ 02 12 34 AB CS↑`). -/
theorem test_events_write :
    afterEvents 10 (idleOf .small []) (.write 0x1234 0xAB) (fun q => q.block.busy && !q.block.csN && q.block.phase == .addr0 &&
      q.block.wireTrace.map WireEvent.drive == [.csLow, .x 0x02, .x 0x12, .x 0x34] && q.block.dev.mem == []) = true := by
  decide

/-- The second data byte of a put has no meaning outside sequential mode (20_memory.md R74); the events before it stand. -/
theorem test_events_before_a_refusal :
    afterEvents 13 (plainOf .small) (.put 0 [0x11, 0x22]) (fun q => q.block.dev.mem == [(0, 0x11)] &&
      q.block.wireTrace.map WireEvent.drive == [.csLow, .x 0x02, .x 0x00, .x 0x00, .b 0x11]) = true := by
  decide

/-! ### Witnesses: a state and operands that meet the hypotheses of each statement -/

theorem witness_DecodeInvertsEncode :
    wellFormed (cfgOf .small) (.get 0xFFFFFFFF 8) = true ∧ wellFormed (cfgOf .small) (.checksum 0 0xFFFF) = true ∧
    wellFormed (cfgOf .small) (.readS 0xFFFF [0x00]) = true ∧ wellFormed (cfgOf .large) (.put 0 [0x5A]) = true ∧
    wellFormed (cfgOf .large) (.writeL 0x1FFFF [0x00]) = true := by decide

theorem witness_EncodeInvertsDecodeOfFrames :
    decode (cfgOf .large).variant (.frame [0x03, 0x01, 0xFF, 0xFF, 0x00]) = .ok (.readL 0x1FFFF [0x00]) ∧
    decode (cfgOf .small).variant (.frame [0x02, 0xFF, 0xFF, 0x00]) = .ok (.writeS 0xFFFF [0x00]) := by decide

theorem witness_HostRequestTable :
    (∀ op : BitVec 4, (requestOf op).op = op ∧ (requestOf op).wbuf.length = (requestOf op).n) ∧
    0xB ≤ (requestOf 0xB).op.toNat ∧ 0xB ≤ (requestOf 0xF).op.toNat := by decide

/-- Two requests for `length` that differ in every operand field; two for `write` that differ in what it does not read. -/
theorem witness_UnreadOperandFieldsAreIgnored :
    (requestOf 0x2).op = (fullRequest 0x2).op ∧ requestOf 0x2 ≠ fullRequest 0x2 ∧
    (fullRequest 0x4).addr = ({ fullRequest 0x4 with len := 0, n := 7, wbuf := [], auto := false } : Request).addr ∧
    (fullRequest 0x4).val = ({ fullRequest 0x4 with len := 0, n := 7, wbuf := [], auto := false } : Request).val := by
  decide

theorem witness_StepRunsTheDecodedInstruction :
    (idleOf .small []).busy = false ∧
    decode (idleOf .small []).cfg.variant (.request (fullRequest 0x3)) = .ok (.read 0x12345678) ∧
    decode (idleOf .small []).cfg.variant (.frame [0x05, 0x00]) = .ok (.readModeRegister [0x00]) := by decide

/-- An idle machine with a request, and one whose request will hang. -/
theorem witness_EventsMakeTheStep :
    ({ idleOf .small [] with inputs := [.request (fullRequest 0x3)] } : State).busy = false ∧
    after (step { stallingOf .small 2 with inputs := [.request (fullRequest 0x4)] }) (fun t => t.busy) = true := by decide

theorem witness_OneWireEventAtATime :
    afterEvents 4 (idleOf .small []) (.write 0x1234 0xAB) (fun q => q.block.wire == [.csLow] &&
      match eventStep q with | .next q' => q'.block.wire == [.csLow] | .fault _ => false | .refused _ => false) = true := by
  decide

/-- A state of the invariant that is not at reset, with a step that answers a next state. -/
theorem witness_StepKeepsTheInvariant :
    let s := { idleOf .small [(0xFFFF, 0xAB)] with inputs := [.request { requestOf 0x3 with addr := 0xFFFF }] }
    MachineInv s ∧ ∃ t, step s = .next t ∧ (t.res == 0xAB) = true := by
  refine ⟨⟨by decide, by decide, by decide, by decide, fun _ => ⟨rfl, rfl⟩, fun _ => by decide, (fun h => nomatch h)⟩, ?_⟩
  exact next_of_after (by decide)

theorem witness_ConfigurationIsNeverWritten :
    (∃ t, step { freshOf .large with inputs := [.blockReset] } = .next t ∧ (!t.csCfg) = true) ∧
    ∃ t, exec (.write 0 0x01) (idleOf .large []) = .next t ∧ t.done = true :=
  ⟨next_of_after (by decide), next_of_after (by decide)⟩

theorem witness_InitedIsOneWay :
    (∃ t, exec (.create true) (freshOf .small) = .next t ∧ (!t.busy && t.inited) = true) ∧
    (∃ t, exec .initializeDevice (idleOf .small []) = .next t ∧ (!t.busy) = true) ∧
    (freshOf .small).inited = false ∧ (idleOf .small []).inited = true ∧
    ∃ t, exec (.create true) (stalledInitOf .small) = .next t ∧ (t.busy && !t.inited) = true :=
  ⟨next_of_after (by decide), next_of_after (by decide), rfl, rfl, next_of_after (by decide)⟩

theorem witness_AccumulatorIsWrittenOnlyByChecksum :
    (∀ a len, Instr.write 3 0x55 ≠ .checksum a len) ∧
    ∃ t, exec (.write 3 0x55) { idleOf .small [] with acc := 0x1234 } = .next t ∧ (t.acc == 0x1234) = true :=
  ⟨(fun _ _ h => nomatch h), next_of_after (by decide)⟩

/-- A read on a bus that fails at its second transfer. -/
theorem witness_OnlyWriteFramesChangeTheDevice :
    writesDevice (.read 0) = false ∧ writesMode (.read 0) = false ∧ writesMode (.write 0 0x01) = false ∧
    writesDevice .initializeDevice = false ∧
    ∃ t, exec (.read 0) { absentOf .small with fates := [.delivered, .failed] } = .next t ∧ t.done = true :=
  ⟨rfl, rfl, rfl, rfl, next_of_after (by decide)⟩

theorem witness_OperationCompletesOrHangs :
    (∃ t, exec (.read 0) (idleOf .large []) = .next t ∧ (!t.busy && t.done) = true) ∧
    (∃ t, exec (.read 0) (stallingOf .large 0) = .next t ∧ (t.busy && !t.done && t.phase == .cmd) = true) ∧
    (∃ t, exec (.create true) (stalledInitOf .large) = .next t ∧ (t.busy && t.csN) = true) ∧
    isOperation (.read 0) = true ∧ isOperation (.create true) = true :=
  ⟨next_of_after (by decide), next_of_after (by decide), next_of_after (by decide), rfl, rfl⟩

theorem witness_ScratchRegistersDoNotPersist :
    SameButScratch (idleOf .large [])
      { idleOf .large [] with addr := 5, len := 6, val := 7, n := 3, res := 8, acc := 9, cur := 10, cnt := 11
                              abuf := ⟨1, 2, 3, 4⟩, dbuf := List.replicate 8 0xEE } :=
  ⟨by decide, rfl⟩

/-- A read and then a write, on an idle machine, and a write in progress. -/
theorem witness_OperationsAreFullyOrdered :
    let s := { idleOf .small [] with inputs := [.request (fullRequest 0x3), .request (fullRequest 0x4)] }
    s.busy = false ∧ decode s.cfg.variant (.request (fullRequest 0x3)) = .ok (.read 0x12345678) ∧
    decode s.cfg.variant (.request (fullRequest 0x4)) = .ok (.write 0x12345678 0x5A) ∧
    after (step s) (fun t => !t.busy && after (step t) fun u => u.dev.mem == [(0x5678, 0x5A)]) = true ∧
    afterEvents 4 (idleOf .small []) (.write 0 0x5A) (fun q => q.block.busy &&
      match eventStep q with | .next _ => true | .fault _ => false | .refused _ => false) = true := by decide

/-- The mode frame in two states that differ in the pointer. -/
theorem witness_NoFrameDependsOnThePointer :
    idleOf .small [] ≠ { idleOf .small [] with dev := { (idleOf .small []).dev with ptr := 7 } } ∧
    after (exec .initializeDevice { idleOf .small [] with dev := { (idleOf .small []).dev with ptr := 7 } })
      (fun t => t.done) = true := by decide

theorem witness_BusyRefusesEveryRequest : ({ idleOf .small [] with busy := true } : State).busy = true := rfl

theorem witness_OperationsBeforeInitialisationAreRefused :
    (freshOf .small).busy = false ∧ isDataOperation .erase = true ∧ (freshOf .small).csCfg = false ∧
    ({ freshOf .small with csCfg := true } : State).busInited = false ∧
    ({ freshOf .small with csCfg := true, busInited := true } : State).inited = false := by decide

theorem witness_ReservedCodesAreRefused : (idleOf .small []).busy = false := rfl

theorem witness_PayloadSizeIsChecked :
    Ready (idleOf .small []) ∧ (idleOf .small []).cfg.nMax < 9 ∧ (idleOf .small []).cfg.nMax = 8 ∧
    (idleOf .small []).cfg.nMax < (List.replicate 9 (0x00 : Byte)).length ∧ ([] : List Byte).length = 0 :=
  ⟨idleOf_ready _ _, by decide, by decide, by decide, rfl⟩

theorem witness_SmallChecksumLengthHasSixteenBits :
    Ready (idleOf .small []) ∧ (idleOf .small []).cfg.variant = .small ∧ 65535 < (0x10000 : Word).toNat :=
  ⟨idleOf_ready _ _, rfl, by decide⟩

theorem witness_SecondConstructionIsRefused :
    (idleOf .small []).busy = false ∧ (idleOf .small []).csCfg = true ∧
    ({ freshOf .small with busInited := true } : State).csCfg = false := by decide

theorem witness_HangLastsForEver :
    (∃ t, exec (.put 0 [0x01, 0x02]) (stallingOf .small 4) = .next t ∧ (t.busy && t.phase == .data) = true) ∧
    ∃ t, exec (.create true) (stalledInitOf .small) = .next t ∧ (t.busy && t.phase == .idle) = true :=
  ⟨next_of_after (by decide), next_of_after (by decide)⟩

theorem witness_CreateHangsInBusInit :
    (stalledInitOf .small).busy = false ∧ (stalledInitOf .small).csCfg = false ∧ (stalledInitOf .small).busInited = false ∧
    nextFate (stalledInitOf .small) = .stalled := by decide

/-- The first and the last transfer of a write, on both variants, and with no device. -/
theorem witness_WriteHangsAtTheStalledTransfer :
    Ready (stallingOf .small 0) ∧ Ready (stallingOf .large 4) ∧
    Ready { stallingOf .small 3 with devPresent := false } ∧
    (stallingOf .large 4).fates = List.replicate 4 .delivered ++ .stalled :: [] ∧
    0 < (addressBytes (stallingOf .small 0).cfg.variant 0).length + 2 ∧
    3 < (addressBytes (stallingOf .small 3).cfg.variant 0).length + 2 ∧
    4 < (addressBytes (stallingOf .large 4).cfg.variant 0).length + 2 ∧
    ¬4 < (addressBytes (stallingOf .small 4).cfg.variant 0).length + 2 :=
  ⟨⟨⟨rfl, rfl, rfl⟩, rfl⟩, ⟨⟨rfl, rfl, rfl⟩, rfl⟩, ⟨⟨rfl, rfl, rfl⟩, rfl⟩, rfl, by decide, by decide, by decide, by decide⟩

theorem witness_CreateConfiguresTheLine : (freshOf .large).busy = false ∧ (freshOf .large).csCfg = false := ⟨rfl, rfl⟩

theorem witness_CreateAutoInitialises :
    (freshOf .large).busy = false ∧ (freshOf .large).csCfg = false ∧ (freshOf .large).busInited = false ∧
    Returns (freshOf .large) ∧ Healthy (freshOf .large) :=
  ⟨rfl, rfl, rfl, (fun _ h => nomatch h), ⟨rfl, (fun _ h => nomatch h)⟩⟩

theorem witness_InitializeDeviceSendsTheModeFrame :
    BusReady { freshOf .small with csCfg := true, busInited := true } ∧
    Returns { freshOf .small with csCfg := true, busInited := true } ∧ Healthy (idleOf .small []) ∧
    BusReady (absentOf .small) ∧ (absentOf .small).devPresent = false :=
  ⟨⟨rfl, rfl, rfl⟩, (fun _ h => nomatch h), idleOf_healthy _ _, ⟨rfl, rfl, rfl⟩, rfl⟩

theorem witness_InitializeDeviceIsIdempotent :
    BusReady (plainOf .small) ∧ Healthy (plainOf .small) ∧
    ∃ t, exec .initializeDevice (plainOf .small) = .next t ∧ (t.dev.mode == 0x40) = true :=
  ⟨⟨rfl, rfl, rfl⟩, ⟨rfl, (fun _ h => nomatch h)⟩, next_of_after (by decide)⟩

theorem witness_LengthReturnsTheCapacity : (freshOf .small).busy = false ∧ (requestOf 0x2).op = 0x2 := by decide

/-- On the reference device, and on a bus that fails. -/
theorem witness_ReadReturnsTheByteReceived :
    Ready (idleOf .small []) ∧ Returns (idleOf .small []) ∧ Healthy (idleOf .small []) ∧
    Returns { idleOf .small [] with fates := [.failed, .delivered] } :=
  ⟨idleOf_ready _ _, idleOf_returns _ _, idleOf_healthy _ _, show ∀ f ∈ _, _ by decide⟩

theorem witness_IndexIsRead : (fullRequest 0xA).op = 0xA := rfl

theorem witness_WriteStoresOneByte :
    Ready (idleOf .large []) ∧ Returns (idleOf .large []) ∧ Healthy (idleOf .large []) ∧
    (0x1FFFE : Nat) ≠ addressOf (idleOf .large []).cfg.variant 0xFFFFFFFF ∧
    Ready (absentOf .large) ∧ Returns (absentOf .large) ∧ (absentOf .large).devPresent = false :=
  ⟨idleOf_ready _ _, idleOf_returns _ _, idleOf_healthy _ _, by decide, ⟨⟨rfl, rfl, rfl⟩, rfl⟩, (fun _ h => nomatch h), rfl⟩

theorem witness_UpdateIsWrite : (fullRequest 0x5).op = 0x5 := rfl

theorem witness_WriteThenReadReturnsTheByte :
    Ready (idleOf .small []) ∧ Healthy (idleOf .small []) ∧ maskAddr (idleOf .small []).cfg.variant 0x1234 =
      maskAddr (idleOf .small []).cfg.variant 0x11234 ∧
    (∃ t, exec (.write 0x1234 0xAB) (idleOf .small []) = .next t ∧
      ((idleOf .small [(0x1234, 0xAB), (0x1235, 0x01)]).dev.byteAt 0x1234 == t.dev.byteAt 0x1234) = true) ∧
    Ready (idleOf .small [(0x1234, 0xAB), (0x1235, 0x01)]) ∧ Healthy (idleOf .small [(0x1234, 0xAB), (0x1235, 0x01)]) :=
  ⟨idleOf_ready _ _, idleOf_healthy _ _, by decide, next_of_after (by decide), idleOf_ready _ _, idleOf_healthy _ _⟩

theorem witness_AddressesActModuloCapacity :
    maskAddr (idleOf .large []).cfg.variant 0x20004 = maskAddr (idleOf .large []).cfg.variant 4 := by decide

/-- One byte in any mode, `N_MAX` bytes in sequential mode, `N_MAX` bytes with no device. -/
theorem witness_GetReturnsTheBytesReceived :
    Ready (plainOf .small) ∧ Returns (plainOf .small) ∧ Streams (plainOf .small) 1 ∧
    Ready (idleOf .small []) ∧ Returns (idleOf .small []) ∧ Streams (idleOf .small []) 8 ∧ Healthy (idleOf .small []) ∧
    (idleOf .small []).dbuf.length = (idleOf .small []).cfg.nMax ∧ 8 ≤ (idleOf .small []).cfg.nMax ∧
    Ready (absentOf .small) ∧ Returns (absentOf .small) ∧ Streams (absentOf .small) 8 :=
  ⟨⟨⟨rfl, rfl, rfl⟩, rfl⟩, (fun _ h => nomatch h), .inl (Nat.le_refl 1), idleOf_ready _ _, idleOf_returns _ _, .inr (.inl rfl),
    idleOf_healthy _ _, idleOf_region _ _, by decide, ⟨⟨rfl, rfl, rfl⟩, rfl⟩, (fun _ h => nomatch h), .inr (.inr rfl)⟩

theorem witness_PutStoresTheBytes :
    Ready (idleOf .large []) ∧ Returns (idleOf .large []) ∧ Healthy (idleOf .large []) ∧
    (idleOf .large []).dbuf.length = (idleOf .large []).cfg.nMax ∧ Streams (idleOf .large []) [(0x11 : Byte), 0x22].length ∧
    [(0x11 : Byte), 0x22].length ≤ (idleOf .large []).cfg.nMax ∧
    (addressOf (idleOf .large []).cfg.variant 0x1FFFF + 0) % (idleOf .large []).cfg.variant.capacity ≠
      (addressOf (idleOf .large []).cfg.variant 0x1FFFF + 1) % (idleOf .large []).cfg.variant.capacity :=
  ⟨idleOf_ready _ _, idleOf_returns _ _, idleOf_healthy _ _, idleOf_region _ _, .inr (.inl rfl), by decide, by decide⟩

theorem witness_BlockTransfersNeedSequentialMode :
    Ready (plainOf .small) ∧ Healthy (plainOf .small) ∧ ¬SequentialMode (plainOf .small) ∧
    (plainOf .small).dbuf.length = (plainOf .small).cfg.nMax ∧ 2 ≤ (plainOf .small).cfg.nMax :=
  ⟨⟨⟨rfl, rfl, rfl⟩, rfl⟩, ⟨rfl, (fun _ h => nomatch h)⟩, not_sequential _, by decide, by decide⟩

theorem witness_PutThenGetReturnsTheValue :
    Ready (idleOf .large []) ∧ Healthy (idleOf .large []) ∧ SequentialMode (idleOf .large []) ∧
    (idleOf .large []).dbuf.length = (idleOf .large []).cfg.nMax ∧
    [(0x11 : Byte), 0x22].length ≤ (idleOf .large []).cfg.variant.capacity ∧
    maskAddr (idleOf .large []).cfg.variant 0x1FFFF = maskAddr (idleOf .large []).cfg.variant 0x3FFFF ∧
    (∃ t, exec (.put 0x1FFFF [0x11, 0x22]) (idleOf .large []) = .next t ∧
      (bytesAt (idleOf .large [(0, 0x22), (7, 0x01), (0x1FFFF, 0x11)]) 0x1FFFF 2 == bytesAt t 0x1FFFF 2) = true) :=
  ⟨idleOf_ready _ _, idleOf_healthy _ _, rfl, idleOf_region _ _, by decide, by decide, next_of_after (by decide)⟩

theorem witness_EraseZeroesTheDevice :
    Ready (idleOf .small [(9, 0x01)]) ∧ Returns (idleOf .small [(9, 0x01)]) ∧ SequentialMode (idleOf .small [(9, 0x01)]) ∧
    Healthy (idleOf .small [(9, 0x01)]) ∧ Ready (absentOf .large) ∧ Returns (absentOf .large) ∧
    (absentOf .large).devPresent = false :=
  ⟨idleOf_ready _ _, idleOf_returns _ _, rfl, idleOf_healthy _ _, ⟨⟨rfl, rfl, rfl⟩, rfl⟩, (fun _ h => nomatch h), rfl⟩

/-- An erase on the reference device in sequential mode completes: shown through the loop's lemma, since a run has at least
65536 transfers. -/
theorem erase_completes {s : State} (hr : Ready s) (hh : Healthy s) (hq : SequentialMode s) : ∃ t, exec .erase s = .next t := by
  have hH : Healthy (accept s) := healthy_accept hh
  obtain ⟨u, new, hb, hf, -, -, hs⟩ := bracket_run (s := accept s) (H := True) true 0 hr.bus hH.returns fun _ => hH
  have hd : u.dev.dpos = .wr ∧ u.dev.mode = modeSeq := by
    rcases hs.2 hh.there with h | h
    · rw [h]
      exact ⟨rfl, hq⟩
    · exact absurd trivial h.1
  have hu : Healthy u := hf.healthy ⟨hH.there, hH.delivered⟩
  obtain ⟨t, _, ht, -⟩ := sendZeros_run (H := True) (d0 := u.dev) (s := { u with cnt := resOfCapacity u.cfg.variant })
    (T := u.dev) u.cfg.variant.capacity (hf.busInited.trans hr.bus) hu.returns (fun _ => ⟨hu.there, hu.delivered⟩)
    ⟨fun _ => rfl, fun _ => .inl rfl⟩ rfl fun _ => ⟨hd.1, .inr (.inl hd.2)⟩
  have e : eraseOperation (accept s) = .ok () (closeBracket t) := by
    show bracket (cmdOf true) 0 _ _ = _
    rw [hb]
    show Run.bind (sendZeros _ _) _ = _
    rw [ht]
    rfl
  exact ⟨_, perform_ok hr.idle (dataRefusal_ready hr) e⟩

theorem witness_AfterEraseEverythingReadsZero :
    Ready (idleOf .small []) ∧ Healthy (idleOf .small []) ∧ SequentialMode (idleOf .small []) ∧
    (idleOf .small []).dbuf.length = (idleOf .small []).cfg.nMax ∧ lengthOk (idleOf .small []).cfg 0xFFFF = true ∧
    ∃ t, exec .erase (idleOf .small []) = .next t :=
  ⟨idleOf_ready _ _, idleOf_healthy _ _, rfl, idleOf_region _ _, by decide,
    erase_completes (idleOf_ready _ _) (idleOf_healthy _ _) rfl⟩

theorem witness_FoldLaws : [(0x01 : Byte), 0x02].length = [(0x02 : Byte), 0x01].length := rfl

/-- The longest length on Small; on Large the longest and one that is masked. -/
theorem witness_ChecksumFoldsTheBytesRead :
    Ready (idleOf .small []) ∧ Returns (idleOf .small []) ∧ Healthy (idleOf .small []) ∧
    lengthOk (idleOf .small []).cfg 0xFFFF = true ∧ Ready (idleOf .large []) ∧ Returns (idleOf .large []) ∧
    lengthOk (idleOf .large []).cfg 0xFFFFFFFF = true ∧ foldedLength .large 0x20003 = 3 ∧ foldedLength .small 0 = 0 :=
  ⟨idleOf_ready _ _, idleOf_returns _ _, idleOf_healthy _ _, by decide, idleOf_ready _ _, idleOf_returns _ _, by decide,
    by decide, by decide⟩

theorem witness_EmptyChecksumIsZero : Ready (idleOf .small []) ∧ Ready (idleOf .large []) ∧ (idleOf .large []).cfg.variant = .large :=
  ⟨idleOf_ready _ _, idleOf_ready _ _, rfl⟩

theorem witness_ChecksumMaskingIsAsymmetric :
    Healthy (idleOf .large []) ∧ (∃ t, exec (.checksum 0 0x20000) (idleOf .large []) = .next t ∧ (t.res == 0) = true) ∧
    (idleOf .large []).cfg.variant = .large ∧ (0x40000 : Word).toNat % 131072 = (0x20000 : Word).toNat % 131072 ∧
    maskAddr (idleOf .large []).cfg.variant 0x20000 = maskAddr (idleOf .large []).cfg.variant 0 ∧
    Healthy (idleOf .small []) ∧ (∃ t, exec (.checksum 0 1) (idleOf .small [(0, 0x01)]) = .next t ∧ (t.res == 0xC0C1) = true) :=
  ⟨idleOf_healthy _ _, next_of_after (by decide), rfl, by decide, by decide, idleOf_healthy _ _, next_of_after (by decide)⟩

theorem witness_ReadCommandAnswersTheBytes :
    (plainOf .small).busy = false ∧ (plainOf .small).devPresent = true ∧ [(0x00 : Byte)].length ≤ 1 ∧
    (idleOf .large []).busy = false ∧ (idleOf .large []).devPresent = true ∧ SequentialMode (idleOf .large []) ∧
    (idleOf .large []).cfg.variant = .large ∧ (plainOf .small).cfg.variant = .small := by
  refine ⟨rfl, rfl, by decide, rfl, rfl, rfl, rfl, rfl⟩

theorem witness_WriteCommandStoresTheBytes :
    (idleOf .small []).busy = false ∧ (idleOf .small []).devPresent = true ∧ SequentialMode (idleOf .small []) ∧
    (idleOf .small []).cfg.variant = .small ∧ (plainOf .large).cfg.variant = .large ∧
    ((0xFFFF : BitVec 16).toNat + 0) % 65536 ≠ ((0xFFFF : BitVec 16).toNat + 1) % 65536 := by
  refine ⟨rfl, rfl, rfl, rfl, rfl, by decide⟩

theorem witness_SecondByteNeedsSequentialMode :
    (plainOf .small).busy = false ∧ (plainOf .small).devPresent = true ∧ ¬SequentialMode (plainOf .small) ∧
    ¬SequentialMode (plainOf .large) ∧ (plainOf .small).cfg.variant = .small ∧ (plainOf .large).cfg.variant = .large ∧
    2 ≤ [(0x00 : Byte), 0x00].length :=
  ⟨rfl, rfl, not_sequential _, not_sequential _, rfl, rfl, by decide⟩

theorem witness_ModeRegisterCommands : (plainOf .large).busy = false ∧ (plainOf .large).devPresent = true := ⟨rfl, rfl⟩

theorem witness_UnknownCommandsAreIgnored :
    let s := { idleOf .small [] with inputs := [.frame [0x9F, 0x00, 0x00]] }
    s.busy = false ∧ s.devPresent = true ∧ s.inputs = .frame (0x9F :: [0x00, 0x00]) :: [] ∧
    (0x9F : Byte) ∉ [(0x01 : Byte), 0x02, 0x03, 0x05] := by decide

theorem witness_WireCommandsWithoutADevice :
    isWireCommand .writeModeRegister = true ∧ isWireCommand (.writeL 0 [0x01]) = true ∧ (absentOf .large).busy = false ∧
    (absentOf .large).devPresent = false := by decide

theorem witness_HostInitialisesTheBus :
    ({ freshOf .small with inputs := [.busInit] } : State).busInited = false ∧
    ({ idleOf .small [] with inputs := [.busInit] } : State).busInited = true := ⟨rfl, rfl⟩

theorem witness_BlockResetKeepsTheDevice :
    let s := { idleOf .small [(5, 0x01)] with inputs := [.blockReset] }
    s.busy = false ∧ s.inputs = .blockReset :: [] := by decide

theorem witness_WaitingChangesNothing : (idleOf .small []).busy = false ∧ (idleOf .small []).inputs = [] := by decide

end Sys2Proof.Machine
end

section
/-! SUPPORT. The actions of an operation, run one after another, end exactly as the operation's own run does; from there
to the event steps that one step is made of (92_eei_decisions.md D1, 00_scope.md R7). -/

namespace Sys2Proof.Machine

/-! ### Runs -/

theorem Run.bind_assoc {α β γ : Type} (m : Run α) (k : α → State → Run β) (l : β → State → Run γ) :
    (m.bind k).bind l = m.bind fun a s => (k a s).bind l := by
  cases m <;> rfl

/-- A run that ends as `m` does, its value replaced. -/
def Run.map {α β : Type} (g : α → β) (m : Run α) : Run β := m.bind fun a s => .ok (g a) s

theorem Run.map_id {α : Type} (m : Run α) : m.map id = m := by
  cases m <;> rfl

theorem Run.map_bind {α β γ : Type} (g : β → γ) (m : Run α) (k : α → State → Run β) :
    (m.bind k).map g = m.bind fun a s => (k a s).map g := m.bind_assoc k _

/-- Two continuations of a run agree if they agree on what the run is known to end in. -/
theorem Run.Post.bind_congr {α β : Type} {m : Run α} {k l : α → State → Run β} {Q : α → State → Prop}
    {H : State → Prop} (h : m.Post Q H) (hk : ∀ a s, Q a s → k a s = l a s) : m.bind k = m.bind l := by
  cases m with
  | ok a s => exact hk a s h
  | hung s => rfl
  | refused r => rfl

/-! ### Actions that play a piece of an operation -/

/-- From `s`, and whatever byte was received last, the actions end as the piece `m` does; `g` makes the piece's value of
the byte that the actions leave received last. -/
def Plays {α : Type} (acts : List Action) (s : State) (g : Byte → α) (m : Run α) : Prop :=
  ∀ rx, (runActions acts rx s).map g = m

/-- What a sequence of actions leaves alone. -/
theorem runActions_post (acts : List Action) (rx : Byte) (s : State) :
    (runActions acts rx s).Post (fun _ t => t.busy = s.busy ∧ t.cfg = s.cfg) fun _ => True := by
  induction acts generalizing rx s with
  | nil => exact ⟨rfl, rfl⟩
  | cons act acts ih =>
    refine ((act.run_post rx s).mono (fun _ _ h => h) fun _ _ => trivial).bind fun rx' t ht => ?_
    exact (ih rx' t).mono (fun _ _ h => ⟨h.1.trans ht.1, h.2.trans ht.2⟩) fun _ h => h

section Rules
variable {α β : Type} {s : State} {acts : List Action} {g : Byte → α}

/-- Actions one after another play one piece after another. -/
theorem Plays.append {m : Run α} {bs : List Action} {g' : Byte → β} {k : α → State → Run β} (h : Plays acts s g m)
    (hk : ∀ rx t, t.cfg = s.cfg → (runActions bs rx t).map g' = k (g rx) t) : Plays (acts ++ bs) s g' (m.bind k) := by
  intro rx
  rw [runActions_append, Run.map_bind, ← h rx, Run.map, Run.bind_assoc]
  exact (runActions_post acts rx s).bind_congr fun rx t ht => hk rx t ht.2

/-- An assignment first. -/
theorem Plays.cons {m : Run α} {act : Action} {t : State} (ha : ∀ rx, act.run rx s = .ok rx t) (h : Plays acts t g m) :
    Plays (act :: acts) s g m := by
  intro rx
  rw [runActions_cons, ha]
  exact h rx

/-- What transfers change is the source of no byte that is sent. -/
theorem Follows.byte {t : State} {new : List WireEvent} (h : Follows s t new) (tx : TxSource) :
    tx.byte t = tx.byte s := by
  rw [h.2.2]
  cases tx with
  | address a k => cases a <;> rfl
  | _ => rfl

/-- One byte sent at a position of the frame first. -/
theorem Plays.send {p : Phase} {tx : TxSource} {b : Byte} {m : State → Run α} (hb : tx.byte s = b)
    (h : ∀ t new, Follows s t new → Plays acts t g (m t)) :
    Plays (sendActions p tx ++ acts) s g ((send p b s).bind fun _ t => m t) := by
  intro rx
  have hpost : (xfer b (setPhase p s)).Post (fun _ t => ∃ new, Follows s t new) fun _ => True :=
    exchange_post (fun d rx _ => ⟨_, (Follows.phase s p).trans (Follows.after d (.x b rx))⟩) fun _ => trivial
  have hrun : runActions (sendActions p tx ++ acts) rx s =
      (xfer (tx.byte (setPhase p s)) (setPhase p s)).bind fun rx t => runActions acts rx t := rfl
  rw [hrun, (Follows.phase s p).byte, hb, Run.map_bind, Machine.send, Run.bind_assoc]
  exact hpost.bind_congr fun rx t ⟨new, hf⟩ => h t new hf rx

/-- `CS↓` and the first byte of a frame: the order is log 44. -/
theorem Plays.frameStart {tx : TxSource} {m : Run α} (h : Plays (sendActions .cmd tx ++ acts) (openBracket s) g m) :
    Plays (.csLow :: (sendActions .cmd tx ++ acts)) s g m := h

/-- `CS↓`, the fill of the scratch buffer on Large, and the first byte of a frame: the order is log 44. -/
theorem Plays.filledFrameStart {a : HeaderAddress} {tx : TxSource} {m : Run α}
    (h : Plays (sendActions .cmd tx ++ acts)
      { openBracket s with abuf := AddrBuf.ofWord (maskAddr s.cfg.variant (a.word s)) } g m) :
    Plays (.csLow :: .goto .cmd :: .fillScratch a :: .xfer tx :: acts) s g m := by
  cases a <;> exact h

/-- `CS↓` and the header first (30_encoding.md R84). -/
theorem Plays.header {v : Variant} {cmd : Byte} {a : HeaderAddress} {m : State → Run α} (hv : s.cfg.variant = v)
    (h : ∀ t, t.cfg = s.cfg → t.val = s.val → Plays acts t g (m t)) :
    Plays (.csLow :: headerActions v cmd a ++ acts) s g
      ((sendHeader cmd (a.word s) (openBracket s)).bind fun _ t => m t) := by
  have hend : ∀ {b : AddrBuf} {t : State} {new : List WireEvent}, Follows { openBracket s with abuf := b } t new →
      Plays acts t g (m t) := fun hf => h _ hf.cfg (by rw [hf.2.2]; rfl)
  unfold sendHeader headerActions
  cases v with
  | small =>
    have hmask : ∀ k, (TxSource.address a k).byte (openBracket s) = byteK k (maskAddr .small (a.word s)) := by
      intro k
      rw [← hv]
      cases a <;> rfl
    simp only [openBracket_cfg, hv, Run.bind_assoc, List.append_assoc, List.cons_append]
    exact Plays.frameStart <| Plays.send rfl fun t1 _ f1 =>
      Plays.send ((f1.byte _).trans (hmask 1)) fun t2 _ f2 =>
      Plays.send (((f1.trans f2).byte _).trans (hmask 0)) fun t3 _ f3 =>
        hend (b := s.abuf) ((f1.trans f2).trans f3)
  | large =>
    simp only [openBracket_cfg, hv, Run.bind_assoc, List.append_assoc, List.cons_append, List.nil_append]
    rw [← hv]
    exact Plays.filledFrameStart <| Plays.send rfl fun t1 _ f1 => Plays.send rfl fun t2 _ f2 =>
      Plays.send rfl fun t3 _ f3 => Plays.send rfl fun t4 _ f4 => hend (((f1.trans f2).trans f3).trans f4)

/-- A whole bracket (30_encoding.md R80, R91), given what plays its data phase. -/
theorem Plays.bracket {v : Variant} {cmd : Byte} {a : HeaderAddress} {m : State → Run α} (hv : s.cfg.variant = v)
    (h : ∀ t, t.cfg = s.cfg → t.val = s.val → Plays acts (setPhase .data t) g (m (setPhase .data t))) :
    Plays (bracketActions v cmd a acts) s g (bracket cmd (a.word s) m s) := by
  unfold bracketActions Machine.bracket
  rw [List.append_assoc]
  exact Plays.header hv fun t hc hval =>
    (Plays.cons (fun _ => rfl) (h t hc hval)).append fun _ _ _ => rfl

end Rules

/-! ### The data phases and the loops -/

/-- The bracket of one single-byte read (41_single_byte.md R130); the byte received last is the byte read. -/
theorem plays_readActions {v : Variant} (a : HeaderAddress) {s : State} (hv : s.cfg.variant = v) :
    Plays (readActions v a) s id (readByte (a.word s) s) :=
  Plays.bracket hv fun _ _ _ _ => (Run.map_id _).trans (Run.map_id (xfer _ _))

/-- The data phase of erase (43_erase.md R170). -/
theorem plays_zeroActions (k : Nat) (s : State) : Plays (zeroActions k) s (fun _ => ()) (sendZeros k s) := by
  induction k generalizing s with
  | zero => exact fun _ => rfl
  | succ k ih => exact Plays.send rfl fun t _ _ => Plays.cons (fun _ => rfl) (ih _)

/-- The data phase of a block transfer (20_memory.md R64). -/
theorem plays_blockActions (k i : Nat) (s : State) :
    Plays ((List.range' i k).map .block) s (fun _ => ()) (xferBlock k i s) := by
  induction k generalizing i s with
  | zero => exact fun _ => rfl
  | succ k ih =>
    intro rx
    rw [List.range'_succ, List.map_cons, runActions_cons, Run.map_bind, xferBlock, Action.run, Run.bind_assoc]
    exact congrArg _ (funext fun b => funext fun t => ih (i + 1) _ b)

/-- The bracket of a block transfer (42_block_transfer.md R150, R151). -/
theorem plays_blockBracket (cmd : Byte) (n : Nat) (s : State) :
    Plays (bracketActions s.cfg.variant cmd .operand (blockActions n)) s (fun _ => ())
      (bracket cmd s.addr (xferBlock n 0) s) := by
  unfold blockActions
  rw [List.range_eq_range']
  exact Plays.bracket (a := .operand) rfl fun _ _ _ => plays_blockActions n 0 _

/-- The loop of checksum (44_checksum.md R185). -/
theorem plays_foldActions {v : Variant} (k : Nat) {s : State} (hv : s.cfg.variant = v) :
    Plays (foldActions v k) s (fun _ => ()) (foldBytes k s) := by
  induction k generalizing s with
  | zero => exact fun _ => rfl
  | succ k ih =>
    rw [foldActions, List.replicate_succ, List.flatten_cons, List.append_assoc]
    exact (plays_readActions .running hv).append fun b t hc => ih (s := foldUnit b t) (by rw [← hv, ← hc]; rfl) b

/-! ### The operations -/

/-- 40_init_and_query.md R111. -/
theorem plays_initialise (s : State) : Plays initialiseActions s (fun _ => ()) (initialise s) := by
  unfold initialiseActions initialise modeFrame
  simp only [Run.bind_assoc, List.append_assoc, List.cons_append]
  exact Plays.frameStart <| Plays.send rfl fun _ _ _ => Plays.send rfl fun _ _ _ _ => rfl

/-- 40_init_and_query.md R110. -/
theorem plays_create (auto : Bool) (s : State) : Plays (createActions auto) s (fun _ => ())
    (if auto then (busInit (configureLine s)).bind fun _ t => initialise t else .ok () (configureLine s)) := by
  cases auto with
  | false => exact fun _ => rfl
  | true =>
    refine Plays.cons (act := .line) (fun _ => rfl) fun rx => ?_
    rw [if_pos rfl, if_pos rfl, runActions_cons, Action.run, Run.bind_assoc, Run.map_bind]
    exact congrArg _ (funext fun _ => funext fun t => plays_initialise t rx)

/-- 41_single_byte.md R130, R133. -/
theorem plays_read (a : Word) (s : State) :
    Plays (readSequence s.cfg.variant a) s (fun _ => ()) (readOperation a s) := by
  have hread := plays_readActions .operand (s := { s with addr := a }) rfl
  exact (Plays.cons (act := .latchAddr a) (fun _ => rfl) hread).append fun _ _ _ => rfl

/-- 41_single_byte.md R131, R132. -/
theorem plays_write (a : Word) (b : Byte) (s : State) :
    Plays (writeSequence s.cfg.variant a b) s (fun _ => ()) (writeOperation a b s) := by
  have hbyte : ∀ t, t.val = b →
      Plays [.xfer .value] (setPhase .data t) (fun _ => ()) (send .data b (setPhase .data t)) := by
    rintro t rfl rx
    exact congrArg (Run.map fun _ => ()) (Run.map_id (xfer t.val (setPhase .data t)))
  exact Plays.cons (act := .latchAddr a) (fun _ => rfl) <| Plays.cons (act := .latchVal b) (fun _ => rfl) <|
    Plays.bracket (a := .operand) rfl fun t _ hval => hbyte t hval

/-- 42_block_transfer.md R150. -/
theorem plays_get (a : Word) (n : Nat) (s : State) :
    Plays (getSequence s.cfg.variant a n) s (fun _ => ()) (getOperation a n s) := by
  have hblock := plays_blockBracket cmdRead n (freeRegion n { s with addr := a, n := n })
  exact (Plays.cons (act := .latchAddr a) (fun _ => rfl) <| Plays.cons (act := .latchCount n) (fun _ => rfl) <|
    Plays.cons (act := .freeRegion n) (fun _ => rfl) hblock).append fun _ _ _ => rfl

/-- 42_block_transfer.md R151. -/
theorem plays_put (a : Word) (w : List Byte) (s : State) :
    Plays (putSequence s.cfg.variant a w) s (fun _ => ()) (putOperation a w s) := by
  have hblock := plays_blockBracket cmdWrite w.length (loadRegion w { s with addr := a, n := w.length })
  exact (Plays.cons (act := .latchAddr a) (fun _ => rfl) <| Plays.cons (act := .latchCount w.length) (fun _ => rfl) <|
    Plays.cons (act := .loadRegion w) (fun _ => rfl) hblock).append fun _ _ _ => rfl

/-- 43_erase.md R170. -/
theorem plays_erase (s : State) : Plays (eraseSequence s.cfg.variant) s (fun _ => ()) (eraseOperation s) :=
  Plays.bracket (a := .origin) rfl fun t hc _ => by
    rw [← hc]
    exact Plays.cons (fun _ => rfl) (plays_zeroActions _ _)

/-- 44_checksum.md R185. -/
theorem plays_checksum (a len : Word) (s : State) :
    Plays (checksumSequence s.cfg.variant a len) s (fun _ => ()) (checksumOperation a len s) := by
  have hfold := plays_foldActions (v := s.cfg.variant) (maskLength s.cfg.variant len).toNat
    (s := seedUnit { s with
      addr := a, len := len, cur := checksumStart s.cfg.variant a, cnt := maskLength s.cfg.variant len }) rfl
  exact (Plays.cons (act := .latchAddr a) (fun _ => rfl) <| Plays.cons (act := .latchLength len) (fun _ => rfl) <|
    Plays.cons (act := .startAt a) (fun _ => rfl) <| Plays.cons (act := .countLength len) (fun _ => rfl) <|
    Plays.cons (act := .seed) (fun _ => rfl) hfold).append fun _ _ _ => rfl

/-! ### From the sequences to the steps -/

/-- Event steps from `q` reach what one step answers: at its next state nothing is left to do, or the stop lasts; its
refusal is met too. -/
def EventsReach (q : Sequenced) (o : Host.Outcome State Fault Refusal) : Prop :=
  match o with
  | .next t => ∃ k q', eventSteps (k + 1) q = .next q' ∧ q'.block = t ∧
      (t.busy = false → q'.todo = []) ∧ (t.busy = true → eventStep q' = .next q')
  | .fault _ => False
  | .refused r => ∃ k, eventSteps (k + 1) q = .refused r

/-- The first event step of several. -/
theorem eventSteps_succ_of_next {q q' : Sequenced} (h : eventStep q = .next q') (k : Nat) :
    eventSteps (k + 1) q = eventSteps k q' := by
  rw [eventSteps, h]

theorem eventSteps_one_of_refused {q : Sequenced} {r : Refusal} (h : eventStep q = .refused r) :
    eventSteps 1 q = .refused r := by
  rw [eventSteps, h]

/-- One event step to a state with no operation in progress. -/
theorem eventsReach_next {q : Sequenced} {t : State} (h : eventStep q = .next (Sequenced.rest t))
    (hb : t.busy = false) : EventsReach q (.next t) :=
  ⟨0, _, eventSteps_succ_of_next h 0, rfl, fun _ => rfl, fun hbusy => absurd (hb.symm.trans hbusy) nofun⟩

/-- What is no operation of the block happens in one event step, and leaves no operation in progress. -/
theorem eventsReach_settle {q : Sequenced} {o : Host.Outcome State Fault Refusal} (h : eventStep q = settle o)
    (hb : ∀ t, o = .next t → t.busy = false) : EventsReach q o := by
  cases o with
  | next t => exact eventsReach_next h (hb t rfl)
  | fault f => exact nomatch f
  | refused r => exact ⟨0, eventSteps_one_of_refused h⟩

/-- An operation in progress whose actions play its run comes to the end that its run has. -/
theorem eventsReach_finish {q : Sequenced} {acts : List Action} {s : State} {m : Run Unit} (hb : s.busy = true)
    (h : eventStep q = .next ⟨s, acts, 0x00⟩) (hp : Plays acts s (fun _ => ()) m) : EventsReach q m.finish := by
  have hsteps : ∀ k, eventSteps (k + 1) q = eventSteps k ⟨s, acts ++ [], 0x00⟩ := by
    rw [List.append_nil]
    exact eventSteps_succ_of_next h
  rw [← hp 0x00]
  have hpost := runActions_post acts 0x00 s
  cases hrun : runActions acts 0x00 s with
  | ok rx t =>
    rw [hrun] at hpost
    have hbusy : t.busy = true := hpost.1.trans hb
    refine ⟨acts.length + 1, Sequenced.rest (complete t), ?_, rfl, fun _ => rfl, nofun⟩
    rw [hsteps, eventSteps_of_ok hb hrun, eventSteps_succ_of_next (eventStep_nil hbusy)]
    rfl
  | hung t =>
    obtain ⟨k, q', hk, hblock, hbusy, hstop⟩ := eventSteps_of_hung (rest := []) hb hrun
    exact ⟨k, q', (hsteps k).trans hk, hblock, fun hidle => absurd (hidle.symm.trans hbusy) nofun, fun _ => hstop⟩
  | refused r =>
    obtain ⟨k, hk⟩ := eventSteps_of_refused (rest := []) hb hrun
    exact ⟨k, (hsteps k).trans hk⟩

/-- A request is refused at once, or accepted, and then its actions play its run. -/
theorem eventsReach_perform {q : Sequenced} {refusal : State → Option Refusal} {acts : List Action}
    {body : State → Run Unit} {s : State} (h : eventStep q = acceptSequence refusal acts s)
    (hp : Plays acts (accept s) (fun _ => ()) (body (accept s))) : EventsReach q (perform refusal body s) := by
  unfold acceptSequence at h
  unfold perform
  cases hb : s.busy with
  | true =>
    rw [hb] at h
    exact ⟨0, eventSteps_one_of_refused h⟩
  | false =>
    cases hr : refusal s with
    | some r =>
      rw [hb, hr] at h
      exact ⟨0, eventSteps_one_of_refused h⟩
    | none =>
      rw [hb, hr] at h
      exact eventsReach_finish rfl h hp

/-- The device's own port takes a frame only between two operations. -/
theorem deviceFrame_idle {bytes : List Byte} {s t : State} (h : deviceFrame bytes s = .next t) : t.busy = false := by
  unfold deviceFrame at h
  split at h
  · cases h
  · rename_i hb
    split at h
    · cases h
      simpa using hb
    · split at h
      · cases h
      · cases h
        simpa using hb

/-- A reserved code is never accepted. -/
theorem reject_ne_next {op : BitVec 4} {s t : State} : reject op s ≠ .next t := by
  unfold reject
  split <;> nofun

/-- What `exec` makes of an instruction is reached from where the event machine begins it. -/
theorem eventsReach_exec {q : Sequenced} (i : Instr) {s : State} (h : eventStep q = begin i s) :
    EventsReach q (exec i s) := by
  cases i with
  | create auto =>
    unfold exec execCreate
    exact eventsReach_perform h (plays_create auto (accept s))
  | initializeDevice => exact eventsReach_perform h (plays_initialise _)
  | length =>
    unfold exec execLength
    exact eventsReach_perform (acts := [.answerCapacity]) h fun _ => rfl
  | read a => exact eventsReach_perform h (plays_read a (accept s))
  | write a b => exact eventsReach_perform h (plays_write a b (accept s))
  | update a b => exact eventsReach_perform h (plays_write a b (accept s))
  | get a n => exact eventsReach_perform h (plays_get a n (accept s))
  | put a w => exact eventsReach_perform h (plays_put a w (accept s))
  | erase => exact eventsReach_perform h (plays_erase (accept s))
  | checksum a len => exact eventsReach_perform h (plays_checksum a len (accept s))
  | index a => exact eventsReach_perform h (plays_read a (accept s))
  | reservedB | reservedC | reservedD | reservedE | reservedF =>
    exact eventsReach_settle h fun _ ht => absurd ht reject_ne_next
  | writeModeRegister => exact eventsReach_settle h fun _ => deviceFrame_idle
  | readS a ds | writeS a ds | readL a ds | writeL a ds | readModeRegister ds =>
    exact eventsReach_settle h fun _ => deviceFrame_idle

/-- Taking an input starts nothing. -/
theorem fetch_busInit_busy {s t : State} (h : fetch s = .busInit t) : t.busy = s.busy := by
  unfold fetch at h
  repeat' split at h
  all_goals cases h
  rfl

theorem hostBusInit_busy {s t : State} (h : hostBusInit s = .next t) : t.busy = s.busy := by
  unfold hostBusInit at h
  split at h
  · cases h
  · cases h
    rfl

/-- A step from a state with no operation in progress is reached by event steps from there. -/
theorem eventsReach_step {s : State} (hb : s.busy = false) : EventsReach (Sequenced.rest s) (step s) := by
  have hidle : ¬(Sequenced.rest s).block.busy = true := ne_true_of_eq_false hb
  have hstep : eventStep (Sequenced.rest s) = _ := if_neg hidle
  rw [show (Sequenced.rest s).block = s from rfl] at hstep
  unfold step
  generalize hf : fetch s = f at hstep ⊢
  cases f with
  | hung => exact eventsReach_next hstep hb
  | waiting => exact eventsReach_next hstep hb
  | instr i t => exact eventsReach_exec i hstep
  | rawFrame bytes t => exact eventsReach_settle hstep fun _ => deviceFrame_idle
  | bad e => exact ⟨0, eventSteps_one_of_refused hstep⟩
  | busInit t =>
    exact eventsReach_settle hstep fun _ ht => ((hostBusInit_busy ht).trans (fetch_busInit_busy hf)).trans hb
  | blockReset t => exact eventsReach_next hstep rfl

/-- Settles O7: the actions of every operation play its run, so as many event steps reach what the one step answers. -/
theorem eventsMakeTheStep : Obligations.EventsMakeTheStep := by
  unfold Obligations.EventsMakeTheStep
  exact fun s hb => eventsReach_step hb

end Sys2Proof.Machine
end

section
/-! SUPPORT. One step taken apart: which input it takes, what a frame at the device's port leaves alone, and when a request
is accepted. -/

namespace Sys2Proof.Machine

/-! ### Taking an input -/

theorem fetch_of_noInput {s : State} (hb : s.busy = false) (hi : s.inputs = []) : fetch s = .waiting := by
  simp [fetch, hb, hi]

theorem fetch_of_request {s : State} {r : Request} {i : Instr} {rest : List Input} (hb : s.busy = false)
    (hi : s.inputs = .request r :: rest) (hd : decode s.cfg.variant (.request r) = .ok i) :
    fetch s = .instr i { s with inputs := rest } := by
  simp [fetch, hb, hi, hd]

theorem fetch_of_frame {s : State} {bytes : List Byte} {i : Instr} {rest : List Input} (hb : s.busy = false)
    (hi : s.inputs = .frame bytes :: rest) (hd : decode s.cfg.variant (.frame bytes) = .ok i) :
    fetch s = .instr i { s with inputs := rest } := by
  simp [fetch, hb, hi, hd]

theorem fetch_of_busInit {s : State} {rest : List Input} (hb : s.busy = false) (hi : s.inputs = .busInit :: rest) :
    fetch s = .busInit { s with inputs := rest } := by
  simp [fetch, hb, hi]

/-- How a step comes to its next state: an operation hangs, or the block waits, or the first input is taken and done. -/
inductive Stepped (s : State) : State → Prop where
  | hung (busy : s.busy = true) : Stepped s s
  | waited (idle : s.busy = false) : Stepped s (wait s)
  | executed {t : State} (rest : List Input) (i : Instr) (idle : s.busy = false)
      (next : exec i { s with inputs := rest } = .next t) : Stepped s t
  | framed {t : State} (rest : List Input) (bytes : List Byte) (idle : s.busy = false)
      (next : deviceFrame bytes { s with inputs := rest } = .next t) : Stepped s t
  | busInitialised {t : State} (rest : List Input) (idle : s.busy = false)
      (next : hostBusInit { s with inputs := rest } = .next t) : Stepped s t
  | blockReset (rest : List Input) (idle : s.busy = false) : Stepped s (blockReset { s with inputs := rest })

theorem stepped_of_next {s t : State} (h : step s = .next t) : Stepped s t := by
  unfold step fetch at h
  by_cases hb : s.busy = true
  · rw [if_pos hb] at h
    cases h
    exact .hung hb
  rw [if_neg hb] at h
  have hb : s.busy = false := Bool.eq_false_iff.mpr hb
  cases hi : s.inputs with
  | nil =>
    rw [hi] at h
    cases h
    exact .waited hb
  | cons input rest =>
    rw [hi] at h
    cases input with
    | request r =>
      dsimp only at h
      cases hd : decode s.cfg.variant (.request r) with
      | error e => rw [hd] at h; cases h
      | ok i => rw [hd] at h; exact .executed rest i hb h
    | frame bytes =>
      dsimp only at h
      cases hd : decode s.cfg.variant (.frame bytes) with
      | error e => rw [hd] at h; exact .framed rest bytes hb h
      | ok i => rw [hd] at h; exact .executed rest i hb h
    | busInit => exact .busInitialised rest hb h
    | blockReset =>
      cases h
      exact .blockReset rest hb

/-- Settles O6: such an input is fetched as the instruction it decodes to. -/
theorem stepRunsTheDecodedInstruction : Obligations.StepRunsTheDecodedInstruction := by
  intro s i rest hb
  constructor
  · intro r hi hd
    rw [step, fetch_of_request hb hi hd]
  · intro bytes hi hd
    rw [step, fetch_of_frame hb hi hd]

/-- Settles O60: with no input the block waits. -/
theorem waitingChangesNothing : Obligations.WaitingChangesNothing := by
  intro s hb hi
  rw [step, fetch_of_noInput hb hi]
  rfl

/-- Settles O58: the host's call is taken from the inputs, and `hostBusInit` tests `bus_inited`. -/
theorem hostInitialisesTheBus : Obligations.HostInitialisesTheBus := by
  intro s rest hb hi
  rw [step, fetch_of_busInit hb hi]
  constructor
  · intro hbus
    simp [hostBusInit, hbus, markBusInit, emit]
  · intro hbus
    simp [hostBusInit, hbus]

/-- Settles O9: the reset state is written out with these values. -/
theorem resetLeavesTheGivenValues : Obligations.ResetLeavesTheGivenValues :=
  fun _ => ⟨rfl, rfl, rfl, rfl, rfl, rfl, rfl⟩

/-! ### A frame at the device's port -/

/-- Everything a frame at the device's port can do: the device takes its bytes in one bracket, or there is no device; the
block is left alone but for its strobe. -/
theorem deviceFrame_next {bytes : List Byte} {s t : State} (h : deviceFrame bytes s = .next t) :
    s.busy = false ∧ t = portFrame s t ∧
      (t.dev = s.dev ∨ ∃ d rxs free, Device.exchanges s.cfg.variant s.draws s.dev.select bytes = some (d, rxs) ∧
        t.dev = d.deselect s.cfg.variant free) := by
  unfold deviceFrame at h
  split at h
  · cases h
  · rename_i hb
    refine ⟨Bool.eq_false_iff.mpr hb, ?_⟩
    split at h
    · cases h
      exact ⟨rfl, .inl rfl⟩
    · split at h
      · cases h
      · rename_i d rxs he
        cases h
        exact ⟨rfl, .inr ⟨d, rxs, _, he, rfl⟩⟩

/-! ### When a request is accepted -/

theorem busReady_of_initRefusal {s : State} (hb : s.busy = false) (h : initRefusal s = none) : BusReady s := by
  unfold initRefusal at h
  split at h
  · cases h
  · rename_i hline
    split at h
    · cases h
    · rename_i hbus
      exact ⟨hb, by simpa using hline, by simpa using hbus⟩

theorem ready_of_dataRefusal {s : State} (hb : s.busy = false) (h : dataRefusal s = none) : Ready s := by
  unfold dataRefusal at h
  split at h
  · cases h
  · rename_i hline
    split at h
    · cases h
    · rename_i hbus
      split at h
      · cases h
      · rename_i hdevice
        exact ⟨⟨hb, by simpa using hline, by simpa using hbus⟩, by simpa using hdevice⟩

theorem of_payloadRefusal {n : Nat} {s : State} (h : payloadRefusal n s = none) :
    dataRefusal s = none ∧ n ≤ s.cfg.nMax := by
  unfold payloadRefusal at h
  split at h
  · cases h
  · rename_i hd
    split at h
    · rename_i hn
      exact ⟨hd, of_decide_eq_true (Bool.and_eq_true_iff.mp hn).2⟩
    · cases h

theorem of_checksumRefusal {len : Word} {s : State} (h : checksumRefusal len s = none) : dataRefusal s = none := by
  unfold checksumRefusal at h
  split at h
  · cases h
  · assumption

theorem of_createRefusal {auto : Bool} {s : State} (h : createRefusal auto s = none) :
    s.csCfg = false ∧ (auto = true → s.busInited = false) := by
  unfold createRefusal at h
  split at h
  · cases h
  · rename_i hline
    split at h
    · cases h
    · rename_i hbus
      exact ⟨by simpa using hline, by simpa using hbus⟩

end Sys2Proof.Machine
end

section
/-! SUPPORT. The invariant of the machine: what the device keeps through every exchange, what holds at each position of a
bracket, and from there that every step keeps `MachineInv` (10_state.md R24, R31; 20_memory.md R70, R71; 30_encoding.md R80,
R91, R93; 70_reset_and_hazards.md R242, R250). -/

namespace Sys2Proof.Machine

/-! ### The device -/

/-- The device's own part of the invariant. -/
structure DeviceSound (v : Variant) (d : Device) : Prop where
  memory : Memory.wf d.mem
  within : Memory.within v.capacity d.mem
  pointer : d.ptr < v.capacity

namespace DeviceSound
variable {v : Variant} {d e : Device}

theorem select (h : DeviceSound v d) : DeviceSound v d.select := ⟨h.memory, h.within, h.pointer⟩

theorem lose (h : DeviceSound v d) : DeviceSound v d.lose := ⟨h.memory, h.within, h.pointer⟩

theorem deselect (h : DeviceSound v d) (free : Nat) : DeviceSound v (d.deselect v free) :=
  ⟨h.memory, h.within, deselect_ptr_lt h.pointer⟩

theorem exchange {f tx rx : Byte} (h : DeviceSound v d) (he : d.exchange v f tx = some (e, rx)) : DeviceSound v e := by
  obtain ⟨hmem, hptr, -, -⟩ := exchange_effect he
  have hp : e.ptr < v.capacity := hptr.elim (fun hp => hp ▸ h.pointer) id
  rcases hmem with hm | ⟨-, hm⟩
  · exact ⟨hm ▸ h.memory, hm ▸ h.within, hp⟩
  · exact ⟨hm ▸ Memory.wf_poke h.memory _ _, hm ▸ Memory.within_poke h.within h.pointer _, hp⟩

theorem exchanges {bytes rxs : List Byte} {k : Nat} (h : DeviceSound v d)
    (he : Device.exchanges v k d bytes = some (e, rxs)) : DeviceSound v e := by
  induction bytes generalizing d k rxs with
  | nil =>
    cases he
    exact h
  | cons tx rest ih =>
    unfold Device.exchanges at he
    split at he
    · cases he
    · rename_i hx
      split at he
      · cases he
      · rename_i hxs
        cases he
        exact ih (h.exchange hx) hxs

end DeviceSound

/-- Whatever the environment does with a byte, the device stays sound. -/
theorem respond_sound {s : State} {tx rx : Byte} {d : Device} (h : DeviceSound s.cfg.variant s.dev)
    (hr : respond s tx = some (d, rx)) : DeviceSound s.cfg.variant d := by
  obtain ⟨-, rfl⟩ | ⟨-, rfl | ⟨f, r, hx⟩⟩ := respond_device hr
  · exact h
  · exact h.lose
  · exact h.exchange hx

/-! ### Inside an operation that uses the bus -/

/-- What holds while an operation that uses the bus is in progress, by the position of the wire trace. -/
structure InProgress (p : BracketPos) (s : State) : Prop where
  device : DeviceSound s.cfg.variant s.dev
  region : s.dbuf.length = s.cfg.nMax
  line : s.csCfg = true
  bus : s.busInited = true
  busy : s.busy = true
  pending : s.done = false
  level : s.csN = decide (p = .closed)
  trace : bracketPos s.wire = some p
  inside : p ≠ .closed → s.phase ≠ .idle
  /-- outside a bracket the device's decoder is idle, and always that of a device which is not on the bus. -/
  decoder : p = .closed ∨ s.devPresent = false → s.dev.dpos = .idle

namespace InProgress
variable {p : BracketPos} {s t : State}

/-- Registers that do not persist are no part of it. -/
theorem scratch (h : InProgress p s) (hs : SameButScratch s t) : InProgress p t := by
  obtain ⟨hlen, ht⟩ := hs
  have hregion : t.dbuf.length = t.cfg.nMax := by
    rw [hlen, h.region, ht]
  rw [ht] at hregion ⊢
  exact ⟨h.device, hregion, h.line, h.bus, h.busy, h.pending, h.level, h.trace, h.inside, h.decoder⟩

theorem phase (h : InProgress p s) {q : Phase} (hq : p ≠ .closed → q ≠ .idle) : InProgress p (setPhase q s) :=
  ⟨h.device, h.region, h.line, h.bus, h.busy, h.pending, h.level, h.trace, hq, h.decoder⟩

theorem count (h : InProgress p s) (w : Word) : InProgress p { s with cnt := w } := h.scratch ⟨rfl, rfl⟩

theorem answer (h : InProgress p s) (w : List Byte) : InProgress p { s with rbuf := w } :=
  ⟨h.device, h.region, h.line, h.bus, h.busy, h.pending, h.level, h.trace, h.inside, h.decoder⟩

theorem initialised (h : InProgress p s) : InProgress p { s with inited := true } :=
  ⟨h.device, h.region, h.line, h.bus, h.busy, h.pending, h.level, h.trace, h.inside, h.decoder⟩

/-- A transfer that never returns, inside a bracket. -/
theorem stalls (h : InProgress p s) (hp : p ≠ .closed) (hf : nextFate s = .stalled) : MachineInv s where
  memory := h.device.memory
  within := h.device.within
  pointer := h.device.pointer
  region := h.region
  order _ := ⟨h.line, h.bus⟩
  between hb := absurd (h.busy.symm.trans hb) nofun
  hanging _ := by
    refine .inl ⟨⟨hf, h.busy, h.pending, h.level.trans (decide_eq_false hp), h.inside hp⟩, ?_⟩
    have ht := h.trace
    cases p with
    | closed => exact absurd rfl hp
    | opened => exact .inl ht
    | inFrame => exact .inr ht

/-- An operation completes with its last bracket closed. -/
theorem completes (h : InProgress .closed s) : MachineInv (complete s) where
  memory := h.device.memory
  within := h.device.within
  pointer := h.device.pointer
  region := h.region
  order _ := ⟨h.line, h.bus⟩
  between _ := ⟨rfl, h.level, h.trace, h.decoder (.inl rfl)⟩
  hanging hb := nomatch hb

theorem opens (h : InProgress .closed s) : InProgress .opened (openBracket s) where
  device := by
    rw [openBracket_dev]
    split
    · exact h.device.select
    · exact h.device
  region := h.region
  line := h.line
  bus := h.bus
  busy := h.busy
  pending := h.pending
  level := rfl
  trace := by rw [openBracket_wire, bracketPos, h.trace]; rfl
  inside _ := nofun
  decoder habsent := by
    have hp : s.devPresent = false := habsent.resolve_left nofun
    rw [openBracket_dev, hp]
    exact h.decoder (.inl rfl)

theorem closes (h : InProgress .inFrame s) : InProgress .closed (closeBracket s) where
  device := by
    rw [closeBracket_dev]
    split
    · exact h.device.deselect _
    · exact h.device
  region := h.region
  line := h.line
  bus := h.bus
  busy := h.busy
  pending := h.pending
  level := rfl
  trace := by rw [closeBracket_wire, bracketPos, h.trace]; rfl
  inside hp := absurd rfl hp
  decoder _ := by
    rw [closeBracket_dev]
    split
    · rfl
    · rename_i hp
      exact h.decoder (.inr (Bool.eq_false_iff.mpr hp))

/-- A transfer returns. -/
theorem after {e : WireEvent} {d : Device} {tx rx : Byte} (h : InProgress p s) (hp : p ≠ .closed)
    (he : p.next e = some .inFrame) (hr : respond s tx = some (d, rx)) : InProgress .inFrame (afterExchange s d e) where
  device := respond_sound (s := s) h.device hr
  region := h.region
  line := h.line
  bus := h.bus
  busy := h.busy
  pending := h.pending
  level := h.level.trans (decide_eq_false hp)
  trace := by
    show (bracketPos s.wire).bind _ = _
    rw [h.trace]
    exact he
  inside _ := h.inside hp
  decoder habsent := by
    have hp : s.devPresent = false := habsent.resolve_left nofun
    obtain ⟨-, rfl⟩ | ⟨hthere, -⟩ := respond_device hr
    · exact h.decoder (.inr hp)
    · exact absurd (hp.symm.trans hthere) nofun

/-- One exchange inside a bracket, whatever the bus does. -/
theorem exchange {ev : Byte → Byte → WireEvent} {tx : Byte} (h : InProgress p s) (hp : p ≠ .closed)
    (he : ∀ rx, p.next (ev tx rx) = some .inFrame) :
    (exchange ev tx s).Post (fun _ t => InProgress .inFrame t) MachineInv :=
  exchange_post (fun _ _ hr => h.after hp (he _) hr) (h.stalls hp)

/-- One byte sent at a position of the frame. -/
theorem send {q : Phase} {tx : Byte} (h : InProgress p s) (hp : p ≠ .closed) (hq : q ≠ .idle)
    (he : ∀ rx, p.next (.x tx rx) = some .inFrame) : (send q tx s).Post (fun _ t => InProgress .inFrame t) MachineInv :=
  ((h.phase fun _ => hq).exchange hp he).bind fun _ _ ht => ht

/-- The command byte of a frame. -/
theorem command {cmd : Byte} (hc : blockCommand cmd = true) (h : InProgress .opened s) :
    (Machine.send .cmd cmd s).Post (fun _ t => InProgress .inFrame t) MachineInv :=
  h.send nofun nofun fun _ => if_pos hc

/-- A later byte of a frame. -/
theorem sendMore {q : Phase} {tx : Byte} (hq : q ≠ .idle) (h : InProgress .inFrame s) :
    (Machine.send q tx s).Post (fun _ t => InProgress .inFrame t) MachineInv :=
  h.send nofun hq fun _ => rfl

end InProgress

/-- READ and WRITE brackets of the block keep to the discipline. -/
theorem bracketRule_inProgress {cmd : Byte} (hc : blockCommand cmd = true) :
    BracketRule cmd InProgress MachineInv where
  buffer _ _ h := h.scratch ⟨rfl, rfl⟩
  opens _ h := h.opens
  command _ h := h.command hc
  address _ _ _ hp h := h.sendMore (by rcases hp with rfl | rfl | rfl <;> nofun)
  data _ h := h.phase fun _ => nofun
  closes _ h := h.closes

/-! ### The pieces of the operations -/

/-- What a piece that ends outside a bracket keeps. -/
abbrev KeepsProgress {α : Type} (m : Run α) : Prop := m.Post (fun _ t => InProgress .closed t) MachineInv

namespace InProgress
variable {s : State}

theorem readByte (h : InProgress .closed s) (a : Word) : KeepsProgress (readByte a s) :=
  bracket_post (bracketRule_inProgress rfl) h fun _ hu =>
    (hu.phase (q := .data) fun _ => nofun).exchange nofun fun _ => rfl

theorem writeByte (h : InProgress .closed s) (a : Word) (v : Byte) : KeepsProgress (writeByte a v s) :=
  bracket_post (bracketRule_inProgress rfl) h fun _ hu => (hu.phase (q := .data) fun _ => nofun).sendMore nofun

theorem modeFrame (h : InProgress .closed s) : KeepsProgress (modeFrame s) :=
  (h.opens.command rfl).bind fun _ _ h1 => (h1.sendMore (q := .mode) nofun).bind fun _ _ h2 => h2.closes

theorem sendZeros (k : Nat) (h : InProgress .inFrame s) :
    (sendZeros k s).Post (fun _ t => InProgress .inFrame t) MachineInv := by
  induction k generalizing s with
  | zero => exact h
  | succ k ih => exact (h.sendMore (q := .data) nofun).bind fun _ _ h1 => ih (h1.scratch ⟨rfl, rfl⟩)

theorem xferBlock (k i : Nat) (h : InProgress .inFrame s) :
    (xferBlock k i s).Post (fun _ t => InProgress .inFrame t) MachineInv := by
  induction k generalizing i s with
  | zero => exact h
  | succ k ih =>
    exact (h.exchange nofun fun _ => rfl).bind fun _ _ h1 => ih (i + 1) (h1.scratch ⟨List.length_set, rfl⟩)

theorem blockBracket {cmd : Byte} (hc : blockCommand cmd = true) (h : InProgress .closed s) (a : Word) (n : Nat) :
    KeepsProgress (bracket cmd a (Machine.xferBlock n 0) s) :=
  bracket_post (bracketRule_inProgress hc) h fun _ hu => (hu.phase (q := .data) fun _ => nofun).xferBlock n 0

theorem foldBytes (k : Nat) (h : InProgress .closed s) : KeepsProgress (foldBytes k s) := by
  induction k generalizing s with
  | zero => exact h
  | succ k ih =>
    exact (h.readByte s.cur).bind fun _ _ h1 => ih ((h1.phase fun hp => absurd rfl hp).scratch ⟨rfl, rfl⟩)

/-- The transfer region loaded with at most `N_MAX` bytes. -/
theorem loadRegion {bytes : List Byte} (h : InProgress .closed s) (hn : bytes.length ≤ s.cfg.nMax) :
    InProgress .closed (loadRegion bytes s) := by
  refine h.scratch ⟨?_, rfl⟩
  have hregion := h.region
  simp only [Machine.loadRegion, List.length_append, List.length_drop]
  omega

theorem freeRegion {n : Nat} (h : InProgress .closed s) (hn : n ≤ s.cfg.nMax) :
    InProgress .closed (freeRegion n s) := by
  have hload := h.loadRegion (bytes := (List.range n).map fun i => Config.freeByte (s.draws + i)) (by simpa using hn)
  exact ⟨hload.device, hload.region, h.line, h.bus, h.busy, h.pending, h.level, h.trace, h.inside, h.decoder⟩

end InProgress

/-! ### The operations -/

/-- What a run of a whole operation must keep. -/
abbrev KeepsInvariant (m : Run Unit) : Prop := m.Post (fun _ u => MachineInv (complete u)) MachineInv

/-- A request whose operation keeps the invariant. -/
theorem perform_keeps {refusal : State → Option Refusal} {body : State → Run Unit} {s t : State}
    (h : s.busy = false → refusal s = none → KeepsInvariant (body (accept s)))
    (e : perform refusal body s = .next t) : MachineInv t :=
  (Run.Post.perform h e).elim id id

/-- The last piece of an operation: a register that does not persist is written. -/
theorem InProgress.ends {s t : State} (h : InProgress .closed s) (hs : SameButScratch s t) :
    KeepsInvariant (.ok () t) :=
  (h.scratch hs).completes

section Operations
variable {s : State}

theorem readOperation_keeps (a : Word) (h : InProgress .closed s) : KeepsInvariant (readOperation a s) :=
  ((h.scratch (t := { s with addr := a }) ⟨rfl, rfl⟩).readByte a).bind fun _ _ hu => hu.ends ⟨rfl, rfl⟩

theorem writeOperation_keeps (a : Word) (v : Byte) (h : InProgress .closed s) : KeepsInvariant (writeOperation a v s) :=
  ((h.scratch (t := { s with addr := a, val := v }) ⟨rfl, rfl⟩).writeByte a v).mono (fun _ _ hu => hu.completes)
    fun _ hu => hu

theorem getOperation_keeps (a : Word) {n : Nat} (hn : n ≤ s.cfg.nMax) (h : InProgress .closed s) :
    KeepsInvariant (getOperation a n s) := by
  have hstart := (h.scratch (t := { s with addr := a, n := n }) ⟨rfl, rfl⟩).freeRegion hn
  exact (hstart.blockBracket rfl a n).bind fun _ _ hu => (hu.answer _).completes

theorem putOperation_keeps (a : Word) {w : List Byte} (hn : w.length ≤ s.cfg.nMax) (h : InProgress .closed s) :
    KeepsInvariant (putOperation a w s) := by
  have hstart := (h.scratch (t := { s with addr := a, n := w.length }) ⟨rfl, rfl⟩).loadRegion hn
  exact (hstart.blockBracket rfl a w.length).bind fun _ _ hu => (hu.answer _).completes

theorem eraseOperation_keeps (h : InProgress .closed s) : KeepsInvariant (eraseOperation s) := by
  have hbracket : KeepsProgress (eraseOperation s) := bracket_post (bracketRule_inProgress rfl) h fun _ hu =>
    ((hu.phase (q := .data) fun _ => nofun).count _).sendZeros _
  exact hbracket.mono (fun _ _ hu => hu.completes) fun _ hu => hu

theorem checksumOperation_keeps (a len : Word) (h : InProgress .closed s) :
    KeepsInvariant (checksumOperation a len s) := by
  have hstart := h.scratch (t := seedUnit { s with
    addr := a, len := len, cur := checksumStart s.cfg.variant a, cnt := maskLength s.cfg.variant len }) ⟨rfl, rfl⟩
  exact (hstart.foldBytes _).bind fun _ _ hu => hu.ends ⟨rfl, rfl⟩

theorem initialise_keeps (h : InProgress .closed s) : KeepsInvariant (initialise s) :=
  h.modeFrame.bind fun _ _ hu => hu.initialised.completes

end Operations

/-! ### From the operations to the steps -/

/-- The device, the region and the order of initialisation; between operations the rest of the invariant is these four. -/
theorem machineInv_of_idle {s : State} (hb : s.busy = false) (hdev : DeviceSound s.cfg.variant s.dev)
    (hregion : s.dbuf.length = s.cfg.nMax) (horder : s.inited = true → s.csCfg = true ∧ s.busInited = true)
    (hbetween : s.phase = .idle ∧ s.csN = true ∧ bracketPos s.wire = some .closed ∧ s.dev.dpos = .idle) :
    MachineInv s :=
  ⟨hdev.memory, hdev.within, hdev.pointer, hregion, horder, fun _ => hbetween,
    fun hbusy => absurd (hb.symm.trans hbusy) nofun⟩

theorem bracketPos_cons {e : WireEvent} {older : List WireEvent} (he : BracketPos.closed.next e = some .closed)
    (h : bracketPos older = some .closed) : bracketPos (e :: older) = some .closed := by
  rw [bracketPos, h]
  exact he

namespace MachineInv
variable {s : State}

theorem device (h : MachineInv s) : DeviceSound s.cfg.variant s.dev := ⟨h.memory, h.within, h.pointer⟩

/-- An accepted operation that uses the bus starts outside a bracket. -/
theorem accepted (h : MachineInv s) (hr : BusReady s) : InProgress .closed (accept s) := by
  obtain ⟨-, hlevel, htrace, hdecoder⟩ := h.between hr.idle
  exact ⟨h.device, h.region, hr.line, hr.bus, rfl, rfl, hlevel, htrace, fun hp => absurd rfl hp, fun _ => hdecoder⟩

/-- An accepted data operation does, too. -/
theorem acceptedData (h : MachineInv s) (hb : s.busy = false) (hr : dataRefusal s = none) :
    InProgress .closed (accept s) :=
  h.accepted (ready_of_dataRefusal hb hr).toBusReady

/-- The line is configured, and the bus has been initialised since: the mode frame of create may begin. -/
theorem createdOnBus (h : MachineInv s) (hb : s.busy = false) (fates : List Fate) :
    InProgress .closed (markBusInit { configureLine (accept s) with fates := fates }) := by
  obtain ⟨-, -, htrace, hdecoder⟩ := h.between hb
  exact ⟨h.device, h.region, rfl, rfl, rfl, rfl, rfl, bracketPos_cons rfl (bracketPos_cons rfl htrace),
    fun hp => absurd rfl hp, fun _ => hdecoder⟩

/-- The line is configured, and `BusInit` never returns. -/
theorem createdStalled (h : MachineInv s) (hb : s.busy = false) (hbus : s.busInited = false)
    (hf : nextFate s = .stalled) : MachineInv (configureLine (accept s)) where
  memory := h.memory
  within := h.within
  pointer := h.pointer
  region := h.region
  order hi := ⟨rfl, (h.order hi).2⟩
  between := nofun
  hanging _ := by
    obtain ⟨hphase, -, htrace, hdecoder⟩ := h.between hb
    exact .inr ⟨⟨hf, rfl, rfl, rfl, rfl, hbus⟩, hphase, bracketPos_cons rfl htrace, hdecoder⟩

/-- create without automatic initialisation ends with the line configured. -/
theorem created (h : MachineInv s) (hb : s.busy = false) : MachineInv (complete (configureLine (accept s))) := by
  obtain ⟨-, -, htrace, hdecoder⟩ := h.between hb
  exact machineInv_of_idle rfl h.device h.region (fun hi => ⟨rfl, (h.order hi).2⟩)
    ⟨rfl, rfl, bracketPos_cons rfl htrace, hdecoder⟩

/-- length answers without the bus. -/
theorem answered (h : MachineInv s) (hb : s.busy = false) (r : Word) :
    KeepsInvariant (.ok () { accept s with res := r }) := by
  obtain ⟨-, hlevel, htrace, hdecoder⟩ := h.between hb
  exact machineInv_of_idle rfl h.device h.region h.order ⟨rfl, hlevel, htrace, hdecoder⟩

/-- The invariant says nothing of the inputs. -/
theorem withInputs (h : MachineInv s) (hb : s.busy = false) (rest : List Input) : MachineInv { s with inputs := rest } :=
  machineInv_of_idle hb h.device h.region h.order (h.between hb)

theorem waits (h : MachineInv s) (hb : s.busy = false) : MachineInv (wait s) :=
  machineInv_of_idle hb h.device h.region h.order (h.between hb)

theorem deviceFrame {bytes : List Byte} {t : State} (h : MachineInv s) (e : deviceFrame bytes s = .next t) :
    MachineInv t := by
  obtain ⟨hb, ht, hdev⟩ := deviceFrame_next e
  obtain ⟨hphase, hlevel, htrace, hdecoder⟩ := h.between hb
  have hd : DeviceSound s.cfg.variant t.dev ∧ t.dev.dpos = .idle := by
    rcases hdev with hd | ⟨d, rxs, free, hx, hd⟩
    · exact hd ▸ ⟨h.device, hdecoder⟩
    · exact hd ▸ ⟨(h.device.select.exchanges hx).deselect free, rfl⟩
  rw [ht]
  exact machineInv_of_idle hb hd.1 h.region h.order ⟨hphase, hlevel, htrace, hd.2⟩

theorem hostBusInit {t : State} (h : MachineInv s) (hb : s.busy = false) (e : hostBusInit s = .next t) :
    MachineInv t := by
  unfold Machine.hostBusInit at e
  split at e
  · cases e
  · cases e
    obtain ⟨hphase, hlevel, htrace, hdecoder⟩ := h.between hb
    exact machineInv_of_idle hb h.device h.region (fun hi => ⟨(h.order hi).1, rfl⟩)
      ⟨hphase, hlevel, bracketPos_cons rfl htrace, hdecoder⟩

theorem blockReset (h : MachineInv s) (hb : s.busy = false) : MachineInv (blockReset s) := by
  obtain ⟨-, -, htrace, hdecoder⟩ := h.between hb
  exact machineInv_of_idle rfl h.device List.length_replicate nofun ⟨rfl, rfl, htrace, hdecoder⟩

end MachineInv

/-- create (40_init_and_query.md R110), in each of its ends. -/
theorem execCreate_keeps {auto : Bool} {s t : State} (h : MachineInv s) (e : execCreate auto s = .next t) :
    MachineInv t := by
  refine perform_keeps (fun hb hr => ?_) e
  obtain ⟨-, hbus⟩ := of_createRefusal hr
  cases auto with
  | false => exact h.created hb
  | true =>
    have hinit : (busInit (configureLine (accept s))).Post (fun _ u => InProgress .closed u) MachineInv :=
      busInit_post (fun _ => h.createdOnBus hb _) (h.createdStalled hb (hbus rfl))
    exact hinit.bind fun _ _ hu => initialise_keeps hu

theorem execLength_keeps {s t : State} (h : MachineInv s) (e : execLength s = .next t) : MachineInv t := by
  unfold execLength at e
  refine perform_keeps (fun hb _ => ?_) e
  exact h.answered hb _

/-- Every instruction keeps the invariant. -/
theorem exec_keeps {i : Instr} {s t : State} (h : MachineInv s) (e : exec i s = .next t) : MachineInv t := by
  cases i with
  | create auto => exact execCreate_keeps h e
  | initializeDevice =>
    exact perform_keeps (fun hb hr => initialise_keeps (h.accepted (busReady_of_initRefusal hb hr))) e
  | length => exact execLength_keeps h e
  | read a | index a => exact perform_keeps (fun hb hr => readOperation_keeps a (h.acceptedData hb hr)) e
  | write a v | update a v => exact perform_keeps (fun hb hr => writeOperation_keeps a v (h.acceptedData hb hr)) e
  | get a n =>
    refine perform_keeps (fun hb hr => ?_) e
    obtain ⟨hdata, hn⟩ := of_payloadRefusal hr
    exact getOperation_keeps a hn (h.acceptedData hb hdata)
  | put a w =>
    refine perform_keeps (fun hb hr => ?_) e
    obtain ⟨hdata, hn⟩ := of_payloadRefusal hr
    exact putOperation_keeps a hn (h.acceptedData hb hdata)
  | erase => exact perform_keeps (fun hb hr => eraseOperation_keeps (h.acceptedData hb hr)) e
  | checksum a len =>
    exact perform_keeps (fun hb hr => checksumOperation_keeps a len (h.acceptedData hb (of_checksumRefusal hr))) e
  | reservedB | reservedC | reservedD | reservedE | reservedF => exact absurd e reject_ne_next
  | writeModeRegister => exact h.deviceFrame e
  | readS a ds | writeS a ds | readL a ds | writeL a ds | readModeRegister ds => exact h.deviceFrame e

/-- Settles O11: whichever input the step takes, what it runs keeps the invariant; a hanging operation stays as it is. -/
theorem stepKeepsTheInvariant : Obligations.StepKeepsTheInvariant := by
  intro s t h e
  cases stepped_of_next e with
  | hung _ => exact h
  | waited hb => exact h.waits hb
  | executed rest i hb e => exact exec_keeps (h.withInputs hb rest) e
  | framed rest bytes hb e => exact (h.withInputs hb rest).deviceFrame e
  | busInitialised rest hb e => exact (h.withInputs hb rest).hostBusInit hb e
  | blockReset rest hb => exact (h.withInputs hb rest).blockReset hb

/-- The invariant holds in the reset state of every configuration. -/
theorem machineInv_resetOf (c : Config) : MachineInv (State.resetOf c) :=
  machineInv_of_idle rfl ⟨List.Pairwise.nil, nofun, capacity_pos _⟩ List.length_replicate nofun ⟨rfl, rfl, rfl, rfl⟩

/-- Settles O10: the machine's configuration is one of them. -/
theorem invariantAtReset : Obligations.InvariantAtReset := machineInv_resetOf Config.machine

end Sys2Proof.Machine
end

section
/-! SUPPORT. What an instruction can do to a register, said once over the actions its operation is played by: an action that
does not name a register leaves it alone (10_state.md R21, R25, R28). -/

namespace Sys2Proof.Machine

/-! ### The actions of an operation -/

/-- The actions that play the operation of an instruction; a reserved code and a wire command have none. -/
def operationActions (v : Variant) : Instr → List Action
  | .create auto => createActions auto
  | .initializeDevice => initialiseActions
  | .length => [.answerCapacity]
  | .read a | .index a => readSequence v a
  | .write a b | .update a b => writeSequence v a b
  | .get a n => getSequence v a n
  | .put a w => putSequence v a w
  | .erase => eraseSequence v
  | .checksum a len => checksumSequence v a len
  | .reservedB | .reservedC | .reservedD | .reservedE | .reservedF => []
  | .writeModeRegister | .readS _ _ | .writeS _ _ | .readL _ _ | .writeL _ _ | .readModeRegister _ => []

/-- How an instruction comes to its next state: its actions run to the end or hang, or the device's port takes a frame. -/
inductive Executed (i : Instr) (s : State) : State → Prop where
  | completed {u : State} {rx : Byte} (run : runActions (operationActions s.cfg.variant i) 0x00 (accept s) = .ok rx u) :
      Executed i s (complete u)
  | hung {t : State} (run : runActions (operationActions s.cfg.variant i) 0x00 (accept s) = .hung t) : Executed i s t
  | framed {t : State} (wire : isWireCommand i = true) (frame : t = portFrame s t) : Executed i s t

theorem executed_of_perform {i : Instr} {refusal : State → Option Refusal} {body : State → Run Unit} {s t : State}
    (hp : Plays (operationActions s.cfg.variant i) (accept s) (fun _ => ()) (body (accept s)))
    (h : perform refusal body s = .next t) : Executed i s t := by
  obtain ⟨-, -, hend⟩ := perform_next h
  rw [← hp 0x00] at hend
  cases hrun : runActions (operationActions s.cfg.variant i) 0x00 (accept s) with
  | ok rx u =>
    rw [hrun] at hend
    obtain ⟨u', hu, rfl⟩ | hu := hend
    · cases hu
      exact .completed hrun
    · cases hu
  | hung u =>
    rw [hrun] at hend
    obtain ⟨u', hu, -⟩ | hu := hend
    · cases hu
    · cases hu
      exact .hung hrun
  | refused r =>
    rw [hrun] at hend
    obtain ⟨u', hu, -⟩ | hu := hend <;> cases hu

theorem executed_of_deviceFrame {i : Instr} {bytes : List Byte} {s t : State} (hi : isWireCommand i = true)
    (h : deviceFrame bytes s = .next t) : Executed i s t :=
  .framed hi (deviceFrame_next h).2.1

theorem executed_of_next {i : Instr} {s t : State} (h : exec i s = .next t) : Executed i s t := by
  cases i with
  | create auto =>
    have h : execCreate auto s = .next t := h
    unfold execCreate at h
    refine executed_of_perform ?_ h
    exact plays_create auto (accept s)
  | initializeDevice => exact executed_of_perform (plays_initialise _) h
  | length =>
    have h : execLength s = .next t := h
    unfold execLength at h
    exact executed_of_perform (fun _ => rfl) h
  | read a | index a => exact executed_of_perform (plays_read a (accept s)) h
  | write a b | update a b => exact executed_of_perform (plays_write a b (accept s)) h
  | get a n => exact executed_of_perform (plays_get a n (accept s)) h
  | put a w => exact executed_of_perform (plays_put a w (accept s)) h
  | erase => exact executed_of_perform (plays_erase (accept s)) h
  | checksum a len => exact executed_of_perform (plays_checksum a len (accept s)) h
  | reservedB | reservedC | reservedD | reservedE | reservedF => exact absurd h reject_ne_next
  | writeModeRegister => exact executed_of_deviceFrame rfl h
  | readS a ds | writeS a ds | readL a ds | writeL a ds | readModeRegister ds => exact executed_of_deviceFrame rfl h

/-! ### What actions leave alone -/

/-- `acc` is written by the seed and the fold only, `inited` by its own assignment; an action that hangs writes nothing. -/
theorem Action.run_registers (act : Action) (rx : Byte) (s : State) :
    (act.run rx s).Post
      (fun _ t => (act ≠ .seed → act ≠ .fold → t.acc = s.acc) ∧ (act ≠ .setInited → t.inited = s.inited))
      (fun t => t = s) := by
  have hx : ∀ ev tx, (exchange ev tx s).Post (fun _ t => t.acc = s.acc ∧ t.inited = s.inited) (fun t => t = s) :=
    fun ev tx => exchange_post (fun _ _ _ => ⟨rfl, rfl⟩) fun _ => rfl
  cases act with
  | xfer tx => exact (hx _ _).mono (fun _ _ h => ⟨fun _ _ => h.1, fun _ => h.2⟩) fun _ h => h
  | block i => exact (hx _ _).bind fun _ _ h => ⟨fun _ _ => h.1, fun _ => h.2⟩
  | busInit =>
    have h : (Machine.busInit s).Post (fun _ t => t.acc = s.acc ∧ t.inited = s.inited) (fun t => t = s) :=
      busInit_post (fun _ => ⟨rfl, rfl⟩) fun _ => rfl
    exact h.bind (k := fun _ s => .ok rx s) fun _ _ h => ⟨fun _ _ => h.1, fun _ => h.2⟩
  | seed => exact ⟨fun h => absurd rfl h, fun _ => rfl⟩
  | fold => exact ⟨fun _ h => absurd rfl h, fun _ => rfl⟩
  | setInited => exact ⟨fun _ _ => rfl, fun h => absurd rfl h⟩
  | _ => exact ⟨fun _ _ => rfl, fun _ => rfl⟩

/-- Two things that hold after a run. -/
theorem Run.Post.and {α : Type} {m : Run α} {P Q : α → State → Prop} {G H : State → Prop} (h : m.Post P G)
    (h' : m.Post Q H) : m.Post (fun a s => P a s ∧ Q a s) fun s => G s ∧ H s := by
  cases m with
  | ok a s => exact ⟨h, h'⟩
  | hung s => exact ⟨h, h'⟩
  | refused r => trivial

/-- An action leaves the value of `f` as it was, completing or hanging. -/
def Action.Keeps {β : Type} (f : State → β) (act : Action) : Prop :=
  ∀ rx s, (act.run rx s).Post (fun _ t => f t = f s) fun t => f t = f s

theorem Action.keeps_busy (act : Action) : act.Keeps State.busy := fun rx s =>
  (act.run_post rx s).mono (fun _ _ h => h.1) fun _ h => congrArg _ h

theorem Action.keeps_cfg (act : Action) : act.Keeps State.cfg := fun rx s =>
  (act.run_post rx s).mono (fun _ _ h => h.2) fun _ h => congrArg _ h

theorem Action.keeps_acc {act : Action} (hs : act ≠ .seed) (hf : act ≠ .fold) : act.Keeps State.acc := fun rx s =>
  (act.run_registers rx s).mono (fun _ _ h => h.1 hs hf) fun _ h => congrArg _ h

theorem Action.keeps_inited {act : Action} (h : act ≠ .setInited) : act.Keeps State.inited := fun rx s =>
  (act.run_registers rx s).mono (fun _ _ ht => ht.2 h) fun _ h => congrArg _ h

theorem runActions_keeps {β : Type} {f : State → β} {acts : List Action} (h : ∀ act ∈ acts, act.Keeps f) (rx : Byte)
    (s : State) : (runActions acts rx s).Post (fun _ t => f t = f s) fun t => f t = f s := by
  induction acts generalizing rx s with
  | nil => exact rfl
  | cons act acts ih =>
    refine (h act List.mem_cons_self rx s).bind fun rx' t ht => ?_
    have hrest := ih (fun a ha => h a (List.mem_cons_of_mem act ha)) rx' t
    exact hrest.mono (fun _ _ hu => hu.trans ht) fun _ hu => hu.trans ht

/-- What the actions of an instruction, the ends of a request and a frame at the device's port leave alone, it does. -/
theorem Executed.keeps {β : Type} {f : State → β} {i : Instr} {s t : State} (h : Executed i s t)
    (hacts : ∀ act ∈ operationActions s.cfg.variant i, act.Keeps f) (haccept : f (accept s) = f s)
    (hcomplete : ∀ u, f (complete u) = f u) (hport : f (portFrame s t) = f s) : f t = f s := by
  have hpost := runActions_keeps hacts 0x00 (accept s)
  cases h with
  | completed run =>
    rw [run] at hpost
    exact ((hcomplete _).trans hpost).trans haccept
  | hung run =>
    rw [run] at hpost
    exact hpost.trans haccept
  | framed _ frame => exact (congrArg f frame).trans hport

/-! ### The configuration -/

theorem exec_cfg {i : Instr} {s t : State} (h : exec i s = .next t) : t.cfg = s.cfg :=
  (executed_of_next h).keeps (fun act _ => act.keeps_cfg) rfl (fun _ => rfl) rfl

theorem hostBusInit_cfg {s t : State} (h : hostBusInit s = .next t) : t.cfg = s.cfg := by
  unfold hostBusInit at h
  split at h
  · cases h
  · cases h
    rfl

theorem step_cfg {s t : State} (h : step s = .next t) : t.cfg = s.cfg := by
  cases stepped_of_next h with
  | hung _ => rfl
  | waited _ => rfl
  | executed rest i _ e => exact exec_cfg (s := { s with inputs := rest }) e
  | framed rest bytes _ e => rw [(deviceFrame_next e).2.1]; rfl
  | busInitialised rest _ e => exact hostBusInit_cfg (s := { s with inputs := rest }) e
  | blockReset rest _ => rfl

/-- Settles O12: no action writes the configuration, and nothing else that a step runs does. -/
theorem configurationIsNeverWritten : Obligations.ConfigurationIsNeverWritten :=
  ⟨fun _ _ => step_cfg, fun _ _ _ => exec_cfg, rfl, rfl⟩

/-! ### Which actions an operation has -/

/-- The actions that write neither `acc` nor `inited`. -/
def Action.isPlain : Action → Bool
  | .seed | .fold | .setInited => false
  | .line | .busInit | .csLow | .csHigh | .xfer _ | .block _ | .goto _ | .fillScratch _ => true
  | .latchAddr _ | .latchVal _ | .latchCount _ | .latchLength _ | .freeRegion _ | .loadRegion _ => true
  | .answerCapacity | .answerByte | .answerSum | .answerRegion _ | .answerValue _ => true
  | .startAt _ | .countLength _ | .advanceCur | .countAll | .countDown => true

theorem Action.keeps_acc_of_isPlain {act : Action} (h : act.isPlain = true) : act.Keeps State.acc :=
  keeps_acc (by rintro rfl; cases h) (by rintro rfl; cases h)

theorem Action.keeps_inited_of_isPlain {act : Action} (h : act.isPlain = true) : act.Keeps State.inited :=
  keeps_inited (by rintro rfl; cases h)

/-- Nothing a bracket frames its data phase by is anything but plain. -/
@[simp] theorem all_isPlain_bracketActions (v : Variant) (cmd : Byte) (a : HeaderAddress) (body : List Action) :
    (bracketActions v cmd a body).all Action.isPlain = body.all Action.isPlain := by
  cases v <;> simp [bracketActions, headerActions, sendActions, closeActions, Action.isPlain]

@[simp] theorem all_isPlain_readActions (v : Variant) (a : HeaderAddress) :
    (readActions v a).all Action.isPlain = true := all_isPlain_bracketActions _ _ _ _

@[simp] theorem all_isPlain_blockActions (n : Nat) : (blockActions n).all Action.isPlain = true := by
  simp [blockActions, Action.isPlain]

@[simp] theorem all_isPlain_zeroActions (k : Nat) : (zeroActions k).all Action.isPlain = true := by
  simp [zeroActions, Action.isPlain]

/-- initializeDevice and create with automatic initialisation set `inited`, last of all (40_init_and_query.md R110, R111). -/
theorem operationActions_initialiser {i : Instr} (v : Variant) (hi : i = .initializeDevice ∨ i = .create true) :
    ∃ acts, operationActions v i = acts ++ [.setInited] ∧ acts.all Action.isPlain = true := by
  have hinit : ∃ acts, initialiseActions = acts ++ [.setInited] ∧ acts.all Action.isPlain = true :=
    ⟨.csLow :: sendActions .cmd (.constant cmdWriteModeRegister) ++ sendActions .mode (.constant modeSeq) ++ closeActions,
      rfl, rfl⟩
  obtain ⟨acts, hacts, hplain⟩ := hinit
  rcases hi with rfl | rfl
  · exact ⟨acts, hacts, hplain⟩
  · refine ⟨.line :: .busInit :: acts, ?_, hplain⟩
    rw [List.cons_append, List.cons_append, ← hacts]
    rfl

/-- Every other operation but checksum is plain. -/
theorem operationActions_plain {i : Instr} (v : Variant) (hi : ¬(i = .initializeDevice ∨ i = .create true))
    (hc : ∀ a len, i ≠ .checksum a len) : (operationActions v i).all Action.isPlain = true := by
  cases i with
  | create auto =>
    cases auto with
    | false => rfl
    | true => exact absurd (.inr rfl) hi
  | initializeDevice => exact absurd (.inl rfl) hi
  | read a | index a => simp [operationActions, readSequence, Action.isPlain]
  | write a b | update a b => simp [operationActions, writeSequence, Action.isPlain]
  | get a n => simp [operationActions, getSequence, Action.isPlain]
  | put a w => simp [operationActions, putSequence, Action.isPlain]
  | erase => simp [operationActions, eraseSequence, Action.isPlain]
  | checksum a len => exact absurd rfl (hc a len)
  | length => rfl
  | reservedB | reservedC | reservedD | reservedE | reservedF => rfl
  | writeModeRegister | readS _ _ | writeS _ _ | readL _ _ | writeL _ _ | readModeRegister _ => rfl

/-- checksum does not initialise the device. -/
theorem setInited_not_mem_checksumSequence (v : Variant) (a len : Word) : Action.setInited ∉ checksumSequence v a len := by
  have hread : Action.setInited ∉ readActions v .running := fun h =>
    absurd (List.all_eq_true.mp (all_isPlain_readActions v .running) _ h) nofun
  simp [checksumSequence, foldActions, hread]

/-- Only initializeDevice and create with automatic initialisation have the action that sets `inited`. -/
theorem operationActions_keep_inited {i : Instr} (v : Variant) (hi : ¬(i = .initializeDevice ∨ i = .create true)) :
    ∀ act ∈ operationActions v i, act.Keeps State.inited := by
  intro act hact
  by_cases hc : ∃ a len, i = .checksum a len
  · obtain ⟨a, len, rfl⟩ := hc
    exact Action.keeps_inited fun h => setInited_not_mem_checksumSequence v a len (h ▸ hact)
  · have hplain := operationActions_plain v hi fun a len h => hc ⟨a, len, h⟩
    exact Action.keeps_inited_of_isPlain (List.all_eq_true.mp hplain act hact)

/-- Only checksum has actions that write `acc`. -/
theorem operationActions_keep_acc {i : Instr} (v : Variant) (hc : ∀ a len, i ≠ .checksum a len) :
    ∀ act ∈ operationActions v i, act.Keeps State.acc := by
  intro act hact
  by_cases hi : i = .initializeDevice ∨ i = .create true
  · obtain ⟨acts, hacts, hplain⟩ := operationActions_initialiser v hi
    rcases List.mem_append.mp (hacts ▸ hact) with h | h
    · exact Action.keeps_acc_of_isPlain (List.all_eq_true.mp hplain act h)
    · obtain rfl := List.mem_singleton.mp h
      exact Action.keeps_acc nofun nofun
  · exact Action.keeps_acc_of_isPlain (List.all_eq_true.mp (operationActions_plain v hi hc) act hact)

/-! ### The accumulator and the initialisation -/

/-- Settles O14: no other operation has an action that writes `acc`, and a frame at the device's port is none. -/
theorem accumulatorIsWrittenOnlyByChecksum : Obligations.AccumulatorIsWrittenOnlyByChecksum := by
  intro i s t hc h
  exact (executed_of_next h).keeps (operationActions_keep_acc _ hc) rfl (fun _ => rfl) rfl

/-- The actions of initializeDevice and of create with automatic initialisation set `inited` if they run to the end, and
leave it if they hang. -/
theorem runActions_initialiser {i : Instr} (v : Variant) (hi : i = .initializeDevice ∨ i = .create true) (rx : Byte)
    (s : State) : (runActions (operationActions v i) rx s).Post (fun _ t => t.inited = true)
      fun t => t.busy = s.busy ∧ t.inited = s.inited := by
  obtain ⟨acts, hacts, hplain⟩ := operationActions_initialiser v hi
  have hbusy := runActions_keeps (acts := acts) (fun act _ => act.keeps_busy) rx s
  have hinited := runActions_keeps (acts := acts)
    (fun act h => Action.keeps_inited_of_isPlain (List.all_eq_true.mp hplain act h)) rx s
  rw [hacts, runActions_append]
  exact (hbusy.and hinited).bind fun _ _ _ => rfl

/-- What these two instructions make of `inited`. -/
theorem Executed.inited_of_initialiser {i : Instr} {s t : State} (h : Executed i s t)
    (hi : i = .initializeDevice ∨ i = .create true) :
    t.busy = false ∧ t.inited = true ∨ t.busy = true ∧ t.inited = s.inited := by
  have hpost := runActions_initialiser s.cfg.variant hi 0x00 (accept s)
  cases h with
  | completed run =>
    rw [run] at hpost
    exact .inl ⟨rfl, hpost⟩
  | hung run =>
    rw [run] at hpost
    exact .inr hpost
  | framed wire _ => rcases hi with rfl | rfl <;> cases wire

/-- Settles O13: the two instructions that set `inited` do it by completing, and the others leave it alone. -/
theorem initedIsOneWay : Obligations.InitedIsOneWay := by
  intro i s t h
  have hexec := executed_of_next h
  by_cases hi : i = .initializeDevice ∨ i = .create true
  · obtain ⟨hbusy, hset⟩ | ⟨hbusy, hkept⟩ := hexec.inited_of_initialiser hi
    · exact ⟨fun _ => hset, fun _ _ => ⟨hi, hbusy⟩, fun _ _ => hset⟩
    · refine ⟨hkept.trans, fun hclear hset => ?_, fun _ hidle => ?_⟩
      · exact absurd (hset.symm.trans (hkept.trans hclear)) nofun
      · exact absurd (hbusy.symm.trans hidle) nofun
  · have hkept : t.inited = s.inited := hexec.keeps (operationActions_keep_inited _ hi) rfl (fun _ => rfl) rfl
    refine ⟨hkept.trans, fun hclear hset => ?_, fun h => absurd h hi⟩
    exact absurd (hset.symm.trans (hkept.trans hclear)) nofun

end Sys2Proof.Machine
end

section
/-! SUPPORT. Two runs of one operation from states that differ at most in the registers that do not persist (10_state.md R35):
every such register that the operation reads has been written by it before, so the two runs stay alike. -/

namespace Sys2Proof.Machine

/-! ### States that differ in scratch registers -/

/-- The state `s` with the scratch registers of `r`. -/
def withScratch (r s : State) : State :=
  { s with
    addr := r.addr, len := r.len, val := r.val, n := r.n, res := r.res, acc := r.acc, abuf := r.abuf, dbuf := r.dbuf
    cur := r.cur, cnt := r.cnt }

theorem sameButScratch_iff {s s' : State} :
    SameButScratch s s' ↔ s'.dbuf.length = s.dbuf.length ∧ s' = withScratch s' s := Iff.rfl

namespace SameButScratch
variable {s s' : State}

/-- What does not read the scratch registers has one value on both sides. -/
theorem congr {γ : Type} {f : State → γ} (h : SameButScratch s s') (hf : ∀ r s, f (withScratch r s) = f s) :
    f s' = f s := by
  rw [(sameButScratch_iff.mp h).2]
  exact hf s' s

/-- An update that neither reads nor writes the scratch registers. -/
theorem update {u : State → State} (h : SameButScratch s s') (hu : ∀ r s, u (withScratch r s) = withScratch r (u s)) :
    SameButScratch (u s) (u s') := by
  obtain ⟨hlen, hs⟩ := sameButScratch_iff.mp h
  have hself : ∀ t, u t = withScratch t (u t) := fun t => hu t t
  have hdbuf : ∀ t, (u t).dbuf = t.dbuf := fun t => by rw [hself t]; rfl
  have hregs : withScratch (u s') (u s) = withScratch s' (u s) := by rw [hself s']; rfl
  refine sameButScratch_iff.mpr ⟨by rw [hdbuf, hdbuf, hlen], ?_⟩
  rw [hregs, ← hu, ← hs]

/-- Scratch registers written on each side. -/
theorem rewrite {t t' : State} (h : SameButScratch s s') (ht : SameButScratch s t) (ht' : SameButScratch s' t') :
    SameButScratch t t' := by
  refine ⟨ht'.1.trans (h.1.trans ht.1.symm), ?_⟩
  rw [ht'.2, h.2, ht.2]

end SameButScratch

/-! ### Two runs inside an operation -/

/-- Two states of one operation in progress that differ at most in scratch registers and agree on `view` of them. -/
structure Alike {β : Type} (view : State → β) (s s' : State) : Prop where
  same : SameButScratch s s'
  agree : view s' = view s
  running : s.busy = true

/-- A view that transfers do not change. -/
def Steady {β : Type} (view : State → β) : Prop :=
  ∀ ⦃s t : State⦄ ⦃new : List WireEvent⦄, Follows s t new → view t = view s

theorem steady_unit : Steady fun _ => () := fun _ _ _ _ => rfl
theorem steady_region (n : Nat) : Steady fun s => s.dbuf.take n := fun _ _ _ f => congrArg (List.take n) f.dbuf
theorem steady_fold : Steady fun s => (s.cur, s.acc) := fun _ _ _ f => by rw [f.2.2]

theorem Steady.withScratchBuffer {β : Type} {view : State → β} (hv : Steady view) : Steady fun s => (view s, s.abuf) :=
  fun _ _ _ f => by simp only [hv f, f.abuf]

theorem Run.Rel.mono {α : Type} {R S : State → State → Prop} {m m' : Run α} (h : m.Rel R m')
    (hRS : ∀ s s', R s s' → S s s') : m.Rel S m' := by
  cases m <;> cases m' <;> simp only [Run.Rel] at h ⊢
  case ok.ok => exact ⟨h.1, hRS _ _ h.2⟩
  case hung.hung => exact hRS _ _ h
  case refused.refused => exact h

section Pieces
variable {β : Type} {view : State → β} {s s' : State}

/-- A move of the sequencer or of a transfer that reads no scratch register. -/
theorem Alike.move {u : State → State} (hv : Steady view) (h : Alike view s s')
    (hu : ∀ r s, u (withScratch r s) = withScratch r (u s)) (hf : ∀ s, ∃ new, Follows s (u s) new) :
    Alike view (u s) (u s') := by
  obtain ⟨_, f⟩ := hf s
  obtain ⟨_, f'⟩ := hf s'
  refine ⟨h.same.update hu, (hv f').trans (h.agree.trans (hv f).symm), ?_⟩
  rw [f.2.2]
  exact h.running

theorem Alike.setPhase (hv : Steady view) (h : Alike view s s') (p : Phase) :
    Alike view (setPhase p s) (setPhase p s') :=
  h.move hv (fun _ _ => rfl) fun s => ⟨_, Follows.phase s p⟩

theorem Alike.openBracket (hv : Steady view) (h : Alike view s s') : Alike view (openBracket s) (openBracket s') :=
  h.move hv (fun _ _ => rfl) fun s => ⟨_, Follows.open s⟩

theorem Alike.closeBracket (hv : Steady view) (h : Alike view s s') : Alike view (closeBracket s) (closeBracket s') :=
  h.move hv (fun _ _ => rfl) fun s => ⟨_, Follows.close s⟩

theorem Alike.after (hv : Steady view) (h : Alike view s s') (d : Device) (e : WireEvent) :
    Alike view (afterExchange s d e) (afterExchange s' d e) :=
  h.move (u := fun s => afterExchange s d e) hv (fun _ _ => rfl) fun _ => ⟨_, Follows.after d e⟩

/-- Scratch registers written on each side, with what is then known of them. -/
theorem Alike.rewrite {γ : Type} {known : State → γ} {t t' : State} (h : Alike view s s') (ht : SameButScratch s t)
    (ht' : SameButScratch s' t') (hknown : known t' = known t) : Alike known t t' :=
  ⟨h.same.rewrite ht ht', hknown, (ht.congr (f := State.busy) fun _ _ => rfl).trans h.running⟩

/-- One exchange of one byte, on both sides. -/
theorem exchange_alike (hv : Steady view) (h : Alike view s s') (ev : Byte → Byte → WireEvent) {tx tx' : Byte}
    (htx : tx' = tx) : (exchange ev tx s).Rel (Alike view) (exchange ev tx' s') := by
  have hbus : s'.busInited = s.busInited := h.same.congr fun _ _ => rfl
  have hfate : nextFate s' = nextFate s := h.same.congr fun _ _ => rfl
  have hrespond : respond s' tx = respond s tx := h.same.congr (f := fun s => respond s tx) fun _ _ => rfl
  unfold exchange
  rw [htx, hrespond]
  by_cases hb : (!s.busInited) = true
  · have hb' : (!s'.busInited) = true := by rwa [hbus]
    rw [if_pos hb, if_pos hb']
    exact rfl
  have hb' : ¬(!s'.busInited) = true := by rwa [hbus]
  rw [if_neg hb, if_neg hb']
  by_cases hf : nextFate s = .stalled
  · rw [if_pos hf, if_pos (hfate.trans hf)]
    exact h
  have hf' : ¬nextFate s' = .stalled := by rwa [hfate]
  rw [if_neg hf, if_neg hf']
  cases respond s tx with
  | none => exact rfl
  | some p => exact ⟨rfl, h.after hv p.1 (ev tx p.2)⟩

theorem send_alike (hv : Steady view) (h : Alike view s s') (p : Phase) {tx tx' : Byte} (htx : tx' = tx) :
    (send p tx s).Rel (Alike view) (send p tx' s') :=
  (exchange_alike hv (h.setPhase hv p) .x htx).bind fun _ _ _ hu => ⟨rfl, hu⟩

/-- The header: the scratch buffer is filled before it is read. -/
theorem sendHeader_alike (hv : Steady view) (hb : ∀ s b, view { s with abuf := b } = view s) (h : Alike view s s')
    (cmd : Byte) (a : Word) : (sendHeader cmd a s).Rel (Alike view) (sendHeader cmd a s') := by
  have hvariant : s'.cfg.variant = s.cfg.variant := h.same.congr (f := fun s => s.cfg.variant) fun _ _ => rfl
  unfold sendHeader
  rw [hvariant]
  cases s.cfg.variant with
  | small =>
    exact (send_alike hv h _ rfl).bind fun _ _ _ h1 => (send_alike hv h1 _ rfl).bind fun _ _ _ h2 =>
      send_alike hv h2 _ rfl
  | large =>
    have hw := hv.withScratchBuffer
    have hfill : Alike (fun s => (view s, s.abuf)) { s with abuf := AddrBuf.ofWord (maskAddr .large a) }
        { s' with abuf := AddrBuf.ofWord (maskAddr .large a) } :=
      h.rewrite ⟨rfl, rfl⟩ ⟨rfl, rfl⟩ (by simp only [hb, h.agree])
    have hbuf : ∀ {u u' : State} (f : AddrBuf → Byte), Alike (fun s => (view s, s.abuf)) u u' →
        f u'.abuf = f u.abuf := fun f hu => congrArg f (congrArg Prod.snd hu.agree)
    refine Run.Rel.mono (R := Alike fun s => (view s, s.abuf)) ?_ fun _ _ hu =>
      ⟨hu.same, congrArg Prod.fst hu.agree, hu.running⟩
    exact (send_alike hw hfill _ rfl).bind fun _ _ _ h1 =>
      (send_alike hw h1 _ (hbuf AddrBuf.b2 h1)).bind fun _ _ _ h2 =>
      (send_alike hw h2 _ (hbuf AddrBuf.b1 h2)).bind fun _ _ _ h3 => send_alike hw h3 _ (hbuf AddrBuf.b0 h3)

/-- A bracket, given its data phase. -/
theorem bracket_alike {α : Type} {body : State → Run α} (hv : Steady view)
    (hb : ∀ s b, view { s with abuf := b } = view s) (h : Alike view s s') (cmd : Byte) (a : Word)
    (hbody : ∀ u u', Alike view u u' → (body u).Rel (Alike view) (body u')) :
    (bracket cmd a body s).Rel (Alike view) (bracket cmd a body s') :=
  (sendHeader_alike hv hb (h.openBracket hv) cmd a).bind fun _ _ _ h1 =>
    (hbody _ _ (h1.setPhase hv .data)).bind fun _ _ _ h2 => ⟨rfl, h2.closeBracket hv⟩

theorem readByte_alike (hv : Steady view) (hb : ∀ s b, view { s with abuf := b } = view s) (h : Alike view s s')
    {a a' : Word} (ha : a' = a) : (readByte a s).Rel (Alike view) (readByte a' s') := by
  rw [ha]
  refine bracket_alike hv hb h cmdRead a fun u u' hu => exchange_alike hv hu .x ?_
  exact congrArg Config.dummy (hu.same.congr fun _ _ => rfl)

end Pieces

/-! ### The data phases and the loops -/

/-- A block transfer drives and stores bytes of the loaded part of the region only (20_memory.md R64). -/
theorem xferBlock_alike (n k i : Nat) {s s' : State} (hi : i + k ≤ n) (h : Alike (fun s => s.dbuf.take n) s s') :
    (xferBlock k i s).Rel (Alike fun s => s.dbuf.take n) (xferBlock k i s') := by
  induction k generalizing i s s' with
  | zero => exact ⟨rfl, h⟩
  | succ k ih =>
    have hbyte : s'.dbuf.getD i 0 = s.dbuf.getD i 0 := by
      have hget := congrArg (·.getD i 0) h.agree
      simpa [List.getD_eq_getElem?_getD, List.getElem?_take, show i < n by omega] using hget
    refine (exchange_alike (steady_region n) h .b hbyte).bind fun rx u u' hu => ih (i + 1) (by omega) ?_
    refine hu.rewrite ⟨List.length_set, rfl⟩ ⟨List.length_set, rfl⟩ ?_
    simp only [List.take_set, hu.agree]

theorem sendZeros_alike {k k' : Nat} (hk : k' = k) {s s' : State} (h : Alike (fun _ => ()) s s') :
    (sendZeros k s).Rel (Alike fun _ => ()) (sendZeros k' s') := by
  subst hk
  induction k' generalizing s s' with
  | zero => exact ⟨rfl, h⟩
  | succ k ih =>
    exact (send_alike steady_unit h .data rfl).bind fun _ _ _ hu =>
      ih (hu.rewrite ⟨rfl, rfl⟩ ⟨rfl, rfl⟩ rfl)

/-- The running address and the accumulator determine the folds (44_checksum.md R185). -/
theorem foldBytes_alike {k k' : Nat} (hk : k' = k) {s s' : State} (h : Alike (fun s => (s.cur, s.acc)) s s') :
    (foldBytes k s).Rel (Alike fun s => (s.cur, s.acc)) (foldBytes k' s') := by
  subst hk
  induction k' generalizing s s' with
  | zero => exact ⟨rfl, h⟩
  | succ k ih =>
    refine (readByte_alike steady_fold (fun _ _ => rfl) h (congrArg Prod.fst h.agree)).bind fun b u u' hu => ih ?_
    have hcfg : u'.cfg = u.cfg := hu.same.congr fun _ _ => rfl
    obtain ⟨hcur, hacc⟩ := Prod.mk.injEq .. ▸ hu.agree
    refine (hu.setPhase steady_fold .fold).rewrite ⟨rfl, rfl⟩ ⟨rfl, rfl⟩ ?_
    simp only [foldUnit, hcfg, hcur, hacc]

/-! ### The ends of the operations -/

/-- What two next states of one instruction must have in common: `returns` says whether it answers in `res`. -/
def Answered (returns : Bool) (t t' : State) : Prop :=
  SameButScratch t t' ∧ (returns = true → t.busy = false → t'.res = t.res)

section Ends
variable {β : Type} {view : State → β}

/-- An operation that returns nothing in `res`. -/
theorem finish_alike {m m' : Run Unit} (h : m.Rel (Alike view) m') :
    OutcomeRel (Answered false) m.finish m'.finish := by
  cases m <;> cases m' <;> simp only [Run.Rel] at h
  case ok.ok => exact ⟨h.2.same.update (u := complete) fun _ _ => rfl, nofun⟩
  case hung.hung => exact ⟨h.same, nofun⟩
  case refused.refused => exact h

/-- An operation that ends by answering in `res` what is known on both sides. -/
theorem finish_answer {α : Type} {m m' : Run α} {answer : α → State → Word} (h : m.Rel (Alike view) m')
    (hans : ∀ a s s', Alike view s s' → answer a s' = answer a s) :
    OutcomeRel (Answered true) (m.bind fun a s => .ok () { s with res := answer a s }).finish
      (m'.bind fun a s => .ok () { s with res := answer a s }).finish := by
  cases m <;> cases m' <;> simp only [Run.Rel] at h
  case ok.ok a s a' s' =>
    obtain ⟨rfl, h⟩ := h
    have hs : Alike State.res { s with res := answer a s } { s' with res := answer a s' } :=
      h.rewrite ⟨rfl, rfl⟩ ⟨rfl, rfl⟩ (hans a s s' h)
    exact ⟨hs.same.update (u := complete) fun _ _ => rfl, fun _ _ => hs.agree⟩
  case hung.hung => exact ⟨h.same, fun _ hidle => absurd (h.running.symm.trans hidle) nofun⟩
  case refused.refused => exact h

/-- A request is refused on both sides alike, or accepted on both. -/
theorem perform_answered {returns : Bool} {refusal : State → Option Refusal} {body : State → Run Unit} {s s' : State}
    (h : SameButScratch s s') (hr : ∀ r s, refusal (withScratch r s) = refusal s)
    (hbody : Alike (fun _ => ()) (accept s) (accept s') →
      OutcomeRel (Answered returns) (body (accept s)).finish (body (accept s')).finish) :
    OutcomeRel (Answered returns) (perform refusal body s) (perform refusal body s') := by
  have haccept : Alike (fun _ => ()) (accept s) (accept s') := ⟨h.update (u := accept) fun _ _ => rfl, rfl, rfl⟩
  unfold perform
  rw [h.congr hr, h.congr (f := State.busy) fun _ _ => rfl]
  by_cases hb : s.busy = true
  · rw [if_pos hb, if_pos hb]
    exact rfl
  · rw [if_neg hb, if_neg hb]
    cases refusal s with
    | some r => exact rfl
    | none => exact hbody haccept

end Ends

/-! ### The operations -/

section Operations
variable {s s' : State}

theorem readOperation_answered (a : Word) (h : Alike (fun _ => ()) s s') :
    OutcomeRel (Answered true) (readOperation a s).finish (readOperation a s').finish := by
  have hstart : Alike (fun _ => ()) { s with addr := a } { s' with addr := a } :=
    h.rewrite ⟨rfl, rfl⟩ ⟨rfl, rfl⟩ rfl
  exact finish_answer (readByte_alike steady_unit (fun _ _ => rfl) hstart rfl) fun _ _ _ _ => rfl

theorem writeOperation_answered (a : Word) (v : Byte) (h : Alike (fun _ => ()) s s') :
    OutcomeRel (Answered false) (writeOperation a v s).finish (writeOperation a v s').finish := by
  have hstart : Alike (fun _ => ()) { s with addr := a, val := v } { s' with addr := a, val := v } :=
    h.rewrite ⟨rfl, rfl⟩ ⟨rfl, rfl⟩ rfl
  exact finish_alike (bracket_alike steady_unit (fun _ _ => rfl) hstart cmdWrite a fun _ _ hu =>
    send_alike steady_unit hu .data rfl)

/-- The bracket of a block transfer whose bytes have been loaded. -/
theorem blockBracket_alike (cmd : Byte) (a : Word) (n : Nat) (h : Alike (fun s => s.dbuf.take n) s s') :
    (bracket cmd a (xferBlock n 0) s).Rel (Alike fun s => s.dbuf.take n) (bracket cmd a (xferBlock n 0) s') :=
  bracket_alike (steady_region n) (fun _ _ => rfl) h cmd a fun _ _ hu => xferBlock_alike n n 0 (by omega) hu

/-- Bytes loaded into the region are known on both sides. -/
theorem loadRegion_alike (bytes : List Byte) (h : Alike (fun _ => ()) s s') :
    Alike (fun s => s.dbuf.take bytes.length) (loadRegion bytes s) (loadRegion bytes s') where
  same := by
    refine ⟨?_, ?_⟩
    · simp only [loadRegion, List.length_append, List.length_drop, h.same.1]
    · rw [h.same.2]
      rfl
  agree := by simp only [loadRegion, List.take_left']
  running := h.running

theorem freeRegion_alike (n : Nat) (h : Alike (fun _ => ()) s s') :
    Alike (fun s => s.dbuf.take n) (freeRegion n s) (freeRegion n s') := by
  have hdraws : s'.draws = s.draws := h.same.congr fun _ _ => rfl
  have hload := loadRegion_alike ((List.range n).map fun i => Config.freeByte (s.draws + i)) h
  simp only [List.length_map, List.length_range] at hload
  unfold freeRegion
  rw [hdraws]
  exact ⟨hload.same.update (u := fun t => { t with draws := s.draws + n }) fun _ _ => rfl, hload.agree, hload.running⟩

theorem getOperation_answered (a : Word) (n : Nat) (h : Alike (fun _ => ()) s s') :
    OutcomeRel (Answered false) (getOperation a n s).finish (getOperation a n s').finish := by
  have hstart : Alike (fun _ => ()) { s with addr := a, n := n } { s' with addr := a, n := n } :=
    h.rewrite ⟨rfl, rfl⟩ ⟨rfl, rfl⟩ rfl
  have hblock := blockBracket_alike cmdRead a n (freeRegion_alike n hstart)
  refine finish_alike (hblock.bind fun _ u u' hu => ⟨rfl, ?_⟩)
  have hbytes : u'.dbuf.take n = u.dbuf.take n := hu.agree
  rw [hbytes]
  exact ⟨hu.same.update (u := fun t => { t with rbuf := u.dbuf.take n }) fun _ _ => rfl, hbytes, hu.running⟩

theorem putOperation_answered (a : Word) (w : List Byte) (h : Alike (fun _ => ()) s s') :
    OutcomeRel (Answered false) (putOperation a w s).finish (putOperation a w s').finish := by
  have hstart : Alike (fun _ => ()) { s with addr := a, n := w.length } { s' with addr := a, n := w.length } :=
    h.rewrite ⟨rfl, rfl⟩ ⟨rfl, rfl⟩ rfl
  have hblock := blockBracket_alike cmdWrite a w.length (loadRegion_alike w hstart)
  refine finish_alike (hblock.bind fun _ u u' hu => ⟨rfl, ?_⟩)
  exact ⟨hu.same.update (u := fun t => { t with rbuf := w }) fun _ _ => rfl, hu.agree, hu.running⟩

theorem eraseOperation_answered (h : Alike (fun _ => ()) s s') :
    OutcomeRel (Answered false) (eraseOperation s).finish (eraseOperation s').finish := by
  refine finish_alike (bracket_alike steady_unit (fun _ _ => rfl) h cmdWrite 0 fun u u' hu => ?_)
  have hcapacity : u'.cfg.variant.capacity = u.cfg.variant.capacity :=
    hu.same.congr (f := fun s => s.cfg.variant.capacity) fun _ _ => rfl
  exact sendZeros_alike hcapacity (hu.rewrite ⟨rfl, rfl⟩ ⟨rfl, rfl⟩ rfl)

theorem checksumOperation_answered (a len : Word) (h : Alike (fun _ => ()) s s') :
    OutcomeRel (Answered true) (checksumOperation a len s).finish (checksumOperation a len s').finish := by
  have hcfg : s'.cfg = s.cfg := h.same.congr fun _ _ => rfl
  have hlength : (maskLength s'.cfg.variant len).toNat = (maskLength s.cfg.variant len).toNat := by rw [hcfg]
  have hstart : (checksumStart s'.cfg.variant a, crcSeed) = (checksumStart s.cfg.variant a, crcSeed) := by rw [hcfg]
  refine finish_answer (foldBytes_alike hlength (h.rewrite ⟨rfl, rfl⟩ ⟨rfl, rfl⟩ hstart)) fun _ _ _ hu => ?_
  exact congrArg resOfCrc (congrArg Prod.snd hu.agree)

theorem initialise_alike (h : Alike (fun _ => ()) s s') : (initialise s).Rel (Alike fun _ => ()) (initialise s') := by
  have hframe : (modeFrame s).Rel (Alike fun _ => ()) (modeFrame s') :=
    (send_alike steady_unit (h.openBracket steady_unit) .cmd rfl).bind fun _ _ _ h1 =>
      (send_alike steady_unit h1 .mode rfl).bind fun _ _ _ h2 => ⟨rfl, h2.closeBracket steady_unit⟩
  exact hframe.bind fun _ _ _ hu =>
    ⟨rfl, hu.same.update (u := fun t => { t with inited := true }) fun _ _ => rfl, rfl, hu.running⟩

theorem busInit_alike (h : Alike (fun _ => ()) s s') : (busInit s).Rel (Alike fun _ => ()) (busInit s') := by
  have hfate : nextFate s' = nextFate s := h.same.congr fun _ _ => rfl
  unfold busInit
  rw [hfate]
  by_cases hf : nextFate s = .stalled
  · rw [if_pos hf, if_pos hf]
    exact h
  · rw [if_neg hf, if_neg hf]
    exact ⟨rfl, h.same.update (u := fun t => markBusInit { t with fates := t.fates.tail }) fun _ _ => rfl, rfl, h.running⟩

theorem execCreate_answered (auto : Bool) (h : SameButScratch s s') :
    OutcomeRel (Answered false) (execCreate auto s) (execCreate auto s') := by
  unfold execCreate
  refine perform_answered h (fun _ _ => rfl) fun ha => ?_
  have hline : Alike (fun _ => ()) (configureLine (accept s)) (configureLine (accept s')) :=
    ⟨ha.same.update (u := configureLine) fun _ _ => rfl, rfl, rfl⟩
  cases auto with
  | false => exact finish_alike (m := .ok () _) (m' := .ok () _) ⟨rfl, hline⟩
  | true => exact finish_alike ((busInit_alike hline).bind fun _ _ _ hu => initialise_alike hu)

theorem execLength_answered (h : SameButScratch s s') :
    OutcomeRel (Answered true) (execLength s) (execLength s') := by
  unfold execLength
  refine perform_answered h (fun _ _ => rfl) fun ha => ?_
  refine finish_answer (m := .ok () (accept s)) (m' := .ok () (accept s')) (view := fun _ => ())
    (answer := fun _ s => resOfCapacity s.cfg.variant) ⟨rfl, ha⟩ fun _ _ _ hu => ?_
  exact hu.same.congr (f := fun s => resOfCapacity s.cfg.variant) fun _ _ => rfl

/-- A reserved code is refused for the same reason. -/
theorem reject_answered (op : BitVec 4) (h : SameButScratch s s') :
    OutcomeRel (Answered false) (reject op s) (reject op s') := by
  have hsame : reject op s' = reject op s := h.congr fun _ _ => rfl
  rw [hsame]
  unfold reject
  cases s.busy <;> exact rfl

/-- A frame at the device's port meets the same device. -/
theorem deviceFrame_answered (bytes : List Byte) (h : SameButScratch s s') :
    OutcomeRel (Answered false) (deviceFrame bytes s) (deviceFrame bytes s') := by
  obtain ⟨hlen, hs⟩ := sameButScratch_iff.mp h
  rw [hs]
  unfold deviceFrame
  by_cases hb : s.busy = true
  · rw [if_pos hb, if_pos (c := (withScratch s' s).busy = true) hb]
    exact rfl
  rw [if_neg hb, if_neg (c := (withScratch s' s).busy = true) hb]
  by_cases hp : (!s.devPresent) = true
  · rw [if_pos hp, if_pos (c := (!(withScratch s' s).devPresent) = true) hp]
    exact ⟨⟨hlen, rfl⟩, nofun⟩
  rw [if_neg hp, if_neg (c := (!(withScratch s' s).devPresent) = true) hp]
  simp only [withScratch]
  cases Device.exchanges s.cfg.variant s.draws s.dev.select bytes with
  | none => exact rfl
  | some p => exact ⟨⟨hlen, rfl⟩, nofun⟩

end Operations

/-- Every instruction answers alike in two states that differ at most in scratch registers. -/
theorem exec_answered (i : Instr) {s s' : State} (h : SameButScratch s s') :
    OutcomeRel (Answered (returnsRes i)) (exec i s) (exec i s') := by
  cases i with
  | create auto => exact execCreate_answered auto h
  | initializeDevice => exact perform_answered h (fun _ _ => rfl) fun ha => finish_alike (initialise_alike ha)
  | length => exact execLength_answered h
  | read a | index a => exact perform_answered h (fun _ _ => rfl) fun ha => readOperation_answered a ha
  | write a v | update a v => exact perform_answered h (fun _ _ => rfl) fun ha => writeOperation_answered a v ha
  | get a n => exact perform_answered h (fun _ _ => rfl) fun ha => getOperation_answered a n ha
  | put a w => exact perform_answered h (fun _ _ => rfl) fun ha => putOperation_answered a w ha
  | erase => exact perform_answered h (fun _ _ => rfl) fun ha => eraseOperation_answered ha
  | checksum a len => exact perform_answered h (fun _ _ => rfl) fun ha => checksumOperation_answered a len ha
  | reservedB | reservedC | reservedD | reservedE | reservedF => exact reject_answered _ h
  | writeModeRegister => exact deviceFrame_answered _ h
  | readS a ds | writeS a ds | readL a ds | writeL a ds | readModeRegister ds => exact deviceFrame_answered _ h

/-- Settles O17: the two outcomes are related as `Answered` says. -/
theorem scratchRegistersDoNotPersist : Obligations.ScratchRegistersDoNotPersist :=
  fun i _ _ h => exec_answered i h

end Sys2Proof.Machine
end

section
/-! SUPPORT. What the single events and the inputs of the machine have to do with each other: an action adds at most one wire
event and takes no input (92_eei_decisions.md D1, 20_memory.md R66, R67). -/

namespace Sys2Proof.Machine

/-! ### Wire events -/

/-- At most one wire event happened between `s` and `t`. -/
def AtMostOneEvent (s t : State) : Prop := t.wire = s.wire ∨ ∃ e, t.wire = e :: s.wire

theorem AtMostOneEvent.wireTrace {s t : State} (h : AtMostOneEvent s t) :
    t.wireTrace = s.wireTrace ∨ ∃ e, t.wireTrace = s.wireTrace ++ [e] := by
  rcases h with h | ⟨e, h⟩
  · exact .inl (congrArg List.reverse h)
  · exact .inr ⟨e, by rw [State.wireTrace, h, List.reverse_cons]; rfl⟩

/-- What one action does to the wire and to the inputs. -/
theorem Action.run_wire_inputs (act : Action) (rx : Byte) (s : State) :
    (act.run rx s).Post (fun _ t => AtMostOneEvent s t ∧ t.inputs = s.inputs) (fun t => t = s) := by
  have hx : ∀ ev tx, (exchange ev tx s).Post (fun _ t => AtMostOneEvent s t ∧ t.inputs = s.inputs) (fun t => t = s) :=
    fun ev tx => exchange_post (fun _ _ _ => ⟨.inr ⟨_, rfl⟩, rfl⟩) fun _ => rfl
  cases act with
  | xfer tx => exact hx _ _
  | block i => exact (hx _ _).bind fun _ _ h => h
  | busInit =>
    have h : (Machine.busInit s).Post (fun _ t => AtMostOneEvent s t ∧ t.inputs = s.inputs) (fun t => t = s) :=
      busInit_post (fun _ => ⟨.inr ⟨_, rfl⟩, rfl⟩) fun _ => rfl
    exact h.bind (k := fun _ s => .ok rx s) fun _ _ h => h
  | line | csLow | csHigh => exact ⟨.inr ⟨_, rfl⟩, rfl⟩
  | _ => exact ⟨.inl rfl, rfl⟩

theorem Action.keeps_inputs (act : Action) : act.Keeps State.inputs := fun rx s =>
  (act.run_wire_inputs rx s).mono (fun _ _ h => h.2) fun _ h => congrArg _ h

/-! ### One event step -/

/-- The state with its input taken, where a step finds something to run. -/
def Fetched.taken : Fetched → Option State
  | .hung | .waiting | .bad _ => none
  | .instr _ t | .rawFrame _ t | .busInit t | .blockReset t => some t

/-- Taking an input changes nothing else. -/
theorem fetch_taken {s t : State} (h : (fetch s).taken = some t) : ∃ rest, t = { s with inputs := rest } := by
  unfold fetch at h
  repeat' split at h
  all_goals cases h
  all_goals exact ⟨_, rfl⟩

theorem settle_next {o : Host.Outcome State Fault Refusal} {q : Sequenced} (h : settle o = .next q) :
    ∃ t, o = .next t ∧ q = Sequenced.rest t := by
  cases o with
  | next t => cases h; exact ⟨t, rfl, rfl⟩
  | fault f => cases h
  | refused r => cases h

theorem acceptSequence_wire {refusal : State → Option Refusal} {todo : List Action} {s : State} {q : Sequenced}
    (h : acceptSequence refusal todo s = .next q) : q.block.wire = s.wire := by
  unfold acceptSequence at h
  repeat' split at h
  all_goals cases h
  rfl

theorem deviceFrame_wire {bytes : List Byte} {s t : State} (h : deviceFrame bytes s = .next t) : t.wire = s.wire := by
  rw [(deviceFrame_next h).2.1]
  rfl

theorem settle_deviceFrame_wire {bytes : List Byte} {s : State} {q : Sequenced}
    (h : settle (deviceFrame bytes s) = .next q) : q.block.wire = s.wire := by
  obtain ⟨t, ht, rfl⟩ := settle_next h
  exact deviceFrame_wire ht

/-- The beginning of an instruction is no wire event of the block. -/
theorem begin_wire {i : Instr} {s : State} {q : Sequenced} (h : begin i s = .next q) : q.block.wire = s.wire := by
  cases i with
  | reservedB | reservedC | reservedD | reservedE | reservedF =>
    obtain ⟨t, ht, -⟩ := settle_next h
    exact absurd ht reject_ne_next
  | writeModeRegister => exact settle_deviceFrame_wire h
  | readS a ds | writeS a ds | readL a ds | writeL a ds | readModeRegister ds => exact settle_deviceFrame_wire h
  | length =>
    unfold begin at h
    exact acceptSequence_wire h
  | _ => exact acceptSequence_wire h

theorem hostBusInit_wire {s t : State} (h : hostBusInit s = .next t) : t.wire = .init :: s.wire := by
  unfold hostBusInit at h
  split at h
  · cases h
  · cases h
    rfl

/-- An operation in progress runs its next action, or completes, or stays where it hangs. -/
theorem advance_next {q q' : Sequenced} (h : advance q = .next q') :
    AtMostOneEvent q.block q'.block ∧ q'.block.inputs = q.block.inputs := by
  unfold advance at h
  split at h
  · cases h
    exact ⟨.inl rfl, rfl⟩
  · rename_i act rest _
    have hpost := act.run_wire_inputs q.rx q.block
    cases hrun : act.run q.rx q.block with
    | ok rx t =>
      rw [hrun] at h hpost
      cases h
      exact hpost
    | hung t =>
      rw [hrun] at h
      cases h
      exact ⟨.inl rfl, rfl⟩
    | refused r => rw [hrun] at h; cases h

/-- An event step that takes an input adds at most the event of the host's `BusInit`. -/
theorem eventStep_idle_wire {q q' : Sequenced} (hb : q.block.busy = false) (h : eventStep q = .next q') :
    AtMostOneEvent q.block q'.block := by
  unfold eventStep at h
  rw [if_neg (ne_true_of_eq_false hb)] at h
  have htaken : ∀ t, (fetch q.block).taken = some t → t.wire = q.block.wire := fun t ht => by
    obtain ⟨rest, rfl⟩ := fetch_taken ht
    rfl
  generalize fetch q.block = f at h htaken
  cases f with
  | hung => cases h; exact .inl rfl
  | waiting => cases h; exact .inl rfl
  | instr i t => exact .inl ((begin_wire h).trans (htaken t rfl))
  | rawFrame bytes t => exact .inl ((settle_deviceFrame_wire h).trans (htaken t rfl))
  | bad e => cases h
  | busInit t =>
    obtain ⟨u, hu, rfl⟩ := settle_next h
    exact .inr ⟨.init, by rw [← htaken t rfl]; exact hostBusInit_wire hu⟩
  | blockReset t => cases h; exact .inl (htaken t rfl)

/-- An event step of an operation in progress is an advance of it. -/
theorem eventStep_busy {q : Sequenced} (hb : q.block.busy = true) : eventStep q = advance q := if_pos hb

/-- Settles O8: an operation in progress advances by one action, and the start of anything else is at most one event. -/
theorem oneWireEventAtATime : Obligations.OneWireEventAtATime := by
  intro q q' h
  refine AtMostOneEvent.wireTrace ?_
  by_cases hb : q.block.busy = true
  · exact (advance_next (eventStep_busy hb ▸ h)).1
  · exact eventStep_idle_wire (Bool.eq_false_iff.mpr hb) h

/-! ### One operation before the next -/

/-- The wire trace of `t` is that of `s` and what came after it. -/
def TraceGrows (s t : State) : Prop := ∃ new, t.wireTrace = s.wireTrace ++ new

theorem TraceGrows.of_wire {s t : State} (h : t.wire = s.wire) : TraceGrows s t :=
  ⟨[], (congrArg List.reverse h).trans (List.append_nil _).symm⟩

theorem TraceGrows.trans {s t u : State} (h : TraceGrows s t) (h' : TraceGrows t u) : TraceGrows s u := by
  obtain ⟨new, hnew⟩ := h
  obtain ⟨new', hnew'⟩ := h'
  exact ⟨new ++ new', by rw [hnew', hnew, List.append_assoc]⟩

theorem AtMostOneEvent.grows {s t : State} (h : AtMostOneEvent s t) : TraceGrows s t := by
  rcases h.wireTrace with h | ⟨e, h⟩
  · exact ⟨[], h.trans (List.append_nil _).symm⟩
  · exact ⟨[e], h⟩

/-- Actions add their events behind those before them, whether they run to the end or hang. -/
theorem runActions_grows (acts : List Action) (rx : Byte) (s : State) :
    (runActions acts rx s).Post (fun _ t => TraceGrows s t) (TraceGrows s) := by
  induction acts generalizing rx s with
  | nil => exact .of_wire rfl
  | cons act acts ih =>
    have hact : (act.run rx s).Post (fun _ t => TraceGrows s t) (TraceGrows s) :=
      (act.run_wire_inputs rx s).mono (fun _ _ h => h.1.grows) fun _ h => .of_wire (congrArg State.wire h)
    exact hact.bind fun rx' t ht => (ih rx' t).mono (fun _ _ => ht.trans) fun _ => ht.trans

theorem exec_grows {i : Instr} {s t : State} (h : exec i s = .next t) : TraceGrows s t := by
  have hpost := runActions_grows (operationActions s.cfg.variant i) 0x00 (accept s)
  cases executed_of_next h with
  | completed run =>
    rw [run] at hpost
    exact hpost
  | hung run =>
    rw [run] at hpost
    exact hpost
  | framed _ frame => exact .of_wire (by rw [frame]; rfl)

theorem exec_inputs {i : Instr} {s t : State} (h : exec i s = .next t) : t.inputs = s.inputs :=
  (executed_of_next h).keeps (fun act _ => act.keeps_inputs) rfl (fun _ => rfl) rfl

theorem step_of_request {s : State} {r : Request} {i : Instr} {rest : List Input} (hb : s.busy = false)
    (hi : s.inputs = .request r :: rest) (hd : decode s.cfg.variant (.request r) = .ok i) :
    step s = exec i { s with inputs := rest } :=
  (stepRunsTheDecodedInstruction s i rest hb).1 r hi hd

/-- A step that takes a request adds its events behind those before it. -/
theorem step_request_grows {s t : State} {r : Request} {i : Instr} {rest : List Input} (hb : s.busy = false)
    (hi : s.inputs = .request r :: rest) (hd : decode s.cfg.variant (.request r) = .ok i) (h : step s = .next t) :
    TraceGrows s t := by
  rw [step_of_request hb hi hd] at h
  exact exec_grows (s := { s with inputs := rest }) h

/-- Settles O18: the first request leaves the second at the head of the inputs, and each adds its events behind those
before it; an operation in progress only advances. -/
theorem operationsAreFullyOrdered : Obligations.OperationsAreFullyOrdered := by
  refine ⟨fun s t r₁ r₂ i₁ i₂ rest hb hi hd₁ hd₂ h ht => ?_, fun q q' hb h => ?_⟩
  · have hexec := step_of_request hb hi hd₁ ▸ h
    have hinputs : t.inputs = .request r₂ :: rest := exec_inputs hexec
    have hd : decode t.cfg.variant (.request r₂) = .ok i₂ := by rw [exec_cfg hexec]; exact hd₂
    exact ⟨step_request_grows hb hi hd₁ h, step_of_request ht hinputs hd, fun u => step_request_grows ht hinputs hd⟩
  · exact (advance_next (eventStep_busy hb ▸ h)).2

end Sys2Proof.Machine
end

section
/-! SUPPORT. Every operation as the run of its actions, and two rules for such runs: what holds at each position of a bracket,
and what holds between two runs (20_memory.md R52, R61, R70, R71, R73, R75). -/

namespace Sys2Proof.Machine

/-! ### An operation is the run of its actions -/

/-- The precondition of an operation (40_init_and_query.md R110 to R113, 42_block_transfer.md R152, D22). -/
def operationRefusal : Instr → State → Option Refusal
  | .create auto => createRefusal auto
  | .initializeDevice => initRefusal
  | .read _ | .write _ _ | .update _ _ | .erase | .index _ => dataRefusal
  | .get _ n => payloadRefusal n
  | .put _ w => payloadRefusal w.length
  | .checksum _ len => checksumRefusal len
  | .length => fun _ => none
  | .reservedB | .reservedC | .reservedD | .reservedE | .reservedF => fun _ => none
  | .writeModeRegister | .readS _ _ | .writeS _ _ | .readL _ _ | .writeL _ _ | .readModeRegister _ => fun _ => none

/-- The actions of an instruction, run from the state it is accepted in. -/
def operationRun (i : Instr) (s : State) : Run Unit :=
  (runActions (operationActions s.cfg.variant i) 0x00 s).map fun _ => ()

/-- What plays the run of an operation may stand for it. -/
theorem perform_of_plays {i : Instr} {refusal : State → Option Refusal} {body : State → Run Unit} {s : State}
    (h : Plays (operationActions s.cfg.variant i) (accept s) (fun _ => ()) (body (accept s))) :
    perform refusal body s = perform refusal (operationRun i) s := by
  unfold perform
  rw [show body (accept s) = operationRun i (accept s) from (h 0x00).symm]

theorem exec_operation {i : Instr} (hi : isOperation i = true) (s : State) :
    exec i s = perform (operationRefusal i) (operationRun i) s := by
  cases i with
  | create auto =>
    unfold exec execCreate
    exact perform_of_plays (plays_create auto (accept s))
  | initializeDevice => exact perform_of_plays (plays_initialise (accept s))
  | length =>
    unfold exec execLength
    exact perform_of_plays fun _ => rfl
  | read a | index a => exact perform_of_plays (plays_read a (accept s))
  | write a b | update a b => exact perform_of_plays (plays_write a b (accept s))
  | get a n => exact perform_of_plays (plays_get a n (accept s))
  | put a w => exact perform_of_plays (plays_put a w (accept s))
  | erase => exact perform_of_plays (plays_erase (accept s))
  | checksum a len => exact perform_of_plays (plays_checksum a len (accept s))
  | reservedB | reservedC | reservedD | reservedE | reservedF => cases hi
  | writeModeRegister => cases hi
  | readS _ _ | writeS _ _ | readL _ _ | writeL _ _ | readModeRegister _ => cases hi

/-- What a wire command does is the frame it is encoded as. -/
theorem exec_of_frame {i : Instr} {bytes : List Byte} (h : encode i = .frame bytes) (s : State) :
    exec i s = deviceFrame bytes s := by
  cases i <;> cases h <;> rfl

/-! ### Walking through the brackets of an operation -/

/-- The first byte of the frames that an instruction sends or carries (30_encoding.md R82). -/
def frameCommand : Instr → Option Byte
  | .create _ | .initializeDevice | .writeModeRegister => some cmdWriteModeRegister
  | .read _ | .get _ _ | .checksum _ _ | .index _ | .readS _ _ | .readL _ _ => some cmdRead
  | .write _ _ | .update _ _ | .put _ _ | .erase | .writeS _ _ | .writeL _ _ => some cmdWrite
  | .readModeRegister _ => some cmdReadModeRegister
  | .length | .reservedB | .reservedC | .reservedD | .reservedE | .reservedF => none

/-- The position after one action, where the first transfer of a bracket must be that of the given command byte. -/
def Action.position (cmd : Option Byte) (p : BracketPos) : Action → Option BracketPos
  | .csLow => some .opened
  | .csHigh => some .closed
  | .xfer tx =>
    match p with
    | .closed => none
    | .opened => if some tx = cmd.map TxSource.constant then some .inFrame else none
    | .inFrame => some .inFrame
  | .block _ => if p = .inFrame then some .inFrame else none
  | _ => some p

/-- The position after a list of actions. -/
def walk (cmd : Option Byte) (p : BracketPos) (acts : List Action) : Option BracketPos :=
  acts.foldlM (Action.position cmd) p

theorem walk_cons (cmd : Option Byte) (p : BracketPos) (act : Action) (acts : List Action) :
    walk cmd p (act :: acts) = (act.position cmd p).bind fun q => walk cmd q acts := List.foldlM_cons

theorem walk_append {cmd : Option Byte} {p q : BracketPos} {as bs : List Action} (h : walk cmd p as = some q) :
    walk cmd p (as ++ bs) = walk cmd q bs := by
  unfold walk at h ⊢
  rw [List.foldlM_append, h]
  rfl

/-- Repeating what returns to the position it started from returns there. -/
theorem walk_replicate {cmd : Option Byte} {p : BracketPos} {acts : List Action} (h : walk cmd p acts = some p) (k : Nat) :
    walk cmd p (List.replicate k acts).flatten = some p := by
  induction k with
  | zero => rfl
  | succ k ih => rw [List.replicate_succ, List.flatten_cons, walk_append h, ih]

theorem walk_blocks (cmd : Option Byte) (is : List Nat) : walk cmd .inFrame (is.map .block) = some .inFrame := by
  induction is with
  | nil => rfl
  | cons i is ih => exact ih

theorem walk_zeroActions (cmd : Option Byte) (k : Nat) : walk cmd .inFrame (zeroActions k) = some .inFrame :=
  walk_replicate rfl k

/-- A bracket whose data phase stays inside it opens and closes (30_encoding.md R80, R91). -/
theorem walk_bracketActions {cmd : Byte} (v : Variant) (a : HeaderAddress) {body : List Action}
    (h : walk (some cmd) .inFrame body = some .inFrame) :
    walk (some cmd) .closed (bracketActions v cmd a body) = some .closed := by
  have hheader : walk (some cmd) .closed (.csLow :: headerActions v cmd a) = some .inFrame := by
    cases v <;> simp [walk, headerActions, sendActions, Action.position]
  unfold bracketActions
  rw [List.append_assoc, walk_append hheader, List.cons_append]
  exact walk_append h

theorem walk_readActions (v : Variant) (a : HeaderAddress) :
    walk (some cmdRead) .closed (readActions v a) = some .closed := walk_bracketActions v a rfl

theorem walk_foldActions (v : Variant) (k : Nat) : walk (some cmdRead) .closed (foldActions v k) = some .closed :=
  walk_replicate (walk_append (walk_readActions v .running)) k

/-- Every operation sends frames of its own command only, and leaves its last bracket closed. -/
theorem walk_operationActions (v : Variant) (i : Instr) :
    walk (frameCommand i) .closed (operationActions v i) = some .closed := by
  cases i with
  | create auto => cases auto <;> rfl
  | initializeDevice | length => rfl
  | read a | index a => exact walk_append (walk_readActions v .operand)
  | write a b | update a b => exact walk_bracketActions v .operand rfl
  | get a n | put a w => exact walk_append (walk_bracketActions v .operand (walk_blocks _ _))
  | erase => exact walk_bracketActions v .origin (walk_zeroActions _ _)
  | checksum a len =>
    have hfold := walk_foldActions v (maskLength v len).toNat
    show walk (some cmdRead) .closed (checksumSequence v a len) = _
    unfold checksumSequence
    rw [List.append_assoc]
    exact (walk_append rfl).trans (walk_append hfold)
  | reservedB | reservedC | reservedD | reservedE | reservedF => rfl
  | writeModeRegister | readS _ _ | writeS _ _ | readL _ _ | writeL _ _ | readModeRegister _ => rfl

/-- Where a transfer may stand: behind the command byte of its bracket, or it is that byte. -/
theorem position_xfer {cmd : Option Byte} {p q : BracketPos} {tx : TxSource}
    (h : Action.position cmd p (.xfer tx) = some q) :
    q = .inFrame ∧ (p = .inFrame ∨ p = .opened ∧ ∃ c, cmd = some c ∧ tx = .constant c) := by
  cases p with
  | closed => cases h
  | inFrame => cases h; exact ⟨rfl, .inl rfl⟩
  | opened =>
    dsimp only [Action.position] at h
    split at h
    · rename_i htx
      cases h
      obtain ⟨c, hc, htx⟩ := Option.map_eq_some_iff.mp htx.symm
      exact ⟨rfl, .inr ⟨rfl, c, hc, htx.symm⟩⟩
    · cases h

theorem position_block {cmd : Option Byte} {p q : BracketPos} {i : Nat} (h : Action.position cmd p (.block i) = some q) :
    p = .inFrame ∧ q = .inFrame := by
  dsimp only [Action.position] at h
  split at h
  · rename_i hp
    cases h
    exact ⟨hp, rfl⟩
  · cases h

/-- What every action carries from its position to the next holds after all of them. -/
theorem runActions_walk {cmd : Option Byte} {I : BracketPos → State → Prop} {H : State → Prop}
    (hact : ∀ p q act rx s, Action.position cmd p act = some q → I p s → (act.run rx s).Post (fun _ t => I q t) H)
    {acts : List Action} {p q : BracketPos} (hw : walk cmd p acts = some q) (rx : Byte) {s : State} (h : I p s) :
    (runActions acts rx s).Post (fun _ t => I q t) H := by
  induction acts generalizing p rx s with
  | nil =>
    cases hw
    exact h
  | cons act acts ih =>
    rw [walk_cons] at hw
    obtain ⟨r, hr, hw⟩ := Option.bind_eq_some_iff.mp hw
    exact (hact p r act rx s hr h).bind fun rx t ht => ih hw rx ht

/-! ### What a frame of one command keeps of the device -/

/-- What must be shown of a family of predicates on the device, one for each position of the bracket, for frames of the
given command to carry it through: the device is selected, takes the command byte, more bytes, or loses the frame, and is
deselected (20_memory.md R71, R72). -/
structure FrameRule (cmd : Byte) (K : BracketPos → Device → Prop) : Prop where
  weaken : ∀ p d, K p d → K .closed d
  selects : ∀ d, K .closed d → K .opened d.select
  command : ∀ v f d e rx, K .opened d → d.exchange v f cmd = some (e, rx) → K .inFrame e
  exchange : ∀ v f tx d e rx, K .inFrame d → d.exchange v f tx = some (e, rx) → K .inFrame e
  loses : ∀ d, K .closed d → K .inFrame d.lose
  deselects : ∀ v k d, K .closed d → K .closed (d.deselect v k)

/-- The predicate of the position holds of a device that is on the bus, the one outside brackets of any. -/
structure OnBus (K : BracketPos → Device → Prop) (p : BracketPos) (s : State) : Prop where
  outside : K .closed s.dev
  inside : s.devPresent = true → K p s.dev

section FrameRule
variable {cmd : Byte} {K : BracketPos → Device → Prop}

/-- The bytes of a whole frame at a selected device. -/
theorem FrameRule.exchanges (r : FrameRule cmd K) {v : Variant} {bytes rxs : List Byte} {k : Nat} {d e : Device}
    (h : K .inFrame d) (he : Device.exchanges v k d bytes = some (e, rxs)) : K .inFrame e := by
  induction bytes generalizing d k rxs with
  | nil =>
    cases he
    exact h
  | cons tx rest ih =>
    unfold Device.exchanges at he
    split at he
    · cases he
    · rename_i hx
      split at he
      · cases he
      · rename_i hxs
        cases he
        exact ih (r.exchange _ _ _ _ _ _ h hx) hxs

theorem FrameRule.frame (r : FrameRule cmd K) {v : Variant} {bytes rxs : List Byte} {k : Nat} {d e : Device}
    (h : K .closed d) (he : Device.exchanges v k d.select (cmd :: bytes) = some (e, rxs)) : K .inFrame e := by
  unfold Device.exchanges at he
  split at he
  · cases he
  · rename_i hx
    split at he
    · cases he
    · rename_i hxs
      cases he
      exact r.exchanges (r.command _ _ _ _ _ (r.selects d h) hx) hxs

/-- One transfer, whatever the environment does with it. -/
theorem OnBus.after (r : FrameRule cmd K) {p : BracketPos} {s : State} {tx rx : Byte} {d : Device} {e : WireEvent}
    (h : OnBus K p s) (hx : ∀ f d rx, K p s.dev → s.dev.exchange s.cfg.variant f tx = some (d, rx) → K .inFrame d)
    (hr : respond s tx = some (d, rx)) : OnBus K .inFrame (afterExchange s d e) := by
  obtain ⟨hp, rfl⟩ | ⟨hp, hd⟩ := respond_device hr
  · exact ⟨h.outside, fun hthere => absurd (hp.symm.trans hthere) nofun⟩
  · have hin : K .inFrame d := by
      rcases hd with rfl | ⟨f, rx, hd⟩
      · exact r.loses _ h.outside
      · exact hx f d rx (h.inside hp) hd
    exact ⟨r.weaken _ _ hin, fun _ => hin⟩

/-- Every action of an operation that sends frames of this command only carries the rule on. -/
theorem FrameRule.action (r : FrameRule cmd K) (p q : BracketPos) (act : Action) (rx : Byte) (s : State)
    (hp : act.position (some cmd) p = some q) (h : OnBus K p s) :
    (act.run rx s).Post (fun _ t => OnBus K q t) fun t => K .closed t.dev := by
  cases act with
  | xfer tx =>
    obtain ⟨rfl, hpos⟩ := position_xfer hp
    refine exchange_post (fun d rx hr => h.after r (fun f d rx hK hx => ?_) hr) fun _ => h.outside
    rcases hpos with rfl | ⟨rfl, c, hc, rfl⟩
    · exact r.exchange _ _ _ _ _ _ hK hx
    · cases hc
      exact r.command _ _ _ _ _ hK hx
  | block i =>
    obtain ⟨rfl, rfl⟩ := position_block hp
    have hx := exchange_post (ev := .b) (tx := s.dbuf.getD i 0) (s := s) (Q := fun _ t => OnBus K .inFrame t)
      (H := fun t => K .closed t.dev) (fun d rx hr => h.after r (fun f d rx => r.exchange _ _ _ _ _ _) hr) fun _ => h.outside
    exact hx.bind fun _ _ ht => ⟨ht.outside, ht.inside⟩
  | csLow =>
    cases hp
    have hsel : s.devPresent = true → (csAssert s).dev = s.dev.select := fun hthere => if_pos hthere
    refine ⟨?_, fun hthere => hsel hthere ▸ r.selects _ h.outside⟩
    rw [csAssert_dev]
    split
    · exact r.weaken _ _ (r.selects _ h.outside)
    · exact h.outside
  | csHigh =>
    cases hp
    have hdes : K .closed (csDeassert s).dev := by
      rw [csDeassert_dev]
      split
      · exact r.deselects _ _ _ h.outside
      · exact h.outside
    exact ⟨hdes, fun _ => hdes⟩
  | busInit =>
    cases hp
    have hx := busInit_post (s := s) (Q := fun _ t => OnBus K p t) (H := fun t => K .closed t.dev)
      (fun _ => ⟨h.outside, h.inside⟩) fun _ => h.outside
    exact hx.bind (k := fun _ s => .ok rx s) fun _ _ ht => ht
  | _ =>
    cases hp
    exact ⟨h.outside, h.inside⟩

/-- A frame of this command at the device's port. -/
theorem FrameRule.deviceFrame (r : FrameRule cmd K) {bytes : List Byte} {s t : State} (h : K .closed s.dev)
    (e : deviceFrame (cmd :: bytes) s = .next t) : K .closed t.dev := by
  obtain ⟨-, -, hd | ⟨d, rxs, free, hx, hd⟩⟩ := deviceFrame_next e
  · exact hd ▸ h
  · exact hd ▸ r.deselects _ _ _ (r.weaken _ _ (r.frame h hx))

/-- An operation all of whose frames are of this command. -/
theorem FrameRule.operation (r : FrameRule cmd K) {i : Instr} {s : State} (hc : frameCommand i = some cmd)
    (h : K .closed s.dev) : (runActions (operationActions s.cfg.variant i) 0x00 (accept s)).Post
      (fun _ t => K .closed t.dev) fun t => K .closed t.dev := by
  have hw := walk_operationActions s.cfg.variant i
  rw [hc] at hw
  exact (runActions_walk r.action hw 0x00 (s := accept s) ⟨h, fun _ => h⟩).mono (fun _ _ ht => ht.outside) fun _ ht => ht

/-- The first byte of the frame of a wire command. -/
theorem encode_frame_cons {i : Instr} (hi : isWireCommand i = true) (hc : frameCommand i = some cmd) :
    ∃ bytes, encode i = .frame (cmd :: bytes) := by
  cases i <;> cases hi <;> cases hc <;> exact ⟨_, rfl⟩

theorem FrameRule.exec (r : FrameRule cmd K) {i : Instr} {s t : State} (hc : frameCommand i = some cmd)
    (h : K .closed s.dev) (e : exec i s = .next t) : K .closed t.dev := by
  have hpost := r.operation hc h
  cases executed_of_next e with
  | completed run =>
    rw [run] at hpost
    exact hpost
  | hung run =>
    rw [run] at hpost
    exact hpost
  | framed wire _ =>
    obtain ⟨bytes, hbytes⟩ := encode_frame_cons wire hc
    exact r.deviceFrame h (exec_of_frame hbytes s ▸ e)

end FrameRule

/-- What an instruction without frames leaves of the device: everything. -/
theorem exec_dev_of_noFrame {i : Instr} {s t : State} (hc : frameCommand i = none) (h : exec i s = .next t) :
    t.dev = s.dev := by
  cases i with
  | length =>
    rw [exec_operation rfl] at h
    obtain ⟨-, -, ⟨u, hu, rfl⟩ | hu⟩ := perform_next h
    · cases hu
      rfl
    · cases hu
  | reservedB | reservedC | reservedD | reservedE | reservedF => exact absurd h reject_ne_next
  | _ => cases hc

/-! ### Contents and mode -/

/-- Where an exchange behind the command byte can move the decoder (20_memory.md R72). -/
theorem exchange_position {v : Variant} {f tx rx : Byte} {d e : Device} (h : d.exchange v f tx = some (e, rx))
    (hc : d.dpos ≠ .cmd) :
    e.isWrite = d.isWrite ∧
      (e.dpos = d.dpos ∨ d.dpos = .a2 ∧ e.dpos = .a1 ∨ d.dpos = .a1 ∧ e.dpos = .a0 ∨
        d.dpos = .a0 ∧ e.dpos = if d.isWrite then .wr else .rd) := by
  unfold Device.exchange at h
  cases hp : d.dpos with
  | cmd => exact absurd hp hc
  | idle | mrR | dead =>
    rw [hp] at h
    cases h
    exact ⟨rfl, .inl hp⟩
  | a2 | a1 | a0 =>
    rw [hp] at h
    cases h
    simp
  | rd | wr | mrW =>
    rw [hp] at h
    dsimp only at h
    split at h
    all_goals cases h
    simp

/-- The part `f` of the device has the value `x`, and in a bracket the device stands where a byte cannot change it. -/
def Sheltered {β : Type} (f : Device → β) (safe : Device → Prop) (x : β) : BracketPos → Device → Prop
  | .closed, d => f d = x
  | .opened, d => f d = x ∧ d.dpos = .cmd
  | .inFrame, d => f d = x ∧ safe d

/-- The device is on no way to a data byte of a WRITE frame. -/
def Device.NotWriting (d : Device) : Prop :=
  d.dpos ≠ .cmd ∧ d.dpos ≠ .wr ∧ (d.dpos = .a2 ∨ d.dpos = .a1 ∨ d.dpos = .a0 → d.isWrite = false)

/-- The device is on no way to a mode byte. -/
def Device.NotSettingMode (d : Device) : Prop := d.dpos ≠ .cmd ∧ d.dpos ≠ .mrW

theorem exchange_notWriting {v : Variant} {f tx rx : Byte} {d e : Device} (h : d.NotWriting)
    (he : d.exchange v f tx = some (e, rx)) : e.mem = d.mem ∧ e.NotWriting := by
  obtain ⟨hcmd, hwr, haddr⟩ := h
  refine ⟨(exchange_effect he).1.resolve_right fun hw => hwr hw.1, ?_⟩
  unfold Device.NotWriting
  obtain ⟨hw, hp | ⟨hp, hq⟩ | ⟨hp, hq⟩ | ⟨hp, hq⟩⟩ := exchange_position he hcmd
  · rw [hp, hw]
    exact ⟨hcmd, hwr, haddr⟩
  all_goals simp [hq, hw, haddr, hp]

theorem exchange_notSettingMode {v : Variant} {f tx rx : Byte} {d e : Device} (h : d.NotSettingMode)
    (he : d.exchange v f tx = some (e, rx)) : e.mode = d.mode ∧ e.NotSettingMode := by
  obtain ⟨hcmd, hmode⟩ := h
  refine ⟨(exchange_effect he).2.2.1.resolve_right fun hm => hmode hm.1, ?_⟩
  unfold Device.NotSettingMode
  obtain ⟨-, hp | ⟨-, hq⟩ | ⟨-, hq⟩ | ⟨-, hq⟩⟩ := exchange_position he hcmd
  · rw [hp]
    exact ⟨hcmd, hmode⟩
  · simp [hq]
  · simp [hq]
  · rw [hq]
    cases d.isWrite <;> simp

/-- The command byte of a frame at a selected device. -/
theorem exchange_command {v : Variant} {f c rx : Byte} {d e : Device} (hp : d.dpos = .cmd)
    (he : d.exchange v f c = some (e, rx)) : e = d.command v c := by
  unfold Device.exchange at he
  rw [hp] at he
  cases he
  rfl

theorem command_notWriting {c : Byte} (v : Variant) (d : Device) (hc : c ≠ cmdWrite) : (d.command v c).NotWriting := by
  cases v <;> simp only [Device.command, hc, if_false] <;> repeat' split
  all_goals simp [Device.NotWriting]

theorem command_notSettingMode {c : Byte} (v : Variant) (d : Device) (hc : c ≠ cmdWriteModeRegister) :
    (d.command v c).NotSettingMode := by
  cases v <;> simp only [Device.command, hc, if_false] <;> repeat' split
  all_goals simp [Device.NotSettingMode]

/-- The rule for a part of the device that neither the position nor the pointer belongs to: the command byte brings the device
to a safe place, and further bytes keep it in one. -/
theorem frameRule_sheltered {β : Type} {f : Device → β} {safe : Device → Prop} {c : Byte} (x : β)
    (hplace : ∀ d p q, f { d with dpos := p, ptr := q } = f d)
    (hcommand : ∀ v d, f (d.command v c) = f d ∧ safe (d.command v c))
    (hexchange : ∀ {v free tx rx} {d e : Device}, safe d → d.exchange v free tx = some (e, rx) → f e = f d ∧ safe e)
    (hlose : ∀ d : Device, safe d.lose) : FrameRule c (Sheltered f safe x) where
  weaken p d h := by
    cases p with
    | closed => exact h
    | opened | inFrame => exact h.1
  selects d h := ⟨(hplace d _ _).trans h, rfl⟩
  command v free d e rx h he := by
    rw [exchange_command h.2 he]
    exact ⟨(hcommand v d).1.trans h.1, (hcommand v d).2⟩
  exchange v free tx d e rx h he := ⟨(hexchange h.2 he).1.trans h.1, (hexchange h.2 he).2⟩
  loses d h := ⟨(hplace d _ _).trans h, hlose d⟩
  deselects v k d h := (hplace d _ _).trans h

/-- A frame of another command than WRITE leaves the bytes of the device (20_memory.md R70, R73). -/
theorem frameRule_mem {c : Byte} (hc : c ≠ cmdWrite) (m : List Host.Cell) :
    FrameRule c (Sheltered Device.mem Device.NotWriting m) :=
  frameRule_sheltered m (fun _ _ _ => rfl) (fun v d => ⟨(command_effect v d c).1, command_notWriting v d hc⟩)
    exchange_notWriting fun _ => by simp [Device.NotWriting, Device.lose]

/-- A frame of another command than WRITE_MODE_REGISTER leaves the mode of the device (20_memory.md R75). -/
theorem frameRule_mode {c : Byte} (hc : c ≠ cmdWriteModeRegister) (x : Byte) :
    FrameRule c (Sheltered Device.mode Device.NotSettingMode x) :=
  frameRule_sheltered x (fun _ _ _ => rfl) (fun v d => ⟨(command_effect v d c).2.2.1, command_notSettingMode v d hc⟩)
    exchange_notSettingMode fun _ => by simp [Device.NotSettingMode, Device.lose]

theorem frameCommand_ne_write {i : Instr} (h : writesDevice i = false) : frameCommand i ≠ some cmdWrite := by
  cases i with
  | write _ _ | update _ _ | put _ _ | erase | writeS _ _ | writeL _ _ => cases h
  | _ => simp [frameCommand, cmdRead, cmdWrite, cmdReadModeRegister, cmdWriteModeRegister]

theorem frameCommand_ne_writeModeRegister {i : Instr} (h : writesMode i = false) :
    frameCommand i ≠ some cmdWriteModeRegister := by
  cases i with
  | create _ | initializeDevice | writeModeRegister => cases h
  | _ => simp [frameCommand, cmdRead, cmdWrite, cmdReadModeRegister, cmdWriteModeRegister]

/-- Settles O15: frames of no other command than WRITE, and than WRITE_MODE_REGISTER, reach the bytes, and the mode. -/
theorem onlyWriteFramesChangeTheDevice : Obligations.OnlyWriteFramesChangeTheDevice := by
  intro i s t h
  cases hc : frameCommand i with
  | none =>
    rw [exec_dev_of_noFrame hc h]
    exact ⟨fun _ => rfl, fun _ => rfl⟩
  | some c =>
    refine ⟨fun hw => ?_, fun hm => ?_⟩
    · have hne : c ≠ cmdWrite := fun hcw => frameCommand_ne_write hw (hcw ▸ hc)
      exact (frameRule_mem hne s.dev.mem).exec hc rfl h
    · have hne : c ≠ cmdWriteModeRegister := fun hcw => frameCommand_ne_writeModeRegister hm (hcw ▸ hc)
      exact (frameRule_mode hne s.dev.mode).exec hc rfl h

end Sys2Proof.Machine
end

section
/-! SUPPORT. Two runs of one operation: from states that differ in the device's pointer (20_memory.md R61), and with address
operands that mask to the same (20_memory.md R52). -/

namespace Sys2Proof.Machine

/-! ### Two runs, piece by piece -/

/-- One piece after another, where the first ends in states that a finer relation holds between. -/
theorem Run.Rel.bind_finer {α β : Type} {R S : State → State → Prop} {m m' : Run α} {k k' : α → State → Run β}
    (h : m.Rel S m') (hS : ∀ s s', S s s' → R s s') (hk : ∀ a s s', S s s' → (k a s).Rel R (k' a s')) :
    (m.bind k).Rel R (m'.bind k') := by
  cases m <;> cases m' <;> simp only [Run.Rel, Run.bind] at h ⊢
  case ok.ok a s a' s' =>
    obtain ⟨rfl, h⟩ := h
    exact hk _ _ _ h
  case hung.hung => exact hS _ _ h
  case refused.refused => exact h

/-- One exchange of one byte on both sides, given what the environment answers on each. -/
theorem exchange_rel {R : State → State → Prop} {s s' : State} {tx : Byte} (ev : Byte → Byte → WireEvent) (hR : R s s')
    (hbus : s'.busInited = s.busInited) (hfate : nextFate s' = nextFate s)
    (hrespond : Option.Rel (fun p p' => p.2 = p'.2 ∧ ∀ e, R (afterExchange s p.1 e) (afterExchange s' p'.1 e))
      (respond s tx) (respond s' tx)) :
    (exchange ev tx s).Rel R (exchange ev tx s') := by
  unfold exchange
  by_cases hb : (!s.busInited) = true
  · have hb' : (!s'.busInited) = true := by rwa [hbus]
    rw [if_pos hb, if_pos hb']
    exact rfl
  have hb' : ¬(!s'.busInited) = true := by rwa [hbus]
  rw [if_neg hb, if_neg hb', hfate]
  by_cases hf : nextFate s = .stalled
  · rw [if_pos hf, if_pos hf]
    exact hR
  rw [if_neg hf, if_neg hf]
  generalize respond s tx = o at hrespond ⊢
  generalize respond s' tx = o' at hrespond ⊢
  cases hrespond with
  | none => exact rfl
  | some h =>
    obtain ⟨hrx, hafter⟩ := h
    dsimp only
    rw [hrx]
    exact ⟨rfl, hafter _⟩

/-- One call of `BusInit` on both sides. -/
theorem busInit_rel {R : State → State → Prop} {s s' : State} (hR : R s s') (hfate : nextFate s' = nextFate s)
    (hmark : R (markBusInit { s with fates := s.fates.tail }) (markBusInit { s' with fates := s'.fates.tail })) :
    (busInit s).Rel R (busInit s') := by
  unfold busInit
  rw [hfate]
  by_cases hf : nextFate s = .stalled
  · rw [if_pos hf, if_pos hf]
    exact hR
  · rw [if_neg hf, if_neg hf]
    exact ⟨rfl, hmark⟩

/-- A request is refused on both sides alike, or accepted on both. -/
theorem perform_rel {R : State → State → Prop} {refusal refusal' : State → Option Refusal} {body body' : State → Run Unit}
    {s s' : State} (hb : s'.busy = s.busy) (hr : refusal' s' = refusal s)
    (h : (body (accept s)).Rel R (body' (accept s'))) (hR : ∀ s s', R s s' → R (complete s) (complete s')) :
    OutcomeRel R (perform refusal body s) (perform refusal' body' s') := by
  unfold perform
  rw [hb, hr]
  by_cases hbusy : s.busy = true
  · rw [if_pos hbusy, if_pos hbusy]
    exact rfl
  rw [if_neg hbusy, if_neg hbusy]
  cases refusal s with
  | some r => exact rfl
  | none => exact h.finish hR

/-! ### The device's pointer -/

/-- The device with its pointer elsewhere. -/
def Device.pointedAt (d : Device) (k : Nat) : Device := { d with ptr := k }

/-- The pointer of `d'` may be elsewhere than that of `d`, but not once a frame has sent its address. -/
def SamePlace (d d' : Device) : Prop := ∃ k, d' = d.pointedAt k ∧ (d.hasAddress = true → k = d.ptr)

theorem SamePlace.refl (d : Device) : SamePlace d d := ⟨d.ptr, rfl, fun _ => rfl⟩

theorem SamePlace.of_noAddress {d : Device} (k : Nat) (h : d.hasAddress = false) : SamePlace d (d.pointedAt k) :=
  ⟨k, rfl, fun ht => absurd (h.symm.trans ht) nofun⟩

theorem hasAddress_command (v : Variant) (d : Device) (c : Byte) : (d.command v c).hasAddress = false := by
  cases v <;> simp only [Device.command] <;> repeat' split
  all_goals rfl

theorem command_pointedAt (v : Variant) (d : Device) (k : Nat) (c : Byte) :
    (d.pointedAt k).command v c = (d.command v c).pointedAt k := by
  cases v <;> simp only [Device.command] <;> repeat' split
  all_goals rfl

/-- An exchange reads the pointer only where a frame has sent its address, and there it is the same. -/
theorem exchange_samePlace {d d' : Device} (h : SamePlace d d') (v : Variant) (f tx : Byte) :
    Option.Rel (fun p p' => p.2 = p'.2 ∧ SamePlace p.1 p'.1) (d.exchange v f tx) (d'.exchange v f tx) := by
  obtain ⟨k, rfl, hk⟩ := h
  cases ha : d.hasAddress with
  | true =>
    have hd : d.pointedAt k = d := by rw [hk ha]; rfl
    rw [hd]
    cases d.exchange v f tx with
    | none => exact .none
    | some p => exact .some ⟨rfl, .refl _⟩
  | false =>
    unfold Device.exchange
    rw [show (d.pointedAt k).dpos = d.dpos from rfl]
    cases hp : d.dpos with
    | rd | wr => simp [Device.hasAddress, hp] at ha
    | cmd =>
      rw [command_pointedAt]
      exact .some ⟨rfl, .of_noAddress k (hasAddress_command v d tx)⟩
    | idle | mrR | dead => exact .some ⟨rfl, .of_noAddress k ha⟩
    | a2 | a1 => exact .some ⟨rfl, .of_noAddress k rfl⟩
    | a0 => exact .some ⟨rfl, .refl _⟩
    | mrW =>
      dsimp only
      rw [show (d.pointedAt k).moved = d.moved from rfl]
      cases d.moved with
      | true => exact .none
      | false => exact .some ⟨rfl, .of_noAddress k rfl⟩

/-- At the end of a frame the pointer is where the frame left it, or a free value. -/
theorem deselect_samePlace {d d' : Device} (h : SamePlace d d') (v : Variant) (free : Nat) :
    d'.deselect v free = d.deselect v free := by
  obtain ⟨k, rfl, hk⟩ := h
  cases ha : d.hasAddress with
  | true => rw [hk ha]; rfl
  | false =>
    unfold Device.deselect
    rw [show (d.pointedAt k).hasAddress = d.hasAddress from rfl, ha]
    rfl

theorem exchanges_samePlace (v : Variant) (bytes : List Byte) : ∀ (k : Nat) {d d' : Device}, SamePlace d d' →
    Option.Rel (fun p p' => p.2 = p'.2 ∧ SamePlace p.1 p'.1) (Device.exchanges v k d bytes)
      (Device.exchanges v k d' bytes) := by
  induction bytes with
  | nil => exact fun _ _ _ h => .some ⟨rfl, h⟩
  | cons tx rest ih =>
    intro k d d' h
    have hx := exchange_samePlace h v (Config.freeByte k) tx
    unfold Device.exchanges
    generalize d.exchange v (Config.freeByte k) tx = o at hx ⊢
    generalize d'.exchange v (Config.freeByte k) tx = o' at hx ⊢
    cases hx with
    | none => exact .none
    | @some p p' hp =>
      obtain ⟨hrx, hd⟩ := hp
      have hxs := ih (k + 1) hd
      dsimp only
      generalize Device.exchanges v (k + 1) p.1 rest = o at hxs ⊢
      generalize Device.exchanges v (k + 1) p'.1 rest = o' at hxs ⊢
      cases hxs with
      | none => exact .none
      | some hp => exact .some ⟨by rw [hrx, hp.1], hp.2⟩

/-- The state with the device's pointer elsewhere. -/
def withPointer (k : Nat) (s : State) : State := { s with dev := s.dev.pointedAt k }

/-- Two states that differ at most in the device's pointer, and inside a bracket not once a device on the bus has been sent
its address. -/
def PointerApart (p : BracketPos) (s s' : State) : Prop :=
  ∃ k, s' = withPointer k s ∧ (p ≠ .closed → s.devPresent = true → s.dev.hasAddress = true → k = s.dev.ptr)

theorem PointerApart.outside {p : BracketPos} {s s' : State} (h : PointerApart p s s') : PointerApart .closed s s' := by
  obtain ⟨k, hs, -⟩ := h
  exact ⟨k, hs, fun hp => absurd rfl hp⟩

/-- What becomes of a byte where a device is on the bus (20_memory.md R63, R65; log 23). -/
theorem respond_there {s : State} (h : s.devPresent = true) (tx : Byte) :
    respond s tx =
      if nextFate s = .failed then
        if Config.freeTaken s.draws then
          (s.dev.exchange s.cfg.variant (Config.freeByte s.draws) tx).map fun o => (o.1, Config.freeByte s.draws)
        else some (s.dev.lose, Config.freeByte s.draws)
      else s.dev.exchange s.cfg.variant (Config.freeByte s.draws) tx := by
  simp only [respond, h, Bool.not_true, Bool.false_eq_true, if_false]
  cases nextFate s <;> rfl

theorem respond_absent {s : State} (h : s.devPresent = false) (tx : Byte) :
    respond s tx = some (s.dev, Config.freeByte s.draws) := by
  simp [respond, h]

/-- What two devices at the same place make of a byte. -/
abbrev SameReply : Option (Device × Byte) → Option (Device × Byte) → Prop :=
  Option.Rel fun o o' => o.2 = o'.2 ∧ SamePlace o.1 o'.1

theorem SameReply.map {o o' : Option (Device × Byte)} (h : SameReply o o') (rx : Byte) :
    SameReply (o.map fun p => (p.1, rx)) (o'.map fun p => (p.1, rx)) := by
  cases h with
  | none => exact .none
  | some h => exact .some ⟨rfl, h.2⟩

/-- The environment answers alike where the devices are at the same place. -/
theorem respond_sameReply {s : State} {k : Nat} (hthere : s.devPresent = true)
    (h : SamePlace s.dev (s.dev.pointedAt k)) (tx : Byte) : SameReply (respond s tx) (respond (withPointer k s) tx) := by
  have hx := exchange_samePlace h s.cfg.variant (Config.freeByte s.draws) tx
  rw [respond_there hthere, respond_there (s := withPointer k s) hthere]
  by_cases hf : nextFate s = .failed
  · rw [if_pos hf, if_pos (c := nextFate (withPointer k s) = .failed) hf]
    by_cases ht : Config.freeTaken s.draws = true
    · rw [if_pos ht, if_pos (c := Config.freeTaken (withPointer k s).draws = true) ht]
      exact SameReply.map hx _
    · rw [if_neg ht, if_neg (c := Config.freeTaken (withPointer k s).draws = true) ht]
      exact .some ⟨rfl, .of_noAddress k rfl⟩
  · rw [if_neg hf, if_neg (c := nextFate (withPointer k s) = .failed) hf]
    exact hx

/-- Inside a bracket the environment answers alike on both sides, with a device or without. -/
theorem respond_pointerApart {p : BracketPos} {s s' : State} (h : PointerApart p s s') (hp : p ≠ .closed) (tx : Byte) :
    Option.Rel (fun o o' => o.2 = o'.2 ∧ ∀ e, PointerApart .inFrame (afterExchange s o.1 e) (afterExchange s' o'.1 e))
      (respond s tx) (respond s' tx) := by
  obtain ⟨k, rfl, hk⟩ := h
  cases hthere : s.devPresent with
  | false =>
    rw [respond_absent hthere, respond_absent (s := withPointer k s) hthere]
    exact .some ⟨rfl, fun e => ⟨k, rfl, fun _ ht => absurd (hthere.symm.trans ht) nofun⟩⟩
  | true =>
    have hreply := respond_sameReply hthere ⟨k, rfl, hk hp hthere⟩ tx
    generalize respond s tx = o at hreply ⊢
    generalize respond (withPointer k s) tx = o' at hreply ⊢
    cases hreply with
    | none => exact .none
    | some h =>
      obtain ⟨hrx, k', hdev, hk'⟩ := h
      refine .some ⟨hrx, fun e => ⟨k', ?_, fun _ _ => hk'⟩⟩
      rw [hdev]
      rfl

/-- A transfer inside a bracket, on both sides. -/
theorem exchange_pointerApart {p : BracketPos} {s s' : State} (h : PointerApart p s s') (hp : p ≠ .closed)
    (ev : Byte → Byte → WireEvent) {tx tx' : Byte} (htx : tx' = tx) :
    (exchange ev tx s).Rel (PointerApart .inFrame) (exchange ev tx' s') := by
  have hrespond := respond_pointerApart h hp tx
  obtain ⟨k, rfl, hk⟩ := h
  rw [htx]
  exact exchange_rel ev ⟨k, rfl, fun _ => hk hp⟩ rfl rfl hrespond

theorem csAssert_withPointer (k : Nat) (s : State) : csAssert (withPointer k s) = withPointer k (csAssert s) := by
  have hdev : (if s.devPresent then (s.dev.pointedAt k).select else s.dev.pointedAt k) =
      (if s.devPresent then s.dev.select else s.dev).pointedAt k := by
    split <;> rfl
  exact congrArg (fun d => { csAssert s with dev := d }) hdev

theorem csDeassert_withPointer (k : Nat) (s : State) :
    ∃ k', csDeassert (withPointer k s) = withPointer k' (csDeassert s) := by
  have hdev : (csDeassert (withPointer k s)).dev = (csDeassert s).dev.pointedAt (csDeassert (withPointer k s)).dev.ptr := by
    rw [csDeassert_dev, csDeassert_dev]
    by_cases hthere : s.devPresent = true
    · rw [if_pos hthere, if_pos (c := (withPointer k s).devPresent = true) hthere]
      rfl
    · rw [if_neg hthere, if_neg (c := (withPointer k s).devPresent = true) hthere]
      rfl
  exact ⟨_, congrArg (fun d => { csDeassert s with dev := d }) hdev⟩

/-- Every action of an operation leaves the two sides as far apart as its position allows. -/
theorem action_pointerApart {cmd : Option Byte} (p q : BracketPos) (act : Action) (rx : Byte) (s s' : State)
    (hpos : act.position cmd p = some q) (h : PointerApart p s s') :
    (act.run rx s).Rel (PointerApart q) (act.run rx s') := by
  cases act with
  | xfer tx =>
    obtain ⟨rfl, hp⟩ := position_xfer hpos
    have hopen : p ≠ .closed := by rcases hp with rfl | ⟨rfl, -⟩ <;> nofun
    have hbyte : tx.byte s' = tx.byte s := by
      obtain ⟨k, rfl, -⟩ := h
      cases tx with
      | address a k => cases a <;> rfl
      | _ => rfl
    exact exchange_pointerApart h hopen .x hbyte
  | block i =>
    obtain ⟨rfl, rfl⟩ := position_block hpos
    have hbyte : s'.dbuf.getD i 0 = s.dbuf.getD i 0 := by
      obtain ⟨k, rfl, -⟩ := h
      rfl
    refine (exchange_pointerApart h nofun .b hbyte).bind fun rx u u' hu => ⟨rfl, ?_⟩
    obtain ⟨k, rfl, hk⟩ := hu
    exact ⟨k, rfl, hk⟩
  | csLow =>
    cases hpos
    obtain ⟨k, rfl, -⟩ := h
    refine ⟨rfl, k, csAssert_withPointer k s, fun _ hthere hk => ?_⟩
    rw [csAssert_dev, if_pos (c := s.devPresent = true) hthere] at hk
    cases hk
  | csHigh =>
    cases hpos
    obtain ⟨k, rfl, -⟩ := h
    obtain ⟨k', hs⟩ := csDeassert_withPointer k s
    exact ⟨rfl, k', hs, fun hp => absurd rfl hp⟩
  | busInit =>
    cases hpos
    obtain ⟨k, rfl, hk⟩ := h
    have hbus : (Machine.busInit s).Rel (PointerApart p) (Machine.busInit (withPointer k s)) :=
      busInit_rel ⟨k, rfl, hk⟩ rfl ⟨k, rfl, hk⟩
    exact hbus.bind fun _ _ _ hu => ⟨rfl, hu⟩
  | fillScratch a =>
    cases hpos
    obtain ⟨k, rfl, hk⟩ := h
    cases a <;> exact ⟨rfl, k, rfl, hk⟩
  | _ =>
    cases hpos
    obtain ⟨k, rfl, hk⟩ := h
    exact ⟨rfl, k, rfl, hk⟩

theorem runActions_pointerApart {cmd : Option Byte} {acts : List Action} {p q : BracketPos}
    (hw : walk cmd p acts = some q) (rx : Byte) {s s' : State} (h : PointerApart p s s') :
    (runActions acts rx s).Rel (PointerApart .closed) (runActions acts rx s') := by
  induction acts generalizing p rx s s' with
  | nil => exact ⟨rfl, h.outside⟩
  | cons act acts ih =>
    rw [walk_cons] at hw
    obtain ⟨r, hr, hw⟩ := Option.bind_eq_some_iff.mp hw
    exact (action_pointerApart p r act rx s s' hr h).bind_finer (fun _ _ => PointerApart.outside) fun rx _ _ => ih hw rx

/-- An operation from two states that differ at most in the device's pointer. -/
theorem operationRun_pointerApart (i : Instr) (k : Nat) (s : State) :
    (operationRun i s).Rel (PointerApart .closed) (operationRun i (withPointer k s)) := by
  have hstart : PointerApart .closed s (withPointer k s) := ⟨k, rfl, fun hp => absurd rfl hp⟩
  exact (runActions_pointerApart (walk_operationActions _ i) 0x00 hstart).bind fun _ _ _ h => ⟨rfl, h⟩

theorem PointerApart.completes {s s' : State} (h : PointerApart .closed s s') :
    PointerApart .closed (complete s) (complete s') := by
  obtain ⟨k, rfl, hk⟩ := h
  exact ⟨k, rfl, hk⟩

/-- A frame at the device's port begins with a device that has no address yet. -/
theorem deviceFrame_pointerApart (bytes : List Byte) (k : Nat) (s : State) :
    OutcomeRel (PointerApart .closed) (deviceFrame bytes s) (deviceFrame bytes (withPointer k s)) := by
  unfold deviceFrame
  by_cases hb : s.busy = true
  · rw [if_pos hb, if_pos (c := (withPointer k s).busy = true) hb]
    exact rfl
  rw [if_neg hb, if_neg (c := (withPointer k s).busy = true) hb]
  by_cases hp : (!s.devPresent) = true
  · rw [if_pos hp, if_pos (c := (!(withPointer k s).devPresent) = true) hp]
    exact ⟨k, rfl, fun hp => absurd rfl hp⟩
  rw [if_neg hp, if_neg (c := (!(withPointer k s).devPresent) = true) hp]
  have hx := exchanges_samePlace s.cfg.variant bytes s.draws (SamePlace.of_noAddress (d := s.dev.select) k rfl)
  simp only [withPointer]
  rw [show (s.dev.pointedAt k).select = s.dev.select.pointedAt k from rfl]
  generalize Device.exchanges s.cfg.variant s.draws s.dev.select bytes = o at hx ⊢
  generalize Device.exchanges s.cfg.variant s.draws (s.dev.select.pointedAt k) bytes = o' at hx ⊢
  cases hx with
  | none => exact rfl
  | @some p p' h =>
    obtain ⟨hrx, hd⟩ := h
    dsimp only [OutcomeRel]
    rw [deselect_samePlace hd, hrx]
    exact ⟨_, rfl, fun hp => absurd rfl hp⟩

theorem exec_pointerApart (i : Instr) (k : Nat) (s : State) :
    OutcomeRel (PointerApart .closed) (exec i s) (exec i (withPointer k s)) := by
  cases hi : isOperation i with
  | true =>
    rw [exec_operation hi, exec_operation hi]
    refine perform_rel rfl ?_ (operationRun_pointerApart i k (accept s)) fun _ _ => PointerApart.completes
    cases i <;> rfl
  | false =>
    cases he : encode i with
    | frame bytes =>
      rw [exec_of_frame he, exec_of_frame he]
      exact deviceFrame_pointerApart bytes k s
    | request r =>
      cases i with
      | reservedB | reservedC | reservedD | reservedE | reservedF =>
        show OutcomeRel _ (reject _ s) (reject _ s)
        unfold reject
        cases s.busy <;> exact rfl
      | writeModeRegister | readS _ _ | writeS _ _ | readL _ _ | writeL _ _ | readModeRegister _ => cases he
      | _ => cases hi

theorem OutcomeRel.mono {R S : State → State → Prop} {o o' : Host.Outcome State Fault Refusal} (h : OutcomeRel R o o')
    (hRS : ∀ t t', R t t' → S t t') : OutcomeRel S o o' := by
  cases o <;> cases o' <;> simp only [OutcomeRel] at h ⊢
  case next.next => exact hRS _ _ h
  case refused.refused => exact h

/-- Settles O19: inside a bracket the pointer is read only after the frame has sent its address, and then it is the same. -/
theorem noFrameDependsOnThePointer : Obligations.NoFrameDependsOnThePointer := by
  intro i s p
  refine (exec_pointerApart i p s).mono fun t t' h => ?_
  obtain ⟨k, rfl, -⟩ := h
  rfl

/-! ### The address operand -/

/-- The state with another address operand latched. -/
def withAddr (a : Word) (s : State) : State := { s with addr := a }

/-- Two states that differ in the latched address operand, and the two operands mask to the same (20_memory.md R52). -/
def SameMask (a : Word) (s s' : State) : Prop :=
  s' = withAddr a s ∧ maskAddr s.cfg.variant a = maskAddr s.cfg.variant s.addr

theorem SameMask.byte {a : Word} {s s' : State} (h : SameMask a s s') (tx : TxSource) : tx.byte s' = tx.byte s := by
  obtain ⟨rfl, hm⟩ := h
  cases tx with
  | address b k =>
    cases b with
    | operand => exact congrArg (byteK k) hm
    | running | origin => rfl
  | _ => rfl

theorem exchange_sameMask {a : Word} {s s' : State} (h : SameMask a s s') (ev : Byte → Byte → WireEvent) {tx tx' : Byte}
    (htx : tx' = tx) : (exchange ev tx s).Rel (SameMask a) (exchange ev tx' s') := by
  obtain ⟨rfl, hm⟩ := h
  rw [htx]
  refine exchange_rel ev ⟨rfl, hm⟩ rfl rfl ?_
  rw [show respond (withAddr a s) tx = respond s tx from rfl]
  cases respond s tx with
  | none => exact .none
  | some p => exact .some ⟨rfl, fun _ => ⟨rfl, hm⟩⟩

/-- No action but the latch of the operand tells the two sides apart. -/
theorem action_sameMask {a : Word} {act : Action} (hact : ∀ b, act ≠ .latchAddr b) (rx : Byte) {s s' : State}
    (h : SameMask a s s') : (act.run rx s).Rel (SameMask a) (act.run rx s') := by
  cases act with
  | xfer tx => exact exchange_sameMask h .x (h.byte tx)
  | block i =>
    have hbyte : s'.dbuf.getD i 0 = s.dbuf.getD i 0 := by rw [h.1]; rfl
    refine (exchange_sameMask h .b hbyte).bind fun rx u u' hu => ?_
    obtain ⟨rfl, hm⟩ := hu
    exact ⟨rfl, rfl, hm⟩
  | busInit =>
    obtain ⟨rfl, hm⟩ := h
    have hbus : (Machine.busInit s).Rel (SameMask a) (Machine.busInit (withAddr a s)) :=
      busInit_rel ⟨rfl, hm⟩ rfl ⟨rfl, hm⟩
    exact hbus.bind fun _ _ _ hu => ⟨rfl, hu⟩
  | fillScratch b =>
    obtain ⟨rfl, hm⟩ := h
    refine ⟨rfl, ?_, hm⟩
    cases b with
    | operand => simp only [HeaderAddress.word, withAddr, hm]
    | running | origin => rfl
  | latchAddr b => exact absurd rfl (hact b)
  | _ =>
    obtain ⟨rfl, hm⟩ := h
    exact ⟨rfl, rfl, hm⟩

theorem runActions_sameMask {a : Word} {acts : List Action} (hacts : ∀ b, Action.latchAddr b ∉ acts) (rx : Byte)
    {s s' : State} (h : SameMask a s s') : (runActions acts rx s).Rel (SameMask a) (runActions acts rx s') := by
  induction acts generalizing rx s s' with
  | nil => exact ⟨rfl, h⟩
  | cons act acts ih =>
    have hact : ∀ b, act ≠ .latchAddr b := fun b hb => hacts b (hb ▸ List.mem_cons_self)
    exact (action_sameMask hact rx h).bind fun rx _ _ => ih (fun b hb => hacts b (List.mem_cons_of_mem _ hb)) rx

/-- Nothing a bracket frames its data phase by latches an operand. -/
@[simp] theorem latchAddr_mem_bracketActions {b : Word} (v : Variant) (cmd : Byte) (a : HeaderAddress)
    (body : List Action) : Action.latchAddr b ∈ bracketActions v cmd a body ↔ Action.latchAddr b ∈ body := by
  cases v <;> simp [bracketActions, headerActions, sendActions, closeActions]

/-- The operations of one address operand latch it first of all, and nothing else of them depends on it. -/
structure LatchesFirst (mk : Word → Instr) : Prop where
  operation : ∀ a, isOperation (mk a) = true
  refusal : ∀ a a', operationRefusal (mk a') = operationRefusal (mk a)
  actions : ∀ v, ∃ rest, (∀ b, Action.latchAddr b ∉ rest) ∧ ∀ a, operationActions v (mk a) = .latchAddr a :: rest

/-- The actions of a single-byte read behind the latch; index has the same. -/
theorem latchAddr_not_mem_read (v : Variant) (b : Word) :
    Action.latchAddr b ∉ readActions v .operand ++ [.answerByte] := by simp [readActions]

/-- The actions of a single-byte write behind the latch; update has the same. -/
theorem latchAddr_not_mem_write (v : Variant) (b : Word) (x : Byte) :
    Action.latchAddr b ∉ .latchVal x :: bracketActions v cmdWrite .operand [.xfer .value] := by simp

theorem latchAddr_not_mem_get (v : Variant) (b : Word) (n : Nat) :
    Action.latchAddr b ∉
      .latchCount n :: .freeRegion n :: bracketActions v cmdRead .operand (blockActions n) ++ [.answerRegion n] := by
  simp [blockActions]

theorem latchAddr_not_mem_put (v : Variant) (b : Word) (w : List Byte) :
    Action.latchAddr b ∉ .latchCount w.length :: .loadRegion w ::
      bracketActions v cmdWrite .operand (blockActions w.length) ++ [.answerValue w] := by
  simp [blockActions]

theorem latchesFirst {v : Byte} {n : Nat} {w : List Byte} {mk : Word → Instr}
    (h : mk = Instr.read ∨ mk = Instr.index ∨ mk = (Instr.write · v) ∨ mk = (Instr.update · v) ∨ mk = (Instr.get · n) ∨
      mk = (Instr.put · w)) : LatchesFirst mk := by
  obtain rfl | rfl | rfl | rfl | rfl | rfl := h
  · exact ⟨fun _ => rfl, fun _ _ => rfl, fun v => ⟨_, latchAddr_not_mem_read v, fun _ => rfl⟩⟩
  · exact ⟨fun _ => rfl, fun _ _ => rfl, fun v => ⟨_, latchAddr_not_mem_read v, fun _ => rfl⟩⟩
  · exact ⟨fun _ => rfl, fun _ _ => rfl, fun c => ⟨_, fun b => latchAddr_not_mem_write c b v, fun _ => rfl⟩⟩
  · exact ⟨fun _ => rfl, fun _ _ => rfl, fun c => ⟨_, fun b => latchAddr_not_mem_write c b v, fun _ => rfl⟩⟩
  · exact ⟨fun _ => rfl, fun _ _ => rfl, fun v => ⟨_, fun b => latchAddr_not_mem_get v b n, fun _ => rfl⟩⟩
  · exact ⟨fun _ => rfl, fun _ _ => rfl, fun v => ⟨_, fun b => latchAddr_not_mem_put v b w, fun _ => rfl⟩⟩

/-- Two operands that mask to the same give the same run but for the latched operand. -/
theorem LatchesFirst.operationRun_sameMask {mk : Word → Instr} (h : LatchesFirst mk) {a a' : Word} {s : State}
    (hm : maskAddr s.cfg.variant a = maskAddr s.cfg.variant a') :
    (operationRun (mk a) s).Rel (SameMask a') (operationRun (mk a') s) := by
  obtain ⟨rest, hrest, hacts⟩ := h.actions s.cfg.variant
  unfold operationRun
  rw [hacts, hacts]
  have hlatched : SameMask a' (withAddr a s) (withAddr a' s) := ⟨rfl, hm.symm⟩
  exact (runActions_sameMask hrest 0x00 hlatched).bind fun _ _ _ hu => ⟨rfl, hu⟩

/-- Settles O39: behind the latch only the masked operand is read. -/
theorem addressesActModuloCapacity : Obligations.AddressesActModuloCapacity := by
  refine ⟨maskAddr_toNat, fun s a a' v n w mk hmk hm => ?_⟩
  have hlatch := latchesFirst hmk
  rw [exec_operation (hlatch.operation a), exec_operation (hlatch.operation a')]
  have hrel := perform_rel rfl (congrFun (hlatch.refusal a a') s) (hlatch.operationRun_sameMask (s := accept s) hm)
    fun _ _ hu => ⟨congrArg complete hu.1, hu.2⟩
  exact hrel.mono fun _ _ hu => hu.1.symm

end Sys2Proof.Machine
end

section
/-! SUPPORT. Frames at the device's own port, byte by byte (20_memory.md R71 to R75), and the transfers that have no meaning
outside sequential mode (R74). -/

namespace Sys2Proof.Machine

/-! ### A frame that the device takes -/

/-- The state after a frame at the device's port that brings the device to `d` and answers `rxs`. -/
def portAfter (s : State) (bytes : List Byte) (d : Device) (rxs : List Byte) : State :=
  { s with
    dev := d.deselect s.cfg.variant (Config.freePointer (s.draws + bytes.length))
    reply := rxs
    draws := s.draws + bytes.length + 1
    done := false }

theorem portAfter_frame (s : State) (bytes : List Byte) (d : Device) (rxs : List Byte) :
    portAfter s bytes d rxs = portFrame s (portAfter s bytes d rxs) := rfl

section Port
variable {s : State} {bytes : List Byte} (hb : s.busy = false) (hp : s.devPresent = true)
include hb hp

theorem deviceFrame_taken {d : Device} {rxs : List Byte}
    (h : Device.exchanges s.cfg.variant s.draws s.dev.select bytes = some (d, rxs)) :
    deviceFrame bytes s = .next (portAfter s bytes d rxs) := by
  simp [deviceFrame, hb, hp, h, portAfter]

theorem deviceFrame_noMeaning (h : Device.exchanges s.cfg.variant s.draws s.dev.select bytes = none) :
    deviceFrame bytes s = .refused .deviceNoMeaning := by
  simp [deviceFrame, hb, hp, h]

end Port

/-! ### Addressed frames -/

/-- A header that sends a selected device the address `m` of a READ or a WRITE frame (20_memory.md R72). -/
structure Reaches (v : Variant) (header : List Byte) (isWrite : Bool) (m : Nat) : Prop where
  inside : m < v.capacity
  taken : ∀ (k : Nat) (d : Device), ∃ rs : List Byte, rs.length = header.length ∧
    Device.exchanges v k d.select header = some (d.addressed isWrite m, rs)

theorem reaches_headerS (w : Bool) (a : BitVec 16) : Reaches .small (headerS (cmdOf w) a) w a.toNat :=
  ⟨a.isLt, exchanges_headerS w a⟩

theorem reaches_headerL (w : Bool) (a : BitVec 17) : Reaches .large (headerL (cmdOf w) a) w a.toNat :=
  ⟨a.isLt, exchanges_headerL w a⟩

/-- Behind its header an addressed frame is its data bytes. -/
theorem Reaches.exchanges {v : Variant} {header : List Byte} {w : Bool} {m : Nat} (h : Reaches v header w m) (k : Nat)
    (d : Device) (ds : List Byte) : ∃ rs, rs.length = header.length ∧
      Device.exchanges v k d.select (header ++ ds) =
        (Device.exchanges v (k + header.length) (d.addressed w m) ds).map fun q => (q.1, rs ++ q.2) := by
  obtain ⟨rs, hlen, hx⟩ := h.taken k d
  exact ⟨rs, hlen, by rw [exchanges_append, hx]; rfl⟩

/-- The data bytes of a frame have a meaning: one in any mode, more in sequential mode (20_memory.md R74). -/
theorem moves_addressed {s : State} {n : Nat} (h : n ≤ 1 ∨ SequentialMode s) (w : Bool) (m : Nat) :
    Moves (s.dev.addressed w m) n := by
  rcases h with h | h
  · rcases Nat.le_one_iff_eq_zero_or_eq_one.mp h with h | h
    · exact .inl h
    · exact .inr (.inr ⟨h, rfl⟩)
  · exact .inr (.inl h)

/-- A READ frame at the device's port (20_memory.md R72, R73). -/
theorem deviceFrame_read {s : State} {header ds : List Byte} {m : Nat} (hb : s.busy = false) (hp : s.devPresent = true)
    (hds : ds.length ≤ 1 ∨ SequentialMode s) (hr : Reaches s.cfg.variant header false m) :
    ∃ t, deviceFrame (header ++ ds) s = .next t ∧ t.reply.length = header.length + ds.length ∧
      t.reply.drop header.length = bytesAt s m ds.length ∧ t = portFrame s t ∧ DeviceKept s t ∧
      t.dev.ptr = (m + ds.length) % s.cfg.variant.capacity ∧ t.dev.dpos = .idle := by
  obtain ⟨rs, hlen, hx⟩ := hr.exchanges s.draws s.dev ds
  rw [exchanges_read _ _ _ _ rfl (moves_addressed hds false m) hr.inside] at hx
  obtain ⟨hmem, hmode, hpos⟩ := readMany_fields s.cfg.variant ds.length (s.dev.addressed false m)
  refine ⟨_, deviceFrame_taken hb hp hx, ?_, ?_, portAfter_frame _ _ _ _, ⟨fun x => byteAt_congr hmem x, hmode⟩, ?_, rfl⟩
  · simp [portAfter, hlen]
  · rw [← hlen]
    exact List.drop_left
  · exact (deselect_ptr_kept (.inl hpos)).trans (readMany_ptr _ _ _ hr.inside)

/-- A WRITE frame at the device's port (20_memory.md R72, R73). -/
theorem deviceFrame_write {s : State} {header ds : List Byte} {m : Nat} (hb : s.busy = false) (hp : s.devPresent = true)
    (hds : ds.length ≤ 1 ∨ SequentialMode s) (hr : Reaches s.cfg.variant header true m) :
    ∃ t, deviceFrame (header ++ ds) s = .next t ∧ t = portFrame s t ∧ t.dev.mode = s.dev.mode ∧
      t.dev.ptr = (m + ds.length) % s.cfg.variant.capacity ∧ t.dev.dpos = .idle ∧
      (∀ x, t.dev.byteAt x = ((s.dev.addressed true m).writeMany s.cfg.variant ds).byteAt x) := by
  obtain ⟨rs, hlen, hx⟩ := hr.exchanges s.draws s.dev ds
  obtain ⟨ws, -, hws⟩ := exchanges_write s.cfg.variant ds (s.draws + header.length) _ rfl (moves_addressed hds true m)
  rw [hws] at hx
  obtain ⟨hmode, hpos⟩ := writeMany_fields s.cfg.variant ds (s.dev.addressed true m)
  refine ⟨_, deviceFrame_taken hb hp hx, portAfter_frame _ _ _ _, hmode, ?_, rfl, fun x => byteAt_congr rfl x⟩
  exact (deselect_ptr_kept (.inr hpos)).trans (writeMany_ptr _ _ _ hr.inside)

/-- Settles O52: the header brings the device to the address, and the data bytes read on from there. -/
theorem readCommandAnswersTheBytes : Obligations.ReadCommandAnswersTheBytes := by
  rintro s i m h ds hb hp hds (⟨a, hv, rfl, rfl, rfl⟩ | ⟨a, hv, rfl, rfl, rfl⟩)
  · exact deviceFrame_read hb hp hds (hv ▸ reaches_headerS false a)
  · exact deviceFrame_read hb hp hds (hv ▸ reaches_headerL false a)

/-- Settles O53: the header brings the device to the address, and the data bytes are written on from there. -/
theorem writeCommandStoresTheBytes : Obligations.WriteCommandStoresTheBytes := by
  intro s i m ds hb hp hds hi
  have hframe : ∃ header, Reaches s.cfg.variant header true m ∧ exec i s = deviceFrame (header ++ ds) s := by
    obtain ⟨a, hv, rfl, rfl⟩ | ⟨a, hv, rfl, rfl⟩ := hi
    · exact ⟨_, hv ▸ reaches_headerS true a, rfl⟩
    · exact ⟨_, hv ▸ reaches_headerL true a, rfl⟩
  obtain ⟨header, hr, hexec⟩ := hframe
  obtain ⟨t, ht, hport, hmode, hptr, hpos, hbytes⟩ := deviceFrame_write hb hp hds hr
  refine ⟨t, hexec.trans ht, hport, hmode, hptr, hpos, fun k hk hlast => ?_, fun x hx => ?_⟩
  · exact (hbytes _).trans (writeMany_get _ _ _ k hk hr.inside hlast)
  · exact (hbytes _).trans (writeMany_other _ _ _ x hr.inside hx)

/-! ### Transfers without a meaning -/

/-- The device takes or gives data bytes of an addressed frame, and not in sequential mode. -/
structure OneByteOnly (d : Device) : Prop where
  data : d.dpos = .rd ∨ d.dpos = .wr
  mode : d.mode ≠ modeSeq

theorem oneByteOnly_addressed {s : State} (h : ¬SequentialMode s) (w : Bool) (m : Nat) :
    OneByteOnly (s.dev.addressed w m) :=
  ⟨by cases w <;> simp [Device.addressed], h⟩

/-- A first data byte leaves the device so, with its one transfer behind it. -/
theorem OneByteOnly.exchange {d e : Device} {v : Variant} {f tx rx : Byte} (h : OneByteOnly d)
    (he : d.exchange v f tx = some (e, rx)) : OneByteOnly e ∧ e.moved = true := by
  unfold Device.exchange at he
  rcases h.data with hp | hp
  all_goals
    rw [hp] at he
    dsimp only at he
    split at he
    · cases he
      exact ⟨⟨by simp, h.mode⟩, rfl⟩
    · cases he

/-- A second data byte has no meaning (20_memory.md R74). -/
theorem OneByteOnly.second {d : Device} (h : OneByteOnly d) (hm : d.moved = true) (v : Variant) (f tx : Byte) :
    d.exchange v f tx = none := by
  have hmay : d.mayMove = false := by simp [Device.mayMove, hm, h.mode]
  rcases h.data with hp | hp <;> simp [Device.exchange, hp, hmay]

theorem OneByteOnly.exchanges {d : Device} (h : OneByteOnly d) {ds : List Byte} (hds : 2 ≤ ds.length) (v : Variant)
    (k : Nat) : Device.exchanges v k d ds = none := by
  obtain ⟨x, y, rest, rfl⟩ : ∃ x y rest, ds = x :: y :: rest := by
    match ds, hds with
    | x :: y :: rest, _ => exact ⟨x, y, rest, rfl⟩
  unfold Device.exchanges
  cases hx : d.exchange v (Config.freeByte k) x with
  | none => rfl
  | some p =>
    obtain ⟨he, hm⟩ := h.exchange hx
    simp only [Device.exchanges, he.second hm]

/-- Settles O54: the first data byte leaves the device with its one transfer behind it. -/
theorem secondByteNeedsSequentialMode : Obligations.SecondByteNeedsSequentialMode := by
  intro s ds hb hp hseq hds
  have hframe : ∀ {w : Bool} {m : Nat} {header : List Byte}, Reaches s.cfg.variant header w m →
      deviceFrame (header ++ ds) s = .refused .deviceNoMeaning := by
    intro w m header hr
    obtain ⟨rs, -, hx⟩ := hr.exchanges s.draws s.dev ds
    rw [(oneByteOnly_addressed hseq w m).exchanges hds] at hx
    exact deviceFrame_noMeaning hb hp hx
  refine ⟨fun a hv => ⟨?_, ?_⟩, fun a hv => ⟨?_, ?_⟩⟩
  · exact hframe (hv ▸ reaches_headerS false a)
  · exact hframe (hv ▸ reaches_headerS true a)
  · exact hframe (hv ▸ reaches_headerL false a)
  · exact hframe (hv ▸ reaches_headerL true a)

/-! ### Frames without an address -/

/-- The device answers the mode register in each exchange (20_memory.md R75). -/
theorem exchanges_mrR (v : Variant) (ds : List Byte) : ∀ (k : Nat) {d : Device}, d.dpos = .mrR →
    Device.exchanges v k d ds = some (d, List.replicate ds.length d.mode) := by
  induction ds with
  | nil => exact fun _ _ _ => rfl
  | cons x ds ih =>
    intro k d h
    simp [Device.exchanges, Device.exchange, h, ih _ h, List.replicate_succ]

/-- A device that ignores a frame answers any values (20_memory.md R72). -/
theorem exchanges_dead (v : Variant) (ds : List Byte) : ∀ (k : Nat) {d : Device}, d.dpos = .dead →
    ∃ rxs, Device.exchanges v k d ds = some (d, rxs) := by
  induction ds with
  | nil => exact fun _ _ _ => ⟨[], rfl⟩
  | cons x ds ih =>
    intro k d h
    obtain ⟨rxs, hx⟩ := ih (k + 1) h
    exact ⟨Config.freeByte k :: rxs, by simp [Device.exchanges, Device.exchange, h, hx]⟩

/-- The command byte of a frame, and the bytes behind it. -/
theorem exchanges_command (v : Variant) (k : Nat) (d : Device) (c : Byte) (bytes : List Byte) :
    Device.exchanges v k d.select (c :: bytes) =
      (Device.exchanges v (k + 1) (d.select.command v c) bytes).map fun q => (q.1, Config.freeByte k :: q.2) := by
  show (match Device.exchanges v (k + 1) (d.select.command v c) bytes with | none => none | some (e, rxs) => _) = _
  cases Device.exchanges v (k + 1) (d.select.command v c) bytes <;> rfl

theorem command_writeModeRegister (v : Variant) (d : Device) :
    d.command v cmdWriteModeRegister = { d with moved := false, dpos := .mrW } := rfl

theorem command_readModeRegister (v : Variant) (d : Device) :
    d.command v cmdReadModeRegister = { d with moved := false, dpos := .mrR } := rfl

/-- What is none of the four first bytes is no command (20_memory.md R72, 30_encoding.md R82). -/
theorem ne_commands {c : Byte} (hc : c ∉ [0x01, 0x02, 0x03, 0x05]) :
    c ≠ cmdRead ∧ c ≠ cmdWrite ∧ c ≠ cmdWriteModeRegister ∧ c ≠ cmdReadModeRegister := by
  simp only [List.mem_cons, List.not_mem_nil, or_false, not_or] at hc
  obtain ⟨h1, h2, h3, h5⟩ := hc
  exact ⟨h3, h2, h1, h5⟩

theorem command_unknown (v : Variant) (d : Device) {c : Byte} (hc : c ∉ [0x01, 0x02, 0x03, 0x05]) :
    d.command v c = d.lose := by
  obtain ⟨hr, hw, hmw, hmr⟩ := ne_commands hc
  unfold Device.command
  rw [if_neg hr, if_neg hw, if_neg hmw, if_neg hmr]
  rfl

theorem decode_unknown (v : Variant) {c : Byte} (ds : List Byte) (hc : c ∉ [0x01, 0x02, 0x03, 0x05]) :
    decode v (.frame (c :: ds)) = .error (.unknownCommand c) := by
  obtain ⟨hr, hw, hmw, hmr⟩ := ne_commands hc
  simp only [decode, decodeFrame, if_neg hr, if_neg hw, if_neg hmw, if_neg hmr]

/-- Settles O55: the command byte brings the device to the mode register, and no address is sent. -/
theorem modeRegisterCommands : Obligations.ModeRegisterCommands := by
  refine fun s hb hp => ⟨?_, fun ds => ?_⟩
  · have hx := exchanges_command s.cfg.variant s.draws s.dev cmdWriteModeRegister [modeSeq]
    rw [command_writeModeRegister] at hx
    exact ⟨_, deviceFrame_taken hb hp hx, rfl, portAfter_frame _ _ _ _, rfl, deselect_ptr_free rfl, rfl⟩
  · have hx := exchanges_command s.cfg.variant s.draws s.dev cmdReadModeRegister ds
    rw [command_readModeRegister, exchanges_mrR _ _ (s.draws + 1) rfl] at hx
    exact ⟨_, deviceFrame_taken hb hp hx, rfl, portAfter_frame _ _ _ _, ⟨fun x => byteAt_congr rfl x, rfl⟩,
      deselect_ptr_free rfl, rfl⟩

/-- A frame that is no row of the table is taken as it is (log 34). -/
theorem step_of_rawFrame {s : State} {bytes : List Byte} {e : DecodeError} {rest : List Input} (hb : s.busy = false)
    (hi : s.inputs = .frame bytes :: rest) (hd : decode s.cfg.variant (.frame bytes) = .error e) :
    step s = deviceFrame bytes { s with inputs := rest } := by
  simp [step, fetch, hb, hi, hd]

/-- Settles O56: such a frame is taken as it is, and at its first byte the device begins to ignore it. -/
theorem unknownCommandsAreIgnored : Obligations.UnknownCommandsAreIgnored := by
  intro s c ds rest hb hp hi hc
  have hx := exchanges_command s.cfg.variant s.draws s.dev c ds
  rw [command_unknown _ _ hc] at hx
  obtain ⟨rxs, hdead⟩ := exchanges_dead s.cfg.variant ds (s.draws + 1) (d := s.dev.select.lose) rfl
  rw [hdead] at hx
  have hstep := step_of_rawFrame hb hi (decode_unknown _ ds hc)
  exact ⟨_, hstep.trans (deviceFrame_taken (s := { s with inputs := rest }) hb hp hx), rfl,
    ⟨fun x => byteAt_congr rfl x, rfl⟩, deselect_ptr_free rfl, rfl⟩

/-! ### No device on the bus -/

theorem encode_wireCommand {i : Instr} (h : isWireCommand i = true) : ∃ bytes, encode i = .frame bytes := by
  cases i <;> cases h <;> exact ⟨_, rfl⟩

/-- Settles O57: a wire command is its frame, and with no device a frame leaves its answer only. -/
theorem wireCommandsWithoutADevice : Obligations.WireCommandsWithoutADevice := by
  intro i s hi hb hp
  obtain ⟨bytes, hbytes⟩ := encode_wireCommand hi
  rw [exec_of_frame hbytes]
  unfold deviceFrame
  rw [if_neg (ne_true_of_eq_false hb), if_pos (by rw [hp]; rfl)]
  exact ⟨_, rfl, rfl, rfl⟩

/-! ### Operations that the preconditions or the device refuse -/

/-- A request outside its precondition is not accepted. -/
theorem perform_of_refusal {refusal : State → Option Refusal} {body : State → Run Unit} {s : State} {r : Refusal}
    (hb : s.busy = false) (hr : refusal s = some r) : perform refusal body s = .refused r := by
  simp [perform, hb, hr]

/-- A request whose operation meets a transfer without a meaning is refused for that. -/
theorem perform_of_refused {refusal : State → Option Refusal} {body : State → Run Unit} {s : State} {r : Refusal}
    (hb : s.busy = false) (hr : refusal s = none) (h : body (accept s) = .refused r) :
    perform refusal body s = .refused r := by
  simp [perform, hb, hr, h, Run.finish]

/-- Settles O24: in a ready block the length is all that the precondition still tests. -/
theorem smallChecksumLengthHasSixteenBits : Obligations.SmallChecksumLengthHasSixteenBits := by
  intro s a len hr hv hlen
  have hok : lengthOk s.cfg len = false := by
    unfold lengthOk
    rw [hv]
    exact decide_eq_false (Nat.not_le.mpr hlen)
  refine perform_of_refusal hr.idle ?_
  simp [checksumRefusal, dataRefusal_ready hr, hok]

/-- The reference device answers each byte itself (20_memory.md R63). -/
theorem Healthy.respond_eq {s : State} (h : Healthy s) (tx : Byte) :
    respond s tx = s.dev.exchange s.cfg.variant (Config.freeByte s.draws) tx := by
  rw [respond_there h.there, if_neg (by simp [h.nextFate])]

/-- The bus delivers, and the device on it takes or gives data bytes outside sequential mode. -/
structure OneByteBus (s : State) : Prop where
  bus : s.busInited = true
  healthy : Healthy s
  device : OneByteOnly s.dev

namespace OneByteBus
variable {s : State}

theorem exchange_eq_refused (h : OneByteBus s) {tx : Byte} (ev : Byte → Byte → WireEvent)
    (hx : s.dev.exchange s.cfg.variant (Config.freeByte s.draws) tx = none) :
    exchange ev tx s = .refused .deviceNoMeaning := by
  simp [exchange, h.bus, h.healthy.nextFate, h.healthy.respond_eq, hx]

/-- A first data byte is refused, or it is transferred and leaves the device with its one transfer behind it. -/
theorem firstByte (h : OneByteBus s) (ev : Byte → Byte → WireEvent) (tx : Byte) :
    exchange ev tx s = .refused .deviceNoMeaning ∨
      ∃ rx t, exchange ev tx s = .ok rx t ∧ OneByteBus t ∧ t.dev.moved = true := by
  cases hx : s.dev.exchange s.cfg.variant (Config.freeByte s.draws) tx with
  | none => exact .inl (h.exchange_eq_refused ev hx)
  | some p =>
    have hrespond : respond s tx = some p := (h.healthy.respond_eq tx).trans hx
    obtain ⟨hdevice, hmoved⟩ := h.device.exchange hx
    have hf := Follows.after (s := s) p.1 (ev tx p.2)
    exact .inr ⟨p.2, _, exchange_eq h.bus h.healthy.returns hrespond, ⟨h.bus, hf.healthy h.healthy, hdevice⟩, hmoved⟩

theorem secondByte (h : OneByteBus s) (hm : s.dev.moved = true) (ev : Byte → Byte → WireEvent) (tx : Byte) :
    exchange ev tx s = .refused .deviceNoMeaning :=
  h.exchange_eq_refused ev (h.device.second hm _ _ _)

/-- Registers and the sequencer's position are no part of it. -/
theorem move {t : State} (h : OneByteBus s) (hbus : t.busInited = s.busInited) (hdev : t.dev = s.dev)
    (hthere : t.devPresent = s.devPresent) (hfates : t.fates = s.fates) : OneByteBus t :=
  ⟨hbus.trans h.bus, ⟨hthere.trans h.healthy.there, hfates ▸ h.healthy.delivered⟩, hdev ▸ h.device⟩

theorem xferBlock (h : OneByteBus s) {n : Nat} (hn : 2 ≤ n) (i : Nat) :
    xferBlock n i s = .refused .deviceNoMeaning := by
  obtain ⟨k, rfl⟩ := Nat.exists_eq_add_of_le' hn
  unfold Machine.xferBlock
  obtain hx | ⟨rx, t, hx, ht, hm⟩ := h.firstByte .b (s.dbuf.getD i 0)
  · rw [hx]
    rfl
  · rw [hx]
    have ht' : OneByteBus { t with dbuf := t.dbuf.set i rx } := ht.move rfl rfl rfl rfl
    show Machine.xferBlock (k + 1) (i + 1) _ = _
    unfold Machine.xferBlock
    rw [ht'.secondByte hm]
    rfl

theorem sendZeros (h : OneByteBus s) {n : Nat} (hn : 2 ≤ n) : sendZeros n s = .refused .deviceNoMeaning := by
  obtain ⟨k, rfl⟩ := Nat.exists_eq_add_of_le' hn
  have hs : OneByteBus (setPhase .data s) := h.move rfl rfl rfl rfl
  unfold Machine.sendZeros send xfer
  obtain hx | ⟨rx, t, hx, ht, hm⟩ := hs.firstByte .x 0x00
  · rw [hx]
    rfl
  · rw [hx]
    have ht' : OneByteBus (setPhase .data { t with cnt := t.cnt - 1 }) := ht.move rfl rfl rfl rfl
    show Machine.sendZeros (k + 1) _ = _
    unfold Machine.sendZeros send xfer
    rw [ht'.secondByte hm]
    rfl

end OneByteBus

/-- A bracket whose data phase is refused outside sequential mode. -/
theorem bracket_refused {α : Type} {s : State} {body : State → Run α} (w : Bool) (a : Word) (hbus : s.busInited = true)
    (hh : Healthy s) (hseq : ¬SequentialMode s) (hbody : ∀ u, OneByteBus u → body u = .refused .deviceNoMeaning) :
    bracket (cmdOf w) a body s = .refused .deviceNoMeaning := by
  obtain ⟨u, new, hrun, hf, -, -, hst⟩ := bracket_run (H := True) w a hbus hh.returns fun _ => hh
  have hdev : u.dev = s.dev.addressed w (addressOf s.cfg.variant a) := hst.exact trivial hh.there
  have hu : OneByteBus u :=
    ⟨hf.busInited.trans hbus, hf.healthy ⟨hh.there, hh.delivered⟩, hdev ▸ oneByteOnly_addressed hseq w _⟩
  rw [hrun, hbody u hu]
  rfl

theorem payloadRefusal_ready {s : State} {n : Nat} (h : Ready s) (h1 : 1 ≤ n) (hn : n ≤ s.cfg.nMax) :
    payloadRefusal n s = none := by
  simp [payloadRefusal, dataRefusal_ready h, payloadOk, h1, hn]

theorem blockBracket_refused {s : State} (w : Bool) (a : Word) {n : Nat} (hbus : s.busInited = true) (hh : Healthy s)
    (hseq : ¬SequentialMode s) (hn : 2 ≤ n) : bracket (cmdOf w) a (xferBlock n 0) s = .refused .deviceNoMeaning :=
  bracket_refused w a hbus hh hseq fun _ hu => hu.xferBlock hn 0

/-- Settles O42: each opens an addressed frame of two data bytes or more. -/
theorem blockTransfersNeedSequentialMode : Obligations.BlockTransfersNeedSequentialMode := by
  intro s hr hh hseq _
  refine ⟨fun a n h2 hn => ?_, fun a w h2 hn => ?_, ?_⟩
  · have hblock := blockBracket_refused (s := freeRegion n { accept s with addr := a, n := n }) false a hr.bus
      ⟨hh.there, hh.delivered⟩ hseq h2
    exact perform_of_refused hr.idle (payloadRefusal_ready hr (by omega) hn) (congrArg (Run.bind · _) hblock)
  · have hblock := blockBracket_refused (s := loadRegion w { accept s with addr := a, n := w.length }) true a hr.bus
      ⟨hh.there, hh.delivered⟩ hseq h2
    exact perform_of_refused hr.idle (payloadRefusal_ready hr (by omega) hn) (congrArg (Run.bind · _) hblock)
  · have hbracket : eraseOperation (accept s) = .refused .deviceNoMeaning := by
      refine bracket_refused true 0 hr.bus (healthy_accept hh) hseq fun u hu => ?_
      have hloaded : OneByteBus { u with cnt := resOfCapacity u.cfg.variant } := hu.move rfl rfl rfl rfl
      exact hloaded.sendZeros (by cases u.cfg.variant <;> decide)
    exact perform_of_refused hr.idle (dataRefusal_ready hr) hbracket

end Sys2Proof.Machine
end

section
/-! SUPPORT. The decoder and the encoder: the request port row by row (30_encoding.md R96), the headers of frames (R81, R85,
R86), and what a frame that decodes looks like (R82, R93, R94). -/

namespace Sys2Proof.Machine

/-! ### The rows of the request port -/

section
variable {r : Request}

theorem decodeRequest_create (h : r.op = 0x0) : decodeRequest r = .ok (.create r.auto) := by
  simp [decodeRequest, h]

theorem decodeRequest_initializeDevice (h : r.op = 0x1) : decodeRequest r = .ok .initializeDevice := by
  simp [decodeRequest, h]

theorem decodeRequest_length (h : r.op = 0x2) : decodeRequest r = .ok .length := by simp [decodeRequest, h]

theorem decodeRequest_read (h : r.op = 0x3) : decodeRequest r = .ok (.read r.addr) := by simp [decodeRequest, h]

theorem decodeRequest_write (h : r.op = 0x4) : decodeRequest r = .ok (.write r.addr r.val) := by simp [decodeRequest, h]

theorem decodeRequest_update (h : r.op = 0x5) : decodeRequest r = .ok (.update r.addr r.val) := by
  simp [decodeRequest, h]

theorem decodeRequest_get (h : r.op = 0x6) : decodeRequest r = .ok (.get r.addr r.n) := by simp [decodeRequest, h]

theorem decodeRequest_put (h : r.op = 0x7) :
    decodeRequest r = if r.wbuf.length = r.n then .ok (.put r.addr r.wbuf) else .error .wbufSize := by
  simp [decodeRequest, h]

theorem decodeRequest_erase (h : r.op = 0x8) : decodeRequest r = .ok .erase := by simp [decodeRequest, h]

theorem decodeRequest_checksum (h : r.op = 0x9) : decodeRequest r = .ok (.checksum r.addr r.len) := by
  simp [decodeRequest, h]

theorem decodeRequest_index (h : r.op = 0xA) : decodeRequest r = .ok (.index r.addr) := by simp [decodeRequest, h]

end

/-- The codes with a row of their own, and the reserved ones. -/
theorem operationCode_cases (op : BitVec 4) :
    op = 0x0 ∨ op = 0x1 ∨ op = 0x2 ∨ op = 0x3 ∨ op = 0x4 ∨ op = 0x5 ∨ op = 0x6 ∨ op = 0x7 ∨ op = 0x8 ∨ op = 0x9 ∨
      op = 0xA ∨ 0xB ≤ op.toNat := by
  revert op
  decide

/-! ### The reserved codes -/

/-- What an operation code from `0xB` on selects. -/
def reservedRow (op : BitVec 4) : Instr :=
  match op.toNat with
  | 0xB => .reservedB
  | 0xC => .reservedC
  | 0xD => .reservedD
  | 0xE => .reservedE
  | _ => .reservedF

theorem decodeRequest_reserved {r : Request} (h : 0xB ≤ r.op.toNat) : decodeRequest r = .ok (reservedRow r.op) := by
  have hlt := r.op.isLt
  unfold decodeRequest reservedRow
  generalize r.op.toNat = k at h hlt
  interval_cases k <;> rfl

theorem exec_reservedRow {op : BitVec 4} (h : 0xB ≤ op.toNat) (s : State) : exec (reservedRow op) s = reject op s := by
  obtain rfl | rfl | rfl | rfl | rfl : op = 0xB ∨ op = 0xC ∨ op = 0xD ∨ op = 0xE ∨ op = 0xF := by
    revert op
    decide
  all_goals rfl

theorem reject_busy (op : BitVec 4) {s : State} (hb : s.busy = true) : reject op s = .refused .busy := if_pos hb

theorem reject_idle (op : BitVec 4) {s : State} (hb : s.busy = false) : reject op s = .refused (.reservedCode op) :=
  if_neg (ne_true_of_eq_false hb)

theorem reject_refused (op : BitVec 4) (s : State) : ∃ why, reject op s = .refused why := by
  cases hb : s.busy with
  | true => exact ⟨_, reject_busy op hb⟩
  | false => exact ⟨_, reject_idle op hb⟩

/-- Settles O22: each of the five is `exec` of its code's row. -/
theorem reservedCodesAreRefused : Obligations.ReservedCodesAreRefused := fun s hb =>
  have hrow (op : BitVec 4) (h : 0xB ≤ op.toNat) : exec (reservedRow op) s = .refused (.reservedCode op) :=
    (exec_reservedRow h s).trans (reject_idle op hb)
  ⟨hrow 0xB (by decide), hrow 0xC (by decide), hrow 0xD (by decide), hrow 0xE (by decide), hrow 0xF (by decide)⟩

/-- Settles O4, row by row. -/
theorem hostRequestTable : Obligations.HostRequestTable := fun r =>
  ⟨decodeRequest_create, decodeRequest_initializeDevice, decodeRequest_length, decodeRequest_read, decodeRequest_write,
    decodeRequest_update, decodeRequest_get, fun h hn => (decodeRequest_put h).trans (if_pos hn), decodeRequest_erase,
    decodeRequest_checksum, decodeRequest_index,
    fun h => ⟨_, decodeRequest_reserved h, fun s => exec_reservedRow h s ▸ reject_refused r.op s⟩⟩

/-- Settles O5: in each row the fields that stand in the instruction are among those the requests agree on. -/
theorem unreadOperandFieldsAreIgnored : Obligations.UnreadOperandFieldsAreIgnored := by
  intro r r' hop hauto haddr hlen hval hn hwbuf
  rcases operationCode_cases r.op with h | h | h | h | h | h | h | h | h | h | h | h
  · rw [decodeRequest_create h, decodeRequest_create (hop ▸ h), hauto h]
  · rw [decodeRequest_initializeDevice h, decodeRequest_initializeDevice (hop ▸ h)]
  · rw [decodeRequest_length h, decodeRequest_length (hop ▸ h)]
  · rw [decodeRequest_read h, decodeRequest_read (hop ▸ h), haddr (by simp [h])]
  · rw [decodeRequest_write h, decodeRequest_write (hop ▸ h), haddr (by simp [h]), hval (by simp [h])]
  · rw [decodeRequest_update h, decodeRequest_update (hop ▸ h), haddr (by simp [h]), hval (by simp [h])]
  · rw [decodeRequest_get h, decodeRequest_get (hop ▸ h), haddr (by simp [h]), hn (by simp [h])]
  · rw [decodeRequest_put h, decodeRequest_put (hop ▸ h), haddr (by simp [h]), hn (by simp [h]), hwbuf h]
  · rw [decodeRequest_erase h, decodeRequest_erase (hop ▸ h)]
  · rw [decodeRequest_checksum h, decodeRequest_checksum (hop ▸ h), haddr (by simp [h]), hlen h]
  · rw [decodeRequest_index h, decodeRequest_index (hop ▸ h), haddr (by simp [h])]
  · rw [decodeRequest_reserved h, decodeRequest_reserved (hop ▸ h), hop]

/-! ### The address in a header -/

/-- The two address bytes of a Small header make up the address. -/
theorem append_addressBytesS (a : BitVec 16) : a.extractLsb' 8 8 ++ a.extractLsb' 0 8 = a := by
  rw [BitVec.extractLsb'_append_extractLsb'_eq_extractLsb' (by rfl), BitVec.extractLsb'_eq_self]

/-- The three address bytes of a Large header make up the address. -/
theorem append_addressBytesL (a : BitVec 17) :
    ((a.extractLsb' 16 1).setWidth 8).setWidth 1 ++ a.extractLsb' 8 8 ++ a.extractLsb' 0 8 = a := by
  rw [BitVec.setWidth_setWidth_of_le _ (by decide), BitVec.setWidth_eq,
    BitVec.extractLsb'_append_extractLsb'_eq_extractLsb' (by rfl),
    BitVec.extractLsb'_append_extractLsb'_eq_extractLsb' (by rfl), BitVec.extractLsb'_eq_self]

/-- Bits 23:17 of a Large header are zero. -/
theorem addressHigh_lt (a : BitVec 17) : ((a.extractLsb' 16 1).setWidth 8).toNat < 2 := by
  rw [BitVec.toNat_setWidth]
  exact (Nat.mod_le _ _).trans_lt (a.extractLsb' 16 1).isLt

/-- A byte below 2 is its lowest bit. -/
theorem setWidth_lowBit {b : Byte} (h : b.toNat < 2) : (b.setWidth 1).setWidth 8 = b := by
  apply BitVec.eq_of_toNat_eq
  simp only [BitVec.toNat_setWidth]
  omega

theorem headerS_append (cmd ah al : Byte) : headerS cmd (ah ++ al) = [cmd, ah, al] := by
  unfold headerS
  rw [BitVec.extractLsb'_append_eq_left, BitVec.extractLsb'_append_eq_right]

theorem headerL_append (cmd ah al : Byte) {au : Byte} (h : au.toNat < 2) :
    headerL cmd (au.setWidth 1 ++ ah ++ al) = [cmd, au, ah, al] := by
  have hu : (au.setWidth 1 ++ ah ++ al).extractLsb' 16 1 = au.setWidth 1 :=
    (BitVec.extractLsb'_append_eq_of_le (by decide)).trans BitVec.extractLsb'_append_eq_left
  have hh : (au.setWidth 1 ++ ah ++ al).extractLsb' 8 8 = ah :=
    (BitVec.extractLsb'_append_eq_of_le (by decide)).trans BitVec.extractLsb'_append_eq_right
  unfold headerL
  rw [hu, hh, BitVec.extractLsb'_append_eq_right, setWidth_lowBit h]

/-! ### Frames with an address -/

theorem decodeFrame_addressed (v : Variant) (w : Bool) (rest : List Byte) :
    decodeFrame v (cmdOf w :: rest) = decodeAddressed v w rest := by cases w <;> rfl

/-- The instruction of a Small frame with the command `cmdOf w`. -/
def addressedS (w : Bool) (a : BitVec 16) (ds : List Byte) : Instr := if w then .writeS a ds else .readS a ds

/-- The instruction of a Large frame with the command `cmdOf w`. -/
def addressedL (w : Bool) (a : BitVec 17) (ds : List Byte) : Instr := if w then .writeL a ds else .readL a ds

theorem encode_addressedS (w : Bool) (a : BitVec 16) (ds : List Byte) :
    encode (addressedS w a ds) = .frame (headerS (cmdOf w) a ++ ds) := by cases w <;> rfl

theorem encode_addressedL (w : Bool) (a : BitVec 17) (ds : List Byte) :
    encode (addressedL w a ds) = .frame (headerL (cmdOf w) a ++ ds) := by cases w <;> rfl

theorem wellFormed_addressedS (c : Config) (w : Bool) (a : BitVec 16) (ds : List Byte) :
    wellFormed c (addressedS w a ds) = (decide (c.variant = .small) && dataOk ds) := by cases w <;> rfl

theorem wellFormed_addressedL (c : Config) (w : Bool) (a : BitVec 17) (ds : List Byte) :
    wellFormed c (addressedL w a ds) = (decide (c.variant = .large) && dataOk ds) := by cases w <;> rfl

theorem dataOk_iff {ds : List Byte} : dataOk ds = true ↔ ¬ds.isEmpty = true := by simp [dataOk]

theorem decodeAddressed_small (w : Bool) (ah al : Byte) {ds : List Byte} (hds : dataOk ds = true) :
    decodeAddressed .small w (ah :: al :: ds) = .ok (addressedS w (ah ++ al) ds) := by
  cases w <;> simp [decodeAddressed, addressedS, dataOk_iff.mp hds]

theorem decodeAddressed_large (w : Bool) {au : Byte} (ah al : Byte) {ds : List Byte} (hu : au.toNat < 2)
    (hds : dataOk ds = true) :
    decodeAddressed .large w (au :: ah :: al :: ds) = .ok (addressedL w (au.setWidth 1 ++ ah ++ al) ds) := by
  cases w <;> simp [decodeAddressed, addressedL, dataOk_iff.mp hds, Nat.not_le.mpr hu]

theorem decodeFrame_headerS (w : Bool) (a : BitVec 16) {ds : List Byte} (hds : dataOk ds = true) :
    decodeFrame .small (headerS (cmdOf w) a ++ ds) = .ok (addressedS w a ds) := by
  refine (decodeFrame_addressed .small w _).trans ((decodeAddressed_small w _ _ hds).trans ?_)
  rw [append_addressBytesS]

theorem decodeFrame_headerL (w : Bool) (a : BitVec 17) {ds : List Byte} (hds : dataOk ds = true) :
    decodeFrame .large (headerL (cmdOf w) a ++ ds) = .ok (addressedL w a ds) := by
  refine (decodeFrame_addressed .large w _).trans ((decodeAddressed_large w _ _ (addressHigh_lt a) hds).trans ?_)
  rw [append_addressBytesL]

theorem decode_encode_addressedS {c : Config} (w : Bool) (a : BitVec 16) (ds : List Byte)
    (h : wellFormed c (addressedS w a ds) = true) :
    decode c.variant (encode (addressedS w a ds)) = .ok (addressedS w a ds) := by
  rw [wellFormed_addressedS, Bool.and_eq_true, decide_eq_true_iff] at h
  obtain ⟨hv, hds⟩ := h
  rw [hv, encode_addressedS]
  exact decodeFrame_headerS w a hds

theorem decode_encode_addressedL {c : Config} (w : Bool) (a : BitVec 17) (ds : List Byte)
    (h : wellFormed c (addressedL w a ds) = true) :
    decode c.variant (encode (addressedL w a ds)) = .ok (addressedL w a ds) := by
  rw [wellFormed_addressedL, Bool.and_eq_true, decide_eq_true_iff] at h
  obtain ⟨hv, hds⟩ := h
  rw [hv, encode_addressedL]
  exact decodeFrame_headerL w a hds

/-- Settles O2: a request carries its operands as they are, a header its address byte by byte. -/
theorem decodeInvertsEncode : Obligations.DecodeInvertsEncode := by
  intro c i hi
  cases i with
  | create _ | initializeDevice | length | erase => rfl
  | read _ | write _ _ | update _ _ | index _ | get _ _ | checksum _ _ => rfl
  | put a w => exact if_pos rfl
  | reservedB | reservedC | reservedD | reservedE | reservedF => rfl
  | writeModeRegister => rfl
  | readS a ds => exact decode_encode_addressedS false a ds hi
  | writeS a ds => exact decode_encode_addressedS true a ds hi
  | readL a ds => exact decode_encode_addressedL false a ds hi
  | writeL a ds => exact decode_encode_addressedL true a ds hi
  | readModeRegister ds => exact if_neg (dataOk_iff.mp hi)

/-! ### What a frame that decodes looks like -/

/-- Everything `decodeAddressed` can answer with. -/
theorem decodeAddressed_ok {v : Variant} {w : Bool} {rest : List Byte} {i : Instr}
    (h : decodeAddressed v w rest = .ok i) :
    (v = .small ∧ ∃ ah al ds, rest = ah :: al :: ds ∧ dataOk ds = true ∧ i = addressedS w (ah ++ al) ds) ∨
    (v = .large ∧ ∃ au ah al ds, rest = au :: ah :: al :: ds ∧ au.toNat < 2 ∧ dataOk ds = true ∧
      i = addressedL w (au.setWidth 1 ++ ah ++ al) ds) := by
  unfold decodeAddressed at h
  split at h
  next ah al ds =>
    split_ifs at h with hds hw <;> cases h
    all_goals exact .inl ⟨rfl, ah, al, ds, rfl, dataOk_iff.mpr hds, by simp [addressedS, hw]⟩
  next au ah al ds =>
    split_ifs at h with hu hds hw <;> cases h
    all_goals exact .inr ⟨rfl, au, ah, al, ds, rfl, Nat.not_le.mp hu, dataOk_iff.mpr hds, by simp [addressedL, hw]⟩
  next => cases h

/-- Everything `decodeFrame` can answer with. -/
theorem decodeFrame_ok {v : Variant} {bytes : List Byte} {i : Instr} (h : decodeFrame v bytes = .ok i) :
    (∃ w rest, bytes = cmdOf w :: rest ∧ decodeAddressed v w rest = .ok i) ∨
    (bytes = [cmdWriteModeRegister, modeSeq] ∧ i = .writeModeRegister) ∨
    (∃ ds, bytes = cmdReadModeRegister :: ds ∧ dataOk ds = true ∧ i = .readModeRegister ds) := by
  unfold decodeFrame at h
  split at h
  next => cases h
  next c rest =>
    split_ifs at h with hr hw hmw hmr hds
    · exact .inl ⟨false, rest, congrArg (· :: rest) hr, h⟩
    · exact .inl ⟨true, rest, congrArg (· :: rest) hw, h⟩
    · split at h
      next m =>
        split_ifs at h with hm
        cases h
        exact .inr (.inl ⟨by rw [hmw, hm], rfl⟩)
      next => cases h
    · cases h
      exact .inr (.inr ⟨rest, congrArg (· :: rest) hmr, dataOk_iff.mpr hds, rfl⟩)

/-- Settles O3: such a frame has one of the four formats, and its instruction puts the same bytes back. -/
theorem encodeInvertsDecodeOfFrames : Obligations.EncodeInvertsDecodeOfFrames := by
  intro c bytes i h
  obtain ⟨w, rest, rfl, ha⟩ | ⟨rfl, rfl⟩ | ⟨ds, rfl, hds, rfl⟩ := decodeFrame_ok h
  · obtain ⟨hv, ah, al, ds, rfl, hds, rfl⟩ | ⟨hv, au, ah, al, ds, rfl, hu, hds, rfl⟩ := decodeAddressed_ok ha
    · simp [encode_addressedS, headerS_append, wellFormed_addressedS, hv, hds]
    · simp [encode_addressedL, headerL_append _ _ _ hu, wellFormed_addressedL, hv, hds]
  · exact ⟨rfl, rfl⟩
  · exact ⟨rfl, hds⟩

/-- Settles O1 by running the decoder on the ten words. -/
theorem writtenOutWordsDecode : Obligations.WrittenOutWordsDecode := by
  unfold Obligations.WrittenOutWordsDecode
  decide

end Sys2Proof.Machine
end

section
/-! SUPPORT. create, initializeDevice and length (40_init_and_query.md): what a completed mode frame leaves, and what their
preconditions and that of the data operations refuse. -/

namespace Sys2Proof.Machine

/-! ### What the preconditions refuse -/

/-- An operation outside its precondition is refused. -/
theorem exec_of_refusal {i : Instr} {s : State} {r : Refusal} (hi : isOperation i = true) (hb : s.busy = false)
    (h : operationRefusal i s = some r) : exec i s = .refused r :=
  (exec_operation hi s).trans (perform_of_refusal hb h)

/-- The precondition of initializeDevice is the first part of that of the data operations. -/
theorem dataRefusal_of_initRefusal {s : State} {r : Refusal} (h : initRefusal s = some r) : dataRefusal s = some r := by
  unfold initRefusal at h
  unfold dataRefusal
  split_ifs at h ⊢ <;> exact h

/-- Every data operation tests the common precondition before its operands. -/
theorem operationRefusal_of_dataRefusal {i : Instr} {s : State} {r : Refusal} (hi : isDataOperation i = true)
    (h : dataRefusal s = some r) : isOperation i = true ∧ operationRefusal i s = some r := by
  cases i with
  | read _ | write _ _ | update _ _ | erase | index _ => exact ⟨rfl, h⟩
  | get _ _ | put _ _ => exact ⟨rfl, by simp [operationRefusal, payloadRefusal, h]⟩
  | checksum _ _ => exact ⟨rfl, by simp [operationRefusal, checksumRefusal, h]⟩
  | create _ | initializeDevice | length => cases hi
  | reservedB | reservedC | reservedD | reservedE | reservedF => cases hi
  | writeModeRegister | readS _ _ | writeS _ _ | readL _ _ | writeL _ _ | readModeRegister _ => cases hi

theorem exec_of_dataRefusal {i : Instr} {s : State} {r : Refusal} (hi : isDataOperation i = true) (hb : s.busy = false)
    (h : dataRefusal s = some r) : exec i s = .refused r := by
  obtain ⟨hop, hrefusal⟩ := operationRefusal_of_dataRefusal hi h
  exact exec_of_refusal hop hb hrefusal

theorem exec_of_initRefusal {i : Instr} {s : State} {r : Refusal}
    (hi : isDataOperation i = true ∨ i = .initializeDevice) (hb : s.busy = false) (h : initRefusal s = some r) :
    exec i s = .refused r := by
  obtain hdata | rfl := hi
  · exact exec_of_dataRefusal hdata hb (dataRefusal_of_initRefusal h)
  · exact exec_of_refusal rfl hb h

/-- Settles O21: the line and the bus are tested by both preconditions, `inited` by that of the data operations. -/
theorem operationsBeforeInitialisationAreRefused : Obligations.OperationsBeforeInitialisationAreRefused := by
  intro i s hb
  refine ⟨fun hi hline => exec_of_initRefusal hi hb ?_, fun hi hline hbus => exec_of_initRefusal hi hb ?_,
    fun hi hline hbus hdevice => exec_of_dataRefusal hi hb ?_⟩
  · simp [initRefusal, hline]
  · simp [initRefusal, hline, hbus]
  · simp [dataRefusal, hline, hbus, hdevice]

/-- Settles O25: both refusals are cases of the precondition of create. -/
theorem secondConstructionIsRefused : Obligations.SecondConstructionIsRefused := by
  intro s auto hb
  refine ⟨fun hline => exec_of_refusal rfl hb ?_, fun hline hbus => exec_of_refusal rfl hb ?_⟩
  · simp [operationRefusal, createRefusal, hline]
  · simp [operationRefusal, createRefusal, hline, hbus]

/-! ### Operations without a frame -/

/-- A create that is accepted and runs to its end. -/
theorem exec_create {auto : Bool} {s u : State} (hb : s.busy = false) (hr : createRefusal auto s = none)
    (hrun : (if auto then (busInit (configureLine (accept s))).bind fun _ t => initialise t
      else .ok () (configureLine (accept s))) = .ok () u) : exec (.create auto) s = .next (complete u) := by
  unfold exec execCreate
  exact perform_ok hb hr hrun

/-- length completes after one assignment. -/
theorem exec_length {s : State} (hb : s.busy = false) :
    exec .length s = .next (complete { accept s with res := resOfCapacity s.cfg.variant }) := by
  unfold exec execLength
  exact perform_ok hb rfl rfl

/-- Settles O29: from acceptance to completion the line is configured and nothing else is done. -/
theorem createConfiguresTheLine : Obligations.CreateConfiguresTheLine := by
  intro s hb hline
  have hrun : exec (.create false) s = .next (complete (configureLine (accept s))) :=
    exec_create hb (by simp [createRefusal, hline]) rfl
  simp [hrun, complete, configureLine, emit, accept, hb]

/-- Settles O33: length has no precondition, and its operation is one assignment. -/
theorem lengthReturnsTheCapacity : Obligations.LengthReturnsTheCapacity := by
  refine ⟨fun _ => decodeRequest_length, fun s hb => ?_⟩
  rw [exec_length hb]
  cases s.cfg.variant <;> simp [complete, accept, resOfCapacity, Variant.capacity, hb]

/-! ### The mode frame -/

theorem Emits.trans {s t u : State} {ds es : List Drive} (h : Emits s t ds) (h' : Emits t u es) :
    Emits s u (ds ++ es) := by
  obtain ⟨new, hnew, rfl⟩ := h
  obtain ⟨new', hnew', rfl⟩ := h'
  exact ⟨new ++ new', by rw [hnew', hnew, List.append_assoc], List.map_append⟩

/-- `t` is the completed state of an operation that sent the mode frame from `s` on, every transfer having returned
(40_init_and_query.md R111). -/
structure ModeFrameSent (s t : State) : Prop where
  emits : Emits s t modeDrives
  frame : t = { busFrame s t with inited := true, busy := false }
  abuf : t.abuf = s.abuf
  mem : t.dev.mem = s.dev.mem
  mode : Healthy s → t.dev.mode = modeSeq
  healthy : Healthy s → Healthy t
  absent : s.devPresent = false → t.dev = s.dev

theorem ModeFrameSent.inited {s t : State} (h : ModeFrameSent s t) : t.inited = true := by rw [h.frame]

/-- On an initialised bus whose transfers return, initialisation runs to its end. -/
theorem initialise_run {s : State} (hbus : s.busInited = true) (hR : Returns s) :
    ∃ u, initialise s = .ok () u ∧ ModeFrameSent s (complete u) := by
  obtain ⟨u, new, hrun, hfollows, hdrives, -, hhigh, hmem, hmode, habsent⟩ := modeFrame_run (H := Healthy s) hbus hR id
  refine ⟨{ u with inited := true }, by rw [initialise, hrun]; rfl, ?_⟩
  have hhealthy : Healthy s → Healthy u := hfollows.healthy
  have habuf := hfollows.abuf
  obtain ⟨-, hwire, hframe⟩ := hfollows
  exact {
    emits := ⟨new, wireTrace_of_wire hwire, hdrives⟩
    frame := by
      rw [hframe, hhigh]
      rfl
    abuf := habuf
    mem := hmem
    mode := hmode
    healthy := fun h => ⟨(hhealthy h).there, (hhealthy h).delivered⟩
    absent := habsent }

/-- initializeDevice is the mode frame, sent from the state that accepts it. -/
theorem exec_initializeDevice {s : State} (hr : BusReady s) (hR : Returns s) :
    ∃ t, exec .initializeDevice s = .next t ∧ ModeFrameSent (accept s) t := by
  obtain ⟨u, hrun, hsent⟩ := initialise_run (s := accept s) hr.bus (returns_accept hR)
  exact ⟨complete u, perform_ok hr.idle (by simp [initRefusal, hr.line, hr.bus]) hrun, hsent⟩

/-- Settles O31: acceptance changes nothing that the mode frame does not set again. -/
theorem initializeDeviceSendsTheModeFrame : Obligations.InitializeDeviceSendsTheModeFrame := by
  refine ⟨fun _ => decodeRequest_initializeDevice, fun s hr hR => ?_⟩
  obtain ⟨t, hexec, hsent⟩ := exec_initializeDevice hr hR
  have hframe : t = { busFrame s t with inited := true, busy := s.busy } := by
    rw [hr.idle]
    exact hsent.frame
  exact ⟨t, hexec, hsent.emits, hframe, hsent.abuf, hsent.mem, fun h => hsent.mode (healthy_accept h), hsent.absent⟩

/-- Settles O32: the block that the first initializeDevice leaves meets the precondition of the second, on a bus that still
delivers. -/
theorem initializeDeviceIsIdempotent : Obligations.InitializeDeviceIsIdempotent := by
  intro s t hr hh hexec
  obtain ⟨t', hexec', hsent⟩ := exec_initializeDevice hr hh.returns
  obtain rfl : t = t' := Host.Outcome.next.inj (hexec.symm.trans hexec')
  have ht : Healthy t := hsent.healthy (healthy_accept hh)
  have hready : BusReady t := by
    rw [hsent.frame]
    exact ⟨rfl, hr.line, hr.bus⟩
  obtain ⟨u, hagain, hsent'⟩ := exec_initializeDevice hready ht.returns
  have hinited : u.inited = t.inited := hsent'.inited.trans hsent.inited.symm
  have hmode : u.dev.mode = t.dev.mode := (hsent'.mode (healthy_accept ht)).trans (hsent.mode (healthy_accept hh)).symm
  exact ⟨u, hagain, hsent'.emits, hinited, hmode, hsent'.mem⟩

/-! ### create with automatic initialisation -/

/-- The state in which create begins its mode frame: the line configured, the bus initialised by a call that returned. -/
def createdBus (s : State) : State := markBusInit { configureLine s with fates := s.fates.tail }

theorem busInit_configureLine {s : State} (hR : Returns s) : busInit (configureLine s) = .ok () (createdBus s) :=
  if_neg (Returns.nextFate (s := configureLine s) hR)

theorem createdBus_emits (s : State) : Emits s (createdBus s) [.cfg, .init] :=
  ⟨[.cfg, .init], wireTrace_of_wire (by simp [createdBus]), rfl⟩

theorem createdBus_returns {s : State} (hR : Returns s) : Returns (createdBus s) :=
  hR.of_drop (k := 1) (by simp [createdBus])

theorem createdBus_healthy {s : State} (h : Healthy s) : Healthy (createdBus s) :=
  h.of_drop (k := 1) (by simp [createdBus]) rfl

/-- Settles O30: `CFG` and `INIT`, and then the mode frame, sent from `createdBus`. -/
theorem createAutoInitialises : Obligations.CreateAutoInitialises := by
  intro s hb hline hbus hR
  obtain ⟨u, hrun, hsent⟩ := initialise_run (s := createdBus (accept s)) rfl (createdBus_returns (returns_accept hR))
  have hbody : ((busInit (configureLine (accept s))).bind fun _ t => initialise t) = .ok () u := by
    rw [busInit_configureLine (returns_accept hR)]
    exact hrun
  have hexec : exec (.create true) s = .next (complete u) :=
    exec_create hb (by simp [createRefusal, hline, hbus]) hbody
  have hframe : complete u =
      { busFrame s (complete u) with csCfg := true, busInited := true, inited := true, busy := s.busy } := by
    rw [hb]
    exact hsent.frame
  exact ⟨complete u, hexec, (createdBus_emits (accept s)).trans hsent.emits, hframe, hsent.abuf, hsent.mem,
    fun h => hsent.mode (createdBus_healthy (healthy_accept h))⟩

end Sys2Proof.Machine
end

section
/-! SUPPORT. read, index, write and update (41_single_byte.md): what one completed read or write leaves, on any bus whose
transfers return. -/

namespace Sys2Proof.Machine

/-! ### The aliases -/

/-- `device[a]` runs read's precondition and read's operation (41_single_byte.md R133). -/
theorem exec_index (a : Word) (s : State) : exec (.index a) s = exec (.read a) s := rfl

/-- `update` runs write's precondition and write's operation (41_single_byte.md R132). -/
theorem exec_update (a : Word) (v : Byte) (s : State) : exec (.update a v) s = exec (.write a v) s := rfl

/-- Settles O35: the row of code `0xA`, and the arms of the two instructions. -/
theorem indexIsRead : Obligations.IndexIsRead := ⟨fun _ => decodeRequest_index, exec_index⟩

/-- Settles O37: the row of code `0x5`, and the arms of the two instructions. -/
theorem updateIsWrite : Obligations.UpdateIsWrite := ⟨fun _ => decodeRequest_update, exec_update⟩

/-! ### One completed bracket -/

/-- An operation that completes behind a closed bracket has changed only what `busFrame` names, and `busy`. -/
theorem Follows.frame_complete {s u : State} {new : List WireEvent} (h : Follows s u new) (hhigh : u.csN = true) :
    complete u = { busFrame s (complete u) with busy := false } := by
  obtain ⟨-, -, hframe⟩ := h
  rw [hframe, hhigh]
  rfl

/-- `t` is the completed state of a read at `a` from the ready state `s`, every transfer having returned: `hdr` went ahead of
the data position, in which `r` was received (41_single_byte.md R130). -/
structure ByteRead (s t : State) (a : Word) (hdr : List WireEvent) (r : Byte) : Prop where
  trace : t.wireTrace = s.wireTrace ++ hdr ++ [.x s.cfg.dummy r, .csHigh]
  header : hdr.map WireEvent.drive = headerDrives s.cfg.variant cmdRead (addressOf s.cfg.variant a)
  result : t.res = r.setWidth 32
  frame : t = { busFrame s t with addr := a, res := t.res }
  abuf : t.abuf = abufAfter s.cfg.variant s.abuf (addressOf s.cfg.variant a)
  kept : DeviceKept s t
  stored : Healthy s → r = s.dev.byteAt (addressOf s.cfg.variant a)

/-- A read is one read bracket, sent from the state that has latched the address. -/
theorem exec_read {s : State} (a : Word) (hr : Ready s) (hR : Returns s) :
    ∃ t hdr r, exec (.read a) s = .next t ∧ ByteRead s t a hdr r := by
  obtain ⟨u, r, hdr, hrun, hfollows, hheader, -, hhigh, hstore, hstored⟩ :=
    readByte_run (s := { accept s with addr := a }) (H := Healthy s) a hr.bus hR fun h => ⟨h.there, h.delivered⟩
  have hbody : readOperation a (accept s) = .ok () { u with res := resOfByte r } := by
    rw [readOperation, hrun]
    rfl
  have hframe := hfollows.frame_complete hhigh
  rw [← hr.idle] at hframe
  have habuf := hfollows.abuf
  obtain ⟨-, hwire, -⟩ := hfollows
  refine ⟨complete { u with res := resOfByte r }, hdr, r, perform_ok hr.idle (dataRefusal_ready hr) hbody, ?_⟩
  exact {
    trace := (wireTrace_of_wire hwire).trans (List.append_assoc ..).symm
    header := hheader
    result := rfl
    frame := congrArg (fun t : State => { t with res := resOfByte r }) hframe
    abuf := habuf
    kept := hstore.kept
    stored := hstored }

/-- `t` is the completed state of a write of `v` at `a` from the ready state `s`, every transfer having returned
(41_single_byte.md R131). -/
structure ByteWritten (s t : State) (a : Word) (v : Byte) : Prop where
  emits : Emits s t (frameDrives s.cfg.variant cmdWrite (addressOf s.cfg.variant a) [.x v])
  frame : t = { busFrame s t with addr := a, val := v }
  abuf : t.abuf = abufAfter s.cfg.variant s.abuf (addressOf s.cfg.variant a)
  mode : t.dev.mode = s.dev.mode
  stored : Healthy s → t.dev.byteAt (addressOf s.cfg.variant a) = v
  others : ∀ x, x ≠ addressOf s.cfg.variant a → t.dev.byteAt x = s.dev.byteAt x
  absent : s.devPresent = false → t.dev = s.dev
  healthy : Healthy s → Healthy t

/-- A write is one write bracket, sent from the state that has latched both operands. -/
theorem exec_write {s : State} (a : Word) (v : Byte) (hr : Ready s) (hR : Returns s) :
    ∃ t, exec (.write a v) s = .next t ∧ ByteWritten s t a v := by
  obtain ⟨u, new, hrun, hfollows, hdrives, -, hhigh, hmode, hothers, hmem, habsent⟩ :=
    writeByte_run (s := { accept s with addr := a, val := v }) (H := Healthy s) a v hr.bus hR
      fun h => ⟨h.there, h.delivered⟩
  have hframe := hfollows.frame_complete hhigh
  rw [← hr.idle] at hframe
  have habuf := hfollows.abuf
  have hhealthy : Healthy s → Healthy u := fun h => hfollows.healthy ⟨h.there, h.delivered⟩
  obtain ⟨-, hwire, -⟩ := hfollows
  refine ⟨complete u, perform_ok hr.idle (dataRefusal_ready hr) hrun, ?_⟩
  exact {
    emits := ⟨new, wireTrace_of_wire hwire, hdrives⟩
    frame := hframe
    abuf := habuf
    mode := hmode
    stored := fun h => byteAt_poke_same (hmem h)
    others := hothers
    absent := habsent
    healthy := fun h => ⟨(hhealthy h).there, (hhealthy h).delivered⟩ }

/-- A write leaves the block ready for the next operation. -/
theorem ByteWritten.ready {s t : State} {a : Word} {v : Byte} (h : ByteWritten s t a v) (hr : Ready s) : Ready t := by
  rw [h.frame]
  exact ⟨⟨hr.idle, hr.line, hr.bus⟩, hr.device⟩

/-- Settles O34: index is read, and a read is one bracket. -/
theorem readReturnsTheByteReceived : Obligations.ReadReturnsTheByteReceived := by
  refine ⟨fun _ => ⟨decodeRequest_read, decodeRequest_index⟩, fun s a i hi hr hR => ?_⟩
  obtain ⟨t, hdr, r, hexec, hread⟩ := exec_read a hr hR
  have hexecI : exec i s = .next t := by
    rcases hi with rfl | rfl
    · exact hexec
    · exact (exec_index a s).trans hexec
  exact ⟨t, hdr, r, hexecI, hread.trace, hread.header, hread.result, hread.frame, hread.abuf, hread.kept, hread.stored⟩

/-- Settles O36: update is write, and a write is one bracket. -/
theorem writeStoresOneByte : Obligations.WriteStoresOneByte := by
  refine ⟨fun _ => ⟨decodeRequest_write, decodeRequest_update⟩, fun s a v i hi hr hR => ?_⟩
  obtain ⟨t, hexec, hwritten⟩ := exec_write a v hr hR
  have hexecI : exec i s = .next t := by
    rcases hi with rfl | rfl
    · exact hexec
    · exact (exec_update a v s).trans hexec
  exact ⟨t, hexecI, hwritten.emits, hwritten.frame, hwritten.abuf, hwritten.mode, hwritten.stored, hwritten.others,
    hwritten.absent⟩

/-! ### A read after a write -/

/-- Addresses that mask to the same are one address of the device (20_memory.md R52). -/
theorem addressOf_eq_of_maskAddr {v : Variant} {a a' : Word} (h : maskAddr v a = maskAddr v a') :
    addressOf v a = addressOf v a' := by
  rw [← maskAddr_toNat, h, maskAddr_toNat]

/-- Settles O38: the write leaves `v` at the masked address, and the read receives the byte that stands there. -/
theorem writeThenReadReturnsTheByte : Obligations.WriteThenReadReturnsTheByte := by
  intro s t a a' v hr hh hmask hexec
  obtain ⟨t', hexec', hwritten⟩ := exec_write a v hr hh.returns
  obtain rfl : t = t' := Host.Outcome.next.inj (hexec.symm.trans hexec')
  refine ⟨hwritten.ready hr, hwritten.healthy hh, exec_cfg hexec, fun l hrl hhl hcfg hbyte => ?_⟩
  obtain ⟨u, hdr, r, hexecRead, hread⟩ := exec_read a' hrl hhl.returns
  have hreceived : r = v := calc
    r = l.dev.byteAt (addressOf s.cfg.variant a') := hcfg ▸ hread.stored hhl
    _ = l.dev.byteAt (addressOf s.cfg.variant a) := by rw [addressOf_eq_of_maskAddr hmask]
    _ = t.dev.byteAt (addressOf s.cfg.variant a) := hbyte
    _ = v := hwritten.stored hh
  exact ⟨u, hexecRead, by rw [hread.result, hreceived]⟩

end Sys2Proof.Machine
end

section
/-! SUPPORT. get and put (42_block_transfer.md): what one completed bracket with a block transfer in its data phase leaves, on
any bus whose transfers return. -/

namespace Sys2Proof.Machine

/-! ### The payload size -/

/-- A ready block refuses a payload of no byte and one that its region does not hold. -/
theorem payloadRefusal_badSize {s : State} {n : Nat} (h : Ready s) (hn : n = 0 ∨ s.cfg.nMax < n) :
    payloadRefusal n s = some .payloadSize := by
  have hok : payloadOk s.cfg n = false := by
    rcases hn with rfl | hn
    · rfl
    · simp [payloadOk, hn]
  simp [payloadRefusal, dataRefusal_ready h, hok]

/-- Settles O23: in a ready block the payload size is all that the precondition of get and of put still tests. -/
theorem payloadSizeIsChecked : Obligations.PayloadSizeIsChecked := fun _ _ _ _ hr =>
  ⟨fun hn => exec_of_refusal rfl hr.idle (payloadRefusal_badSize hr hn),
    fun hw => exec_of_refusal rfl hr.idle (payloadRefusal_badSize hr hw)⟩

/-! ### One bracket with a block transfer -/

/-- The device holds what some first bytes of a data phase leave, those that reached it before it lost the frame
(20_memory.md R65, R73; log 23). -/
def PrefixMoved (v : Variant) (w : Bool) (T : Device) (txs : List Byte) (d : Device) : Prop :=
  ∃ j, SameStore (T.blockMany v w (txs.take j)) d

theorem PrefixMoved.of_sameStore {v : Variant} {w : Bool} {T d : Device} (txs : List Byte) (h : SameStore T d) :
    PrefixMoved v w T txs d :=
  ⟨0, by cases w <;> exact h⟩

/-- A data phase of which only a part may have arrived goes no further than one that arrives as a whole. -/
theorem PrefixMoved.of_stage {H : Prop} {v : Variant} {w p : Bool} {d0 T d : Device} {txs : List Byte}
    (hT : SameStore d0 T) (h : Stage H (PrefixMoved v w T txs) p d0 (T.blockMany v w txs) d) : PrefixMoved v w T txs d := by
  cases hp : p with
  | false =>
    rw [h.1 hp]
    exact .of_sameStore txs ⟨hT.1.symm, hT.2.symm⟩
  | true =>
    rcases h.2 hp with rfl | ⟨-, -, hd⟩
    · exact ⟨txs.length, by rw [List.take_length]; exact ⟨rfl, rfl⟩⟩
    · exact hd

theorem PrefixMoved.trans {v : Variant} {w : Bool} {T d e : Device} {txs : List Byte} (h : PrefixMoved v w T txs d)
    (hde : SameStore d e) : PrefixMoved v w T txs e := by
  obtain ⟨j, hmem, hmode⟩ := h
  exact ⟨j, hde.1.trans hmem, hde.2.trans hmode⟩

theorem Stage.mono {H : Prop} {K L : Device → Prop} {p : Bool} {d0 T d : Device} (h : Stage H K p d0 T d)
    (hKL : ∀ d, K d → L d) : Stage H L p d0 T d :=
  ⟨h.1, fun hp => (h.2 hp).imp_right fun ⟨hH, hdead, hd⟩ => ⟨hH, hdead, hKL d hd⟩⟩

/-- The transfer region takes no part in a bracket but its block transfer. -/
theorem Follows.withRegion {s t : State} {new : List WireEvent} (h : Follows s t new) (l : List Byte) :
    Follows { s with dbuf := l } { t with dbuf := l } new := by
  obtain ⟨hfates, hwire, hframe⟩ := h
  exact ⟨hfates, hwire, by rw [hframe]⟩

/-- The device behind the header that sends it the masked address. -/
def addressedDevice (w : Bool) (s : State) (a : Word) : Device := s.dev.addressed w (addressOf s.cfg.variant a)

/-- `t` is the state after one bracket at `a` from `s` on, every transfer having returned, in which the bytes `txs` of the
region `txs ++ rest` were transferred as a block in place behind the header `hdr`, and `rxs` received for them
(20_memory.md R64). -/
structure BlockSent (w : Bool) (s t : State) (a : Word) (hdr : List WireEvent) (txs rest rxs : List Byte) : Prop where
  length : rxs.length = txs.length
  follows : Follows { withHeader s (addressOf s.cfg.variant a) with dbuf := rxs ++ rest } t
    (hdr ++ List.zipWith WireEvent.b txs rxs ++ [.csHigh])
  header : hdr.map WireEvent.drive = headerDrives s.cfg.variant (cmdOf w) (addressOf s.cfg.variant a)
  high : t.csN = true
  moved : PrefixMoved s.cfg.variant w (addressedDevice w s a) txs t.dev
  whole : Healthy s → SameStore ((addressedDevice w s a).blockMany s.cfg.variant w txs) t.dev
  absent : s.devPresent = false → t.dev = s.dev
  received : Healthy s → w = false → rxs = bytesAt s (addressOf s.cfg.variant a) txs.length

/-- Behind the header a present device can take the whole data phase. -/
theorem addressedDevice_data {s : State} {n : Nat} (hstreams : Streams s n) (w : Bool) (a : Word)
    (hthere : s.devPresent = true) :
    (addressedDevice w s a).dpos = (if w then .wr else .rd) ∧ Moves (addressedDevice w s a) n := by
  have hmoves : n ≤ 1 ∨ SequentialMode s := by
    rcases hstreams with h | h | h
    · exact .inl h
    · exact .inr h
    · exact absurd (h.symm.trans hthere) nofun
  exact ⟨rfl, moves_addressed hmoves w _⟩

/-- The header reaches the device or loses it, and the block transfer goes on from there. -/
theorem blockBracket_run {s : State} (w : Bool) (a : Word) {n : Nat} {txs rest : List Byte} (hb : s.busInited = true)
    (hR : Returns s) (hregion : s.dbuf = txs ++ rest) (hn : txs.length = n) (hstreams : Streams s n) :
    ∃ t hdr rxs, bracket (cmdOf w) a (xferBlock n 0) s = .ok () t ∧ BlockSent w s t a hdr txs rest rxs := by
  obtain ⟨u, hdr, he, hf, hheader, -, hst⟩ := bracket_run (H := Healthy s) w a hb hR id
  have hdbuf : u.dbuf = txs ++ rest := hf.dbuf.trans hregion
  have hcfg : u.cfg = s.cfg := hf.cfg
  have hthere : u.devPresent = s.devPresent := hf.devPresent
  have htake : (u.dbuf.drop 0).take n = txs := by rw [hdbuf, List.drop_zero, List.take_left' hn]
  have hstore : SameStore s.dev (addressedDevice w s a) := ⟨rfl, rfl⟩
  have hstage : Stage (Healthy s) (PrefixMoved s.cfg.variant w (addressedDevice w s a) txs) u.devPresent s.dev
      (addressedDevice w s a) u.dev := hthere ▸ hst.mono fun _ hd => .of_sameStore _ hd
  obtain ⟨t, new, rxs, hrun, hrxs, hf', rfl, hst', hreceived⟩ := xferBlock_run (H := Healthy s) w n (s := u) 0
    (hf.busInited.trans hb) (hf.returns hR) (fun h => hf.healthy ⟨h.there, h.delivered⟩) hstage
    (fun j _ => ⟨j, by rw [hcfg, htake]; exact ⟨rfl, rfl⟩⟩) rfl (fun _ => rfl)
    (by rw [hdbuf, List.length_append]; omega) (hthere ▸ addressedDevice_data hstreams w a)
    (by rw [hcfg]; exact addressOf_lt _ a)
  rw [htake] at hf' hst'
  rw [hcfg] at hst' hreceived
  have hlength : rxs.length = txs.length := hrxs.trans hn.symm
  have hafter : regionAfter u 0 rxs = { u with dbuf := rxs ++ rest } := by simp [regionAfter, hdbuf, hlength]
  have hthere' : t.devPresent = s.devPresent := hf'.devPresent.trans hthere
  have hclosed : SameStore t.dev (closeBracket t).dev := closeBracket_store t
  refine ⟨closeBracket t, hdr, rxs, by rw [he, hrun]; rfl, ?_⟩
  exact {
    length := hlength
    follows := ((hf.withRegion _).trans (hafter ▸ hf')).trans (.close t)
    header := hheader
    high := rfl
    moved := (PrefixMoved.of_stage hstore hst').trans hclosed
    whole := fun h => hst'.exact h (hthere'.trans h.there) ▸ hclosed
    absent := fun h => by simp [hthere'.trans h, hst'.1 (hthere'.trans h)]
    received := fun h hw => by rw [hreceived h hw, hn]; rfl }

section Sent
variable {w : Bool} {s t : State} {a : Word} {hdr : List WireEvent} {txs rest rxs : List Byte}
  (h : BlockSent w s t a hdr txs rest rxs)
include h

theorem BlockSent.trace :
    t.wireTrace = s.wireTrace ++ hdr ++ List.zipWith WireEvent.b txs rxs ++ [.csHigh] := by
  obtain ⟨-, hwire, -⟩ := h.follows
  rw [wireTrace_of_wire hwire, ← List.append_assoc, ← List.append_assoc]
  rfl

theorem BlockSent.abuf : t.abuf = abufAfter s.cfg.variant s.abuf (addressOf s.cfg.variant a) := h.follows.abuf

theorem BlockSent.dbuf : t.dbuf = rxs ++ rest := h.follows.dbuf

theorem BlockSent.frame_complete :
    complete t = { busFrame s (complete t) with dbuf := rxs ++ rest, busy := false } :=
  h.follows.frame_complete h.high

theorem BlockSent.healthy (hh : Healthy s) : Healthy t := h.follows.healthy ⟨hh.there, hh.delivered⟩

end Sent

/-- A READ frame leaves the device's bytes and mode, however much of it arrives (20_memory.md R73). -/
theorem BlockSent.kept {s t : State} {a : Word} {hdr : List WireEvent} {txs rest rxs : List Byte}
    (h : BlockSent false s t a hdr txs rest rxs) : DeviceKept s t := by
  obtain ⟨j, hmem, hmode⟩ := h.moved
  obtain ⟨hmem', hmode', -⟩ := readMany_fields s.cfg.variant (txs.take j).length (addressedDevice false s a)
  exact SameStore.kept ⟨hmem.trans hmem', hmode.trans hmode'⟩

section Written
variable {s t : State} {a : Word} {hdr : List WireEvent} {txs rest rxs : List Byte}
  (h : BlockSent true s t a hdr txs rest rxs)
include h

theorem BlockSent.mode : t.dev.mode = s.dev.mode := by
  obtain ⟨j, -, hmode⟩ := h.moved
  exact hmode.trans (writeMany_fields s.cfg.variant (txs.take j) (addressedDevice true s a)).1

/-- No byte outside the addresses sent to is touched, however much of the frame arrives. -/
theorem BlockSent.others (x : Nat)
    (hx : ∀ i < txs.length, x ≠ (addressOf s.cfg.variant a + i) % s.cfg.variant.capacity) :
    t.dev.byteAt x = s.dev.byteAt x := by
  obtain ⟨j, hmem, -⟩ := h.moved
  rw [byteAt_congr hmem]
  exact writeMany_other _ _ (addressedDevice true s a) x (addressOf_lt _ a) fun i hi =>
    hx i (hi.trans_le (List.length_take_le' j txs))

/-- On the reference device the last byte sent to an address is what it holds. -/
theorem BlockSent.stored (hh : Healthy s) (i : Nat) (hi : i < txs.length)
    (hlast : ∀ j < txs.length, i < j → (addressOf s.cfg.variant a + j) % s.cfg.variant.capacity ≠
      (addressOf s.cfg.variant a + i) % s.cfg.variant.capacity) :
    t.dev.byteAt ((addressOf s.cfg.variant a + i) % s.cfg.variant.capacity) = txs[i] := by
  rw [byteAt_congr (h.whole hh).1]
  exact writeMany_get _ txs (addressedDevice true s a) i hi (addressOf_lt _ a) hlast

end Written

/-! ### get -/

/-- `t` is the completed state of a get of `n` bytes at `a` from the ready state `s`, every transfer having returned: behind
`hdr` the bytes `txs` were driven and `rxs` received (42_block_transfer.md R150). -/
structure BlockRead (s t : State) (a : Word) (n : Nat) (hdr : List WireEvent) (txs rxs : List Byte) : Prop where
  driven : txs.length = n
  received : rxs.length = n
  trace : t.wireTrace = s.wireTrace ++ hdr ++ List.zipWith WireEvent.b txs rxs ++ [.csHigh]
  header : hdr.map WireEvent.drive = headerDrives s.cfg.variant cmdRead (addressOf s.cfg.variant a)
  frame : t = { busFrame s t with addr := a, n := n, rbuf := rxs, dbuf := rxs ++ s.dbuf.drop n }
  abuf : t.abuf = abufAfter s.cfg.variant s.abuf (addressOf s.cfg.variant a)
  kept : DeviceKept s t
  stored : Healthy s → rxs = bytesAt s (addressOf s.cfg.variant a) n

/-- The bytes get drives: free draws (42_block_transfer.md R150, D6; log 15). -/
def freeBytes (n : Nat) (s : State) : List Byte := (List.range n).map fun i => Config.freeByte (s.draws + i)

theorem length_freeBytes (n : Nat) (s : State) : (freeBytes n s).length = n := by simp [freeBytes]

theorem freeRegion_dbuf (n : Nat) (s : State) : (freeRegion n s).dbuf = freeBytes n s ++ s.dbuf.drop n :=
  congrArg (fun k => freeBytes n s ++ s.dbuf.drop k) (length_freeBytes n s)

/-- A get is one bracket, sent from the state that has latched both operands and drawn the bytes to drive. -/
theorem exec_get {s : State} (a : Word) {n : Nat} (hr : Ready s) (hR : Returns s) (h1 : 1 ≤ n) (hn : n ≤ s.cfg.nMax)
    (hstreams : Streams s n) : ∃ t hdr txs rxs, exec (.get a n) s = .next t ∧ BlockRead s t a n hdr txs rxs := by
  obtain ⟨u, hdr, rxs, hrun, hsent⟩ := blockBracket_run (s := freeRegion n { accept s with addr := a, n := n }) false a
    hr.bus hR (freeRegion_dbuf n _) (length_freeBytes n _) hstreams
  have hreceived : rxs.length = n := hsent.length.trans (length_freeBytes n _)
  have hbody : getOperation a n (accept s) = .ok () { u with rbuf := rxs } := by
    have htake : u.dbuf.take n = rxs := by rw [hsent.dbuf, List.take_left' hreceived]
    rw [← htake]
    exact congrArg (Run.bind · _) hrun
  have hframe := hsent.frame_complete
  rw [← hr.idle] at hframe
  refine ⟨complete { u with rbuf := rxs }, hdr, freeBytes n s, rxs, perform_ok hr.idle (payloadRefusal_ready hr h1 hn) hbody, ?_⟩
  exact {
    driven := length_freeBytes n _
    received := hreceived
    trace := hsent.trace
    header := hsent.header
    frame := congrArg (fun t : State => { t with rbuf := rxs }) hframe
    abuf := hsent.abuf
    kept := hsent.kept
    stored := fun h => (hsent.received ⟨h.there, h.delivered⟩ rfl).trans (by rw [length_freeBytes]; rfl) }

/-- Settles O40: a get is one READ bracket, and its result is what the block transfer received. -/
theorem getReturnsTheBytesReceived : Obligations.GetReturnsTheBytesReceived := by
  intro s a n hr hR h1 hn _ hstreams
  obtain ⟨t, hdr, txs, rxs, hexec, hread⟩ := exec_get a hr hR h1 hn hstreams
  exact ⟨t, hdr, txs, rxs, hexec, hread.driven, hread.received, hread.trace, hread.header, hread.frame, hread.abuf,
    hread.kept, hread.stored⟩

/-! ### put -/

/-- `t` is the completed state of a put of `w` at `a` from the ready state `s`, every transfer having returned: behind `hdr`
the bytes `w` were driven and `rxs` received (42_block_transfer.md R151). -/
structure BlockWritten (s t : State) (a : Word) (w : List Byte) (hdr : List WireEvent) (rxs : List Byte) : Prop where
  received : rxs.length = w.length
  trace : t.wireTrace = s.wireTrace ++ hdr ++ List.zipWith WireEvent.b w rxs ++ [.csHigh]
  header : hdr.map WireEvent.drive = headerDrives s.cfg.variant cmdWrite (addressOf s.cfg.variant a)
  frame : t = { busFrame s t with addr := a, n := w.length, rbuf := w, dbuf := rxs ++ s.dbuf.drop w.length }
  abuf : t.abuf = abufAfter s.cfg.variant s.abuf (addressOf s.cfg.variant a)
  mode : t.dev.mode = s.dev.mode
  stored : Healthy s → ∀ i (hi : i < w.length),
    (∀ j < w.length, i < j → (addressOf s.cfg.variant a + j) % s.cfg.variant.capacity ≠
      (addressOf s.cfg.variant a + i) % s.cfg.variant.capacity) →
    t.dev.byteAt ((addressOf s.cfg.variant a + i) % s.cfg.variant.capacity) = w[i]
  others : ∀ x, (∀ i < w.length, x ≠ (addressOf s.cfg.variant a + i) % s.cfg.variant.capacity) →
    t.dev.byteAt x = s.dev.byteAt x
  absent : s.devPresent = false → t.dev = s.dev
  healthy : Healthy s → Healthy t

/-- A put is one bracket, sent from the state that has latched both operands and loaded the value. -/
theorem exec_put {s : State} (a : Word) {w : List Byte} (hr : Ready s) (hR : Returns s) (h1 : 1 ≤ w.length)
    (hn : w.length ≤ s.cfg.nMax) (hstreams : Streams s w.length) :
    ∃ t hdr rxs, exec (.put a w) s = .next t ∧ BlockWritten s t a w hdr rxs := by
  obtain ⟨u, hdr, rxs, hrun, hsent⟩ := blockBracket_run (s := loadRegion w { accept s with addr := a, n := w.length }) true a
    hr.bus hR rfl rfl hstreams
  have hbody : putOperation a w (accept s) = .ok () { u with rbuf := w } := congrArg (Run.bind · _) hrun
  have hframe := hsent.frame_complete
  rw [← hr.idle] at hframe
  have hhealthy : Healthy s → Healthy u := fun h => hsent.healthy ⟨h.there, h.delivered⟩
  refine ⟨complete { u with rbuf := w }, hdr, rxs, perform_ok hr.idle (payloadRefusal_ready hr h1 hn) hbody, ?_⟩
  exact {
    received := hsent.length
    trace := hsent.trace
    header := hsent.header
    frame := congrArg (fun t : State => { t with rbuf := w }) hframe
    abuf := hsent.abuf
    mode := hsent.mode
    stored := fun h => hsent.stored ⟨h.there, h.delivered⟩
    others := hsent.others
    absent := hsent.absent
    healthy := fun h => ⟨(hhealthy h).there, (hhealthy h).delivered⟩ }

/-- Settles O41: a put is one WRITE bracket, and its result is its operand. -/
theorem putStoresTheBytes : Obligations.PutStoresTheBytes := by
  intro s a w hr hR h1 hn _ hstreams
  obtain ⟨t, hdr, rxs, hexec, hwritten⟩ := exec_put a hr hR h1 hn hstreams
  exact ⟨t, hdr, rxs, hexec, hwritten.received, hwritten.trace, hwritten.header, hwritten.frame, hwritten.abuf,
    hwritten.mode, hwritten.stored, hwritten.others, hwritten.absent⟩

/-! ### A get after a put -/

/-- Fewer steps than the device has addresses lead to another address. -/
theorem add_mod_capacity_ne {v : Variant} (m : Nat) {i j : Nat} (hij : i < j) (hj : j < v.capacity) :
    (m + j) % v.capacity ≠ (m + i) % v.capacity := by
  cases v <;> simp only [Variant.capacity] at hj ⊢ <;> omega

section Put
variable {s t : State} {a : Word} {w : List Byte} {hdr : List WireEvent} {rxs : List Byte}
  (h : BlockWritten s t a w hdr rxs)
include h

/-- A put leaves the block ready for the next operation. -/
theorem BlockWritten.ready (hr : Ready s) : Ready t := by
  rw [h.frame]
  exact ⟨⟨hr.idle, hr.line, hr.bus⟩, hr.device⟩

/-- A put leaves the transfer region as long as it was. -/
theorem BlockWritten.region (hw : w.length ≤ s.dbuf.length) : t.dbuf.length = s.dbuf.length := by
  rw [h.frame]
  simp [h.received, hw]

/-- No byte of a payload that is no longer than the device overwrites another, so the device holds all of it
(42_block_transfer.md R154). -/
theorem BlockWritten.bytesAt_eq (hh : Healthy s) (hw : w.length ≤ s.cfg.variant.capacity) :
    bytesAt t (addressOf s.cfg.variant a) w.length = w := by
  have hcfg : t.cfg = s.cfg := by
    rw [h.frame]
    rfl
  refine List.ext_getElem (by simp [bytesAt]) fun i _ hi => ?_
  have hstored := h.stored hh i hi fun j hj hij => add_mod_capacity_ne _ hij (hj.trans_le hw)
  simpa [bytesAt, hcfg] using hstored

end Put

/-- Settles O43: the put leaves `w` from the masked address on, and the get receives the bytes that stand there. -/
theorem putThenGetReturnsTheValue : Obligations.PutThenGetReturnsTheValue := by
  intro s t a a' w hr hh hseq hregion h1 hn hcap hmask hexec
  obtain ⟨t', hdr, rxs, hexec', hwritten⟩ := exec_put a hr hh.returns h1 hn (.inr (.inl hseq))
  obtain rfl : t = t' := Host.Outcome.next.inj (hexec.symm.trans hexec')
  have hcfg : t.cfg = s.cfg := exec_cfg hexec
  have hregion' : t.dbuf.length = t.cfg.nMax := by rw [hwritten.region (hregion ▸ hn), hregion, hcfg]
  refine ⟨hwritten.ready hr, hwritten.healthy hh, hcfg, hwritten.mode.trans hseq, hregion',
    fun l hrl hhl hseql hcfgl _ hbytes => ?_⟩
  obtain ⟨u, hdr', txs, rxs', hexecGet, hread⟩ :=
    exec_get a' hrl hhl.returns h1 (by rw [hcfgl]; exact hn) (.inr (.inl hseql))
  have hreceived : rxs' = w := calc
    rxs' = bytesAt l (addressOf s.cfg.variant a') w.length := hcfgl ▸ hread.stored hhl
    _ = bytesAt l (addressOf s.cfg.variant a) w.length := by rw [addressOf_eq_of_maskAddr hmask]
    _ = bytesAt t (addressOf s.cfg.variant a) w.length := hbytes
    _ = w := hwritten.bytesAt_eq hh hcap
  exact ⟨u, hexecGet, by rw [hread.frame]; exact hreceived⟩

end Sys2Proof.Machine
end

section
/-! SUPPORT. checksum (44_checksum.md): what the brackets of one completed checksum leave, on any bus whose transfers return. -/

namespace Sys2Proof.Machine

/-! ### The fold unit and the operands -/

/-- The fold unit stays at 0 while zero bytes come in (44_checksum.md R183). -/
theorem crc16_zeros (poly : Crc) (n : Nat) : crc16 poly 0 (List.replicate n 0x00) = 0 := by
  induction n with
  | zero => rfl
  | succ n ih =>
    have hstep : crc16Update poly 0 0x00 = 0 := crcBits_zero poly 8
    rw [List.replicate_succ, crc16, List.foldl_cons, hstep]
    exact ih

/-- 20_memory.md R53: the mask on Large is reduction modulo the capacity. -/
theorem maskLength_toNat (v : Variant) (len : Word) : (maskLength v len).toNat = foldedLength v len := by
  cases v with
  | small => rfl
  | large => exact maskAddr_toNat .large len

/-- Masking the start on Large too does not move the first address (44_checksum.md R185). -/
theorem addressOf_checksumStart (v : Variant) (a : Word) : addressOf v (checksumStart v a) = addressOf v a := by
  cases v with
  | small => rfl
  | large => exact (congrArg (· % _) (maskAddr_toNat .large a)).trans (Nat.mod_mod _ _)

theorem checksumRefusal_ready {s : State} {len : Word} (hr : Ready s) (hlen : lengthOk s.cfg len = true) :
    checksumRefusal len s = none := by
  simp [checksumRefusal, dataRefusal_ready hr, hlen]

/-! ### One completed checksum -/

section Fields
variable {s t : State} {new : List WireEvent}
theorem Follows.acc (h : Follows s t new) : t.acc = s.acc := by rw [h.2.2]
theorem Follows.cur (h : Follows s t new) : t.cur = s.cur := by rw [h.2.2]
end Fields

/-- An operation that completes wherever chip-select stands has changed only what `busFrame` names, and `busy`. -/
theorem Follows.frame_complete_level {s u : State} {new : List WireEvent} (h : Follows s u new) :
    complete u = { busFrame s (complete u) with csN := u.csN, busy := false } := by
  obtain ⟨-, -, hframe⟩ := h
  rw [hframe]
  rfl

/-- The state in which the loop of a checksum begins: operands latched, loop registers loaded, accumulator seeded
(44_checksum.md R185). -/
def checksumBegun (a len : Word) (s : State) : State :=
  seedUnit { s with addr := a, len := len, cur := checksumStart s.cfg.variant a, cnt := maskLength s.cfg.variant len }

/-- The loop of read brackets, begun with its registers loaded; the counter comes to 0 with the last byte. -/
theorem checksumOperation_run {s : State} (a len : Word) (hb : s.busInited = true) (hR : Returns s) :
    ∃ u new, checksumOperation a len s = .ok () { u with res := resOfCrc u.acc } ∧
      Follows { s with
        abuf := abufAfterReads s.cfg.variant s.abuf (addressOf s.cfg.variant a) (foldedLength s.cfg.variant len)
        addr := a, len := len, acc := crc16 s.cfg.crcPoly 0 (dataReplies new), cur := u.cur, cnt := 0 } u new ∧
      new.map WireEvent.drive = checksumDrives s.cfg (addressOf s.cfg.variant a) (foldedLength s.cfg.variant len) ∧
      (dataReplies new).length = foldedLength s.cfg.variant len ∧ SameStore s.dev u.dev ∧
      u.csN = (if foldedLength s.cfg.variant len = 0 then s.csN else true) ∧
      (Healthy s → dataReplies new = bytesAt s (addressOf s.cfg.variant a) (foldedLength s.cfg.variant len)) := by
  obtain ⟨u, new, _, hrun, hlength, hf, hdrives, rfl, hstore, hlevel, hstored⟩ :=
    foldBytes_run (s := checksumBegun a len s) (H := Healthy s) (maskLength s.cfg.variant len).toNat hb hR
      fun h => ⟨h.there, h.delivered⟩
  have haddress : addressOf (checksumBegun a len s).cfg.variant (checksumBegun a len s).cur = addressOf s.cfg.variant a :=
    addressOf_checksumStart _ a
  have hcount : (checksumBegun a len s).cnt - BitVec.ofNat 32 (maskLength s.cfg.variant len).toNat = 0 := by
    rw [BitVec.ofNat_toNat, BitVec.setWidth_eq]
    exact BitVec.sub_self _
  have hcur : (checksumBegun a len s).cur + BitVec.ofNat 32 (maskLength s.cfg.variant len).toNat = u.cur := hf.cur.symm
  rw [haddress, hcount, hcur, maskLength_toNat] at hf
  rw [haddress, maskLength_toNat] at hdrives hstored
  rw [maskLength_toNat] at hlength hlevel
  exact ⟨u, new, congrArg (fun m => Run.bind m fun _ s => .ok () { s with res := resOfCrc s.acc }) hrun, hf, hdrives, hlength,
    hstore, hlevel, hstored⟩

/-- `t` is the completed state of a checksum of `len` bytes at `a` from the ready state `s`, every transfer having returned, in
which the events `new` happened (44_checksum.md R185). -/
structure ChecksumFolded (s t : State) (a len : Word) (new : List WireEvent) : Prop where
  trace : t.wireTrace = s.wireTrace ++ new
  drives : new.map WireEvent.drive = checksumDrives s.cfg (addressOf s.cfg.variant a) (foldedLength s.cfg.variant len)
  length : (dataReplies new).length = foldedLength s.cfg.variant len
  acc : t.acc = crc16 s.cfg.crcPoly 0 (dataReplies new)
  result : t.res = (crc16 s.cfg.crcPoly 0 (dataReplies new)).setWidth 32
  frame : t = { busFrame s t with
    csN := if foldedLength s.cfg.variant len = 0 then s.csN else true
    addr := a, len := len, acc := t.acc, res := t.res, cur := t.cur, cnt := 0 }
  abuf : t.abuf = abufAfterReads s.cfg.variant s.abuf (addressOf s.cfg.variant a) (foldedLength s.cfg.variant len)
  kept : DeviceKept s t
  stored : Healthy s → dataReplies new = bytesAt s (addressOf s.cfg.variant a) (foldedLength s.cfg.variant len)

/-- A checksum is one read bracket a byte, sent from the state that has accepted it. -/
theorem exec_checksum {s : State} (a : Word) {len : Word} (hr : Ready s) (hR : Returns s) (hlen : lengthOk s.cfg len = true) :
    ∃ t new, exec (.checksum a len) s = .next t ∧ ChecksumFolded s t a len new := by
  obtain ⟨u, new, hrun, hf, hdrives, hlength, hstore, hlevel, hstored⟩ :=
    checksumOperation_run (s := accept s) a len hr.bus hR
  have hacc : u.acc = crc16 (accept s).cfg.crcPoly 0 (dataReplies new) := hf.acc
  have hframe := hf.frame_complete_level
  rw [← hr.idle, hlevel, ← hacc] at hframe
  have habuf := hf.abuf
  obtain ⟨-, hwire, -⟩ := hf
  refine ⟨complete { u with res := resOfCrc u.acc }, new, perform_ok hr.idle (checksumRefusal_ready hr hlen) hrun, ?_⟩
  exact {
    trace := wireTrace_of_wire hwire
    drives := hdrives
    length := hlength
    acc := hacc
    result := congrArg resOfCrc hacc
    frame := congrArg (fun t : State => { t with res := resOfCrc u.acc }) hframe
    abuf := habuf
    kept := hstore.kept
    stored := fun h => hstored ⟨h.there, h.delivered⟩ }

end Sys2Proof.Machine
end

section
/-! SUPPORT. erase (43_erase.md): what the one bracket of a completed erase leaves, on any bus whose transfers return, and what
the reference device answers afterwards. -/

namespace Sys2Proof.Machine

/-! ### The device after a whole erase frame -/

/-- The device that has taken a WRITE header of address 0 and as many zero bytes as it has addresses (43_erase.md R170). -/
def zeroedDevice (s : State) : Device :=
  (addressedDevice true s 0).writeMany s.cfg.variant (List.replicate s.cfg.variant.capacity 0x00)

theorem addressedDevice_zero_ptr (w : Bool) (s : State) : (addressedDevice w s 0).ptr = 0 := Nat.zero_mod _

theorem zeroedDevice_mode (s : State) : (zeroedDevice s).mode = s.dev.mode := (writeMany_fields _ _ _).1

theorem zeroedDevice_dpos (s : State) : (zeroedDevice s).dpos = .wr := (writeMany_fields _ _ _).2

/-- One byte for each address brings the pointer round to where it began (20_memory.md R73; K4). -/
theorem zeroedDevice_ptr (s : State) : (zeroedDevice s).ptr = 0 := by
  rw [zeroedDevice, writeMany_ptr _ _ _ (addressOf_lt _ 0), addressedDevice_zero_ptr, List.length_replicate, Nat.zero_add,
    Nat.mod_self]

/-- Counting up from 0, the frame reaches each address of the device once and no other. -/
theorem zeroedDevice_byteAt (s : State) (x : Nat) :
    (zeroedDevice s).byteAt x = if x < s.cfg.variant.capacity then 0x00 else s.dev.byteAt x := by
  have hptr := addressedDevice_zero_ptr true s
  have hlt := addressOf_lt s.cfg.variant 0
  split
  next hx =>
    have hget := writeMany_get s.cfg.variant (List.replicate s.cfg.variant.capacity 0x00) (addressedDevice true s 0) x
      (by simpa using hx) hlt fun j hj hxj => add_mod_capacity_ne _ hxj (by simpa using hj)
    rwa [hptr, Nat.zero_add, Nat.mod_eq_of_lt hx, List.getElem_replicate] at hget
  next hx =>
    exact writeMany_other _ _ (addressedDevice true s 0) x hlt fun i _ heq =>
      hx (heq ▸ Nat.mod_lt _ (capacity_pos _))

/-! ### One completed erase -/

/-- The loop counter takes no part in a bracket but its loop. -/
theorem Follows.withCount {s t : State} {new : List WireEvent} (h : Follows s t new) (c : Word) :
    Follows { s with cnt := c } { t with cnt := c } new := by
  obtain ⟨hfates, hwire, hframe⟩ := h
  exact ⟨hfates, hwire, by rw [hframe]⟩

/-- On Small and on Large the counter holds the capacity, and the loop counts it down to 0. -/
theorem resOfCapacity_sub (v : Variant) : resOfCapacity v - BitVec.ofNat 32 v.capacity = 0 := BitVec.sub_self _

/-- The end of a bracket leaves the pointer of a device that got the address where the data phase left it. -/
theorem closeBracket_ptr {t : State} (h : t.dev.dpos = .rd ∨ t.dev.dpos = .wr) : (closeBracket t).dev.ptr = t.dev.ptr := by
  cases hp : t.devPresent <;> simp [hp, deselect_ptr_kept h]

/-- In the data phase of a write the mode stays, wherever the device stands. -/
theorem WriteStage.mode {H : Prop} {s : State} {d0 T : Device} (h : WriteStage H s d0 T) (hT : T.mode = d0.mode) :
    s.dev.mode = d0.mode := by
  cases hp : s.devPresent with
  | false => rw [h.1 hp]
  | true =>
    rcases h.2 hp with hd | ⟨-, -, hmode⟩
    · rw [hd, hT]
    · exact hmode

/-- The header reaches the device or loses it, and the zeros go on from there. -/
theorem eraseOperation_run {s : State} (hb : s.busInited = true) (hR : Returns s)
    (hdevice : SequentialMode s ∨ s.devPresent = false) :
    ∃ t new, eraseOperation s = .ok () (closeBracket t) ∧ Follows { withHeader s 0 with cnt := 0 } t new ∧
      new.map WireEvent.drive =
        headerDrives s.cfg.variant cmdWrite 0 ++ List.replicate s.cfg.variant.capacity (.x 0x00) ∧
      WriteStage (Healthy s) t s.dev (zeroedDevice s) := by
  have hzero : addressOf s.cfg.variant 0 = 0 := Nat.zero_mod _
  obtain ⟨u, hdr, he, hf, hheader, -, hst⟩ := bracket_run (H := Healthy s) true 0 hb hR id
  rw [hzero] at hf hheader
  have hcfg : u.cfg = s.cfg := hf.cfg
  have hthere : u.devPresent = s.devPresent := hf.devPresent
  have hstage : WriteStage (Healthy s) u s.dev (addressedDevice true s 0) := by
    rw [WriteStage, hthere]
    exact hst.mono fun _ hd => hd.2
  have hhealthy (h : Healthy s) : Healthy u := hf.healthy ⟨h.there, h.delivered⟩
  obtain ⟨t, zeros, hrun, hf', hdrives, hst'⟩ := sendZeros_run (s := { u with cnt := resOfCapacity u.cfg.variant })
    u.cfg.variant.capacity (hf.busInited.trans hb) (hf.returns hR)
    (fun h => ⟨(hhealthy h).there, (hhealthy h).delivered⟩) hstage rfl
    (fun h => addressedDevice_data (.inr hdevice) true 0 (hthere.symm.trans h))
  simp only [resOfCapacity_sub] at hf'
  rw [hcfg] at hdrives
  simp only [hcfg] at hst'
  refine ⟨t, hdr ++ zeros, ?_, (hf.withCount 0).trans hf', by rw [List.map_append, hheader, hdrives]; rfl, hst'⟩
  show bracket (cmdOf true) 0 _ s = _
  rw [he, hrun]
  rfl

/-- `t` is the completed state of an erase from the ready state `s`, every transfer having returned (43_erase.md R170). -/
structure Erased (s t : State) : Prop where
  emits : Emits s t (frameDrives s.cfg.variant cmdWrite 0 (List.replicate s.cfg.variant.capacity (.x 0x00)))
  frame : t = { busFrame s t with cnt := 0 }
  abuf : t.abuf = abufAfter s.cfg.variant s.abuf 0
  mode : t.dev.mode = s.dev.mode
  bytes : Healthy s → ∀ x, t.dev.byteAt x = if x < s.cfg.variant.capacity then 0x00 else s.dev.byteAt x
  pointer : Healthy s → t.dev.ptr = 0
  absent : s.devPresent = false → t.dev = s.dev
  healthy : Healthy s → Healthy t

/-- An erase is one write bracket, sent from the state that has accepted it. -/
theorem exec_erase {s : State} (hr : Ready s) (hR : Returns s) (hdevice : SequentialMode s ∨ s.devPresent = false) :
    ∃ t, exec .erase s = .next t ∧ Erased s t := by
  obtain ⟨u, new, hrun, hf, hdrives, hst⟩ := eraseOperation_run (s := accept s) hr.bus hR hdevice
  have hthere : u.devPresent = s.devPresent := hf.devPresent
  have hclosed : SameStore u.dev (closeBracket u).dev := closeBracket_store u
  have hwhole (h : Healthy s) : u.dev = zeroedDevice s := hst.exact (healthy_accept h) (hthere.trans h.there)
  have hfollows := hf.trans (.close u)
  have hframe := hfollows.frame_complete rfl
  rw [← hr.idle] at hframe
  have habuf := hfollows.abuf
  have hhealthy (h : Healthy s) : Healthy (closeBracket u) := hfollows.healthy ⟨h.there, h.delivered⟩
  obtain ⟨-, hwire, -⟩ := hfollows
  refine ⟨complete (closeBracket u), perform_ok hr.idle (dataRefusal_ready hr) hrun, ?_⟩
  exact {
    emits := ⟨_, wireTrace_of_wire hwire, by rw [List.map_append, hdrives]; rfl⟩
    frame := hframe
    abuf := habuf
    mode := hclosed.2.trans (WriteStage.mode hst (zeroedDevice_mode s))
    bytes := fun h x => by rw [← zeroedDevice_byteAt, ← hwhole h]; exact byteAt_congr hclosed.1 x
    pointer := fun h => by
      have hpos : u.dev.dpos = .wr := hwhole h ▸ zeroedDevice_dpos s
      exact (closeBracket_ptr (.inr hpos)).trans (hwhole h ▸ zeroedDevice_ptr s)
    absent := fun h => by simp [hthere.trans h, hst.1 (hthere.trans h)]
    healthy := fun h => ⟨(hhealthy h).there, (hhealthy h).delivered⟩ }

/-- Settles O44: an erase is one WRITE bracket, which on the reference device leaves what `zeroedDevice` holds. -/
theorem eraseZeroesTheDevice : Obligations.EraseZeroesTheDevice := by
  intro s hr hR hdevice
  obtain ⟨t, hexec, herased⟩ := exec_erase hr hR hdevice
  exact ⟨t, hexec, herased.emits, herased.frame, herased.abuf, herased.mode, herased.bytes, herased.pointer, herased.absent⟩

/-! ### The zeros it leaves -/

section Zeroed
variable {s t : State} (h : Erased s t)
include h

/-- An erase leaves the block ready for the next operation. -/
theorem Erased.ready (hr : Ready s) : Ready t := by
  rw [h.frame]
  exact ⟨⟨hr.idle, hr.line, hr.bus⟩, hr.device⟩

theorem Erased.cfg : t.cfg = s.cfg := by
  rw [h.frame]
  rfl

theorem Erased.byteAt_addressOf (hh : Healthy s) (a : Word) : t.dev.byteAt (addressOf t.cfg.variant a) = 0x00 := by
  rw [h.bytes hh, if_pos (h.cfg ▸ addressOf_lt _ a)]

/-- Wrapping at the end of the device, every run of bytes lies in it. -/
theorem Erased.bytesAt_eq (hh : Healthy s) (m k : Nat) : bytesAt t m k = List.replicate k 0x00 := by
  refine List.ext_getElem (by simp [bytesAt]) fun i _ _ => ?_
  simp [bytesAt, h.bytes hh, h.cfg, Nat.mod_lt _ (capacity_pos _)]

end Zeroed

/-- Settles O45: the block is ready for each of the three operations, and what it receives are the zeros that the erase left. -/
theorem afterEraseEverythingReadsZero : Obligations.AfterEraseEverythingReadsZero := by
  intro s t hr hh hseq _ hexec
  obtain ⟨t', hexec', herased⟩ := exec_erase hr hh.returns (.inl hseq)
  obtain rfl : t = t' := Host.Outcome.next.inj (hexec.symm.trans hexec')
  have hrt : Ready t := herased.ready hr
  have hht : Healthy t := herased.healthy hh
  refine ⟨fun a => ?read, fun a n h1 hn => ?get, fun a len hlen => ?checksum⟩
  case read =>
    obtain ⟨u, hdr, r, hexecRead, hread⟩ := exec_read a hrt hht.returns
    have hreceived : r = 0x00 := (hread.stored hht).trans (herased.byteAt_addressOf hh a)
    exact ⟨u, hexecRead, by rw [hread.result, hreceived]; rfl⟩
  case get =>
    obtain ⟨u, hdr, txs, rxs, hexecGet, hget⟩ :=
      exec_get a hrt hht.returns h1 (herased.cfg ▸ hn) (.inr (.inl (herased.mode.trans hseq)))
    have hreceived : rxs = List.replicate n 0x00 := (hget.stored hht).trans (herased.bytesAt_eq hh _ _)
    exact ⟨u, hexecGet, by rw [hget.frame]; exact hreceived⟩
  case checksum =>
    obtain ⟨u, new, hexecChecksum, hfolded⟩ := exec_checksum a hrt hht.returns (herased.cfg ▸ hlen)
    have hreceived : dataReplies new = List.replicate (foldedLength t.cfg.variant len) 0x00 :=
      (hfolded.stored hht).trans (herased.bytesAt_eq hh _ _)
    exact ⟨u, hexecChecksum, by rw [hfolded.result, hreceived, crc16_zeros]; rfl⟩

end Sys2Proof.Machine
end

section
/-! SUPPORT. The laws of the fold unit (44_checksum.md R181, R183, R184): the table form, linearity over exclusive-or, runs of
bytes and the check values. -/

namespace Sys2Proof.Machine

/-! ### One fold -/

/-- A 16-bit value is its high byte, standing where it was, exclusive-or its low byte. -/
theorem highByte_xor_lowByte (x : Crc) : (x >>> 8 <<< 8) ^^^ (x.setWidth 8).setWidth 16 = x := by
  ext i hi
  by_cases h : i < 8
  · simp [h, BitVec.getLsbD_eq_getElem hi]
  · simp [h, show 8 + (i - 8) = i by omega, BitVec.getLsbD_eq_getElem hi]

/-- Eight steps only shift the high byte, and the low byte alone selects what is added (44_checksum.md R181). -/
theorem crcBits_eight (poly x : Crc) : crcBits poly 8 x = (x >>> 8) ^^^ crcTable poly (x.setWidth 8) := by
  have hhigh : crcBits poly 8 (x >>> 8 <<< 8) = x >>> 8 := by
    rw [crcBits_shift poly 8 _ fun i hi => by simp [hi]]
    ext i hi
    simpa using BitVec.lt_of_getLsbD
  have hlow : crcBits poly 8 ((x.setWidth 8).setWidth 16) = crcTable poly (x.setWidth 8) :=
    congrArg (crcBits poly 8) BitVec.zero_xor.symm
  conv_lhs => rw [← highByte_xor_lowByte x, crcBits_xor, hhigh, hlow]

/-- A byte that enters has no bit above the low eight. -/
theorem xor_byte_ushiftRight (crc : Crc) (b : Byte) : (crc ^^^ b.setWidth 16) >>> 8 = crc >>> 8 := by
  ext i hi
  simp

/-- Settles O46: the byte has entered the low half before the eight steps begin. -/
theorem tableFoldIsLoopFold : Obligations.TableFoldIsLoopFold := by
  intro poly crc b
  rw [crc16Update, crcBits_eight, xor_byte_ushiftRight]

/-- One fold is linear in the accumulator and the byte together (44_checksum.md R183). -/
theorem crc16Update_xor (poly x y : Crc) (b d : Byte) :
    crc16Update poly (x ^^^ y) (b ^^^ d) = crc16Update poly x b ^^^ crc16Update poly y d := by
  have hregroup : (x ^^^ y) ^^^ (b ^^^ d).setWidth 16 = (x ^^^ b.setWidth 16) ^^^ (y ^^^ d.setWidth 16) := by
    rw [BitVec.setWidth_xor]
    ac_rfl
  rw [crc16Update, hregroup, crcBits_xor]
  rfl

/-! ### Strings of bytes -/

theorem crc16_append (poly s : Crc) (xs ys : List Byte) :
    crc16 poly s (xs ++ ys) = crc16 poly (crc16 poly s xs) ys := List.foldl_append

/-- Linearity over strings of one length, for any two seeds. -/
theorem crc16_zipWith_xor (poly : Crc) : ∀ (s s' : Crc) (xs ys : List Byte), xs.length = ys.length →
    crc16 poly (s ^^^ s') (List.zipWith (· ^^^ ·) xs ys) = crc16 poly s xs ^^^ crc16 poly s' ys
  | _, _, [], [], _ => rfl
  | s, s', x :: xs, y :: ys, h => by
    have ih := crc16_zipWith_xor poly (crc16Update poly s x) (crc16Update poly s' y) xs ys (Nat.succ.inj h)
    rw [← crc16Update_xor] at ih
    exact ih

/-- Settles O47, law by law. -/
theorem foldLaws : Obligations.FoldLaws := by
  intro poly
  refine ⟨fun _ => rfl, crc16_append poly, fun n ys => ?leadingZeros, crc16Update_xor poly, fun xs ys h => ?linear,
    fun _ => rfl⟩
  case leadingZeros => rw [crc16_append, crc16_zeros]
  case linear => exact crc16_zipWith_xor poly 0 0 xs ys h

/-- Settles O48, each value by running the fold unit bit by bit. -/
theorem foldCheckValues : Obligations.FoldCheckValues := by
  refine ⟨?digits, ?rising, ?falling, ?deadBeef, rfl⟩
  all_goals simp [crc16, crc16Update, crcBits, crcBit]

end Sys2Proof.Machine
end

section
/-! SUPPORT. checksum (44_checksum.md R185, R186): the loop that reads no byte, and what the result depends on. -/

namespace Sys2Proof.Machine

/-- Settles O49: what one completed checksum leaves. -/
theorem checksumFoldsTheBytesRead : Obligations.ChecksumFoldsTheBytesRead := by
  refine ⟨fun _ => decodeRequest_checksum, fun s a len hr hR hlen => ?_⟩
  obtain ⟨t, new, hexec, hfolded⟩ := exec_checksum a hr hR hlen
  exact ⟨t, new, hexec, hfolded.trace, hfolded.drives, hfolded.length, hfolded.acc, hfolded.result, hfolded.frame,
    hfolded.abuf, hfolded.kept, hfolded.stored⟩

/-! ### No byte -/

/-- With no byte to fold the loop is left at once, on any bus, and the seed is the result. -/
theorem checksumOperation_empty {s : State} (a : Word) {len : Word} (h : foldedLength s.cfg.variant len = 0) :
    checksumOperation a len s = .ok () { checksumBegun a len s with res := resOfCrc crcSeed } := by
  have hcount : (maskLength s.cfg.variant len).toNat = 0 := (maskLength_toNat _ len).trans h
  rw [checksumOperation, hcount]
  rfl

/-- The length 0, and on Large the length `CAPACITY`, fold no byte, and their port can carry them. -/
theorem emptyLength_admitted {s : State} {len : Word} (h : len = 0 ∨ s.cfg.variant = .large ∧ len = 0x20000) :
    foldedLength s.cfg.variant len = 0 ∧ lengthOk s.cfg len = true := by
  obtain rfl | ⟨hlarge, rfl⟩ := h
  · cases hv : s.cfg.variant with
    | small => simp [foldedLength, lengthOk, hv]
    | large => simp [foldedLength, lengthOk, hv]
  · simp [foldedLength, lengthOk, hlarge]

/-- Settles O50: the operation is accepted and its loop is never entered. -/
theorem emptyChecksumIsZero : Obligations.EmptyChecksumIsZero := by
  intro s a len hr hempty
  obtain ⟨hfolded, hlen⟩ := emptyLength_admitted hempty
  exact ⟨_, perform_ok hr.idle (checksumRefusal_ready hr hlen) (checksumOperation_empty a hfolded), rfl, rfl, rfl⟩

/-! ### The operands and the result -/

/-- A checksum that answers a next state was admitted, and its port could carry the length. -/
theorem of_exec_checksum {s t : State} {a len : Word} (h : exec (.checksum a len) s = .next t) :
    Ready s ∧ lengthOk s.cfg len = true := by
  obtain ⟨hidle, hrefusal, -⟩ := perform_next h
  have hready : Ready s := ready_of_dataRefusal hidle (of_checksumRefusal hrefusal)
  simp only [checksumRefusal, dataRefusal_ready hready] at hrefusal
  exact ⟨hready, by simpa using hrefusal⟩

/-- The result of a checksum on the reference device (44_checksum.md R185): the operands take part only as the masked address and
the folded length. -/
def checksumResult (s : State) (a len : Word) : Word :=
  (crc16 s.cfg.crcPoly 0 (bytesAt s (addressOf s.cfg.variant a) (foldedLength s.cfg.variant len))).setWidth 32

theorem exec_checksum_healthy {s : State} (a : Word) {len : Word} (hr : Ready s) (hh : Healthy s)
    (hlen : lengthOk s.cfg len = true) :
    ∃ t, exec (.checksum a len) s = .next t ∧ t.res = checksumResult s a len := by
  obtain ⟨t, new, hexec, hfolded⟩ := exec_checksum a hr hh.returns hlen
  exact ⟨t, hexec, by rw [hfolded.result, hfolded.stored hh, checksumResult]⟩

/-- Settles O51: each clause leaves the masked address and the folded length as they are. -/
theorem checksumMaskingIsAsymmetric : Obligations.ChecksumMaskingIsAsymmetric := by
  intro s t a len hh hexec
  obtain ⟨hr, hlen⟩ := of_exec_checksum hexec
  obtain ⟨t', hexec', hres⟩ := exec_checksum_healthy a hr hh hlen
  obtain rfl : t = t' := Host.Outcome.next.inj (hexec.symm.trans hexec')
  rw [hres]
  refine ⟨fun len' hlarge hmod => ?length, fun a' hmask => ?address, fun hsmall => ?small⟩
  case length =>
    have hfolded : foldedLength s.cfg.variant len' = foldedLength s.cfg.variant len := by rw [hlarge]; exact hmod
    obtain ⟨u, hexecU, hresU⟩ := exec_checksum_healthy (len := len') a hr hh (by simp [lengthOk, hlarge])
    exact ⟨u, hexecU, by rw [hresU, checksumResult, hfolded, checksumResult]⟩
  case address =>
    obtain ⟨u, hexecU, hresU⟩ := exec_checksum_healthy a' hr hh hlen
    exact ⟨u, hexecU, by rw [hresU, checksumResult, addressOf_eq_of_maskAddr hmask, checksumResult]⟩
  case small => rw [checksumResult, hsmall]; rfl

end Sys2Proof.Machine
end

section
/-! SUPPORT. How an operation ends (60_exceptions.md R215, R217; 70_reset_and_hazards.md R250): its transfers stand inside a
bracket with the sequencer off `IDLE`, so where one never returns the block hangs there. -/

namespace Sys2Proof.Machine

/-! ### Refused while busy -/

theorem perform_busy {refusal : State → Option Refusal} {body : State → Run Unit} {s : State} (hb : s.busy = true) :
    perform refusal body s = .refused .busy := if_pos hb

theorem deviceFrame_busy {bytes : List Byte} {s : State} (hb : s.busy = true) :
    deviceFrame bytes s = .refused .busy := if_pos hb

/-- Settles O20: a request, a reserved code and a frame at the device's port each test `busy` first. -/
theorem busyRefusesEveryRequest : Obligations.BusyRefusesEveryRequest := by
  intro i s hb
  cases i with
  | create _ | initializeDevice | length => exact (exec_operation rfl s).trans (perform_busy hb)
  | read _ | write _ _ | update _ _ | get _ _ | put _ _ | erase | checksum _ _ | index _ =>
    exact (exec_operation rfl s).trans (perform_busy hb)
  | reservedB | reservedC | reservedD | reservedE | reservedF => exact reject_busy _ hb
  | writeModeRegister | readS _ _ | writeS _ _ | readL _ _ | writeL _ _ | readModeRegister _ =>
    exact deviceFrame_busy hb

/-! ### Where the transfers of an operation stand -/

/-- What is known after one action: behind `closed` nothing, behind `opened` that chip-select is low, behind `inFrame` that
the sequencer is off `IDLE`, too. `none`: a transfer where the two are not known, `IDLE` inside a bracket, or a call of
`BusInit`. -/
def Action.guarded (p : BracketPos) : Action → Option BracketPos
  | .line | .csHigh => some .closed
  | .csLow => some .opened
  | .goto q =>
    match p with
    | .closed => some .closed
    | .opened | .inFrame => if q = .idle then none else some .inFrame
  | .xfer _ | .block _ => if p = .inFrame then some .inFrame else none
  | .busInit => none
  | _ => some p

/-- The actions lead from what is known as `p` to what is known as `q`. -/
def Guarded (p q : BracketPos) (acts : List Action) : Prop := acts.foldlM Action.guarded p = some q

section Guarded
variable {p q r : BracketPos} {as bs : List Action}

theorem Guarded.append (h : Guarded p q as) (h' : Guarded q r bs) : Guarded p r (as ++ bs) := by
  unfold Guarded at h ⊢
  rw [List.foldlM_append, h]
  exact h'

theorem Guarded.replicate (h : Guarded p p as) (k : Nat) : Guarded p p (List.replicate k as).flatten := by
  induction k with
  | zero => rfl
  | succ k ih => exact h.append ih

theorem guarded_blocks (is : List Nat) : Guarded .inFrame .inFrame (is.map .block) := by
  induction is with
  | nil => rfl
  | cons i is ih => exact ih

/-- A bracket opens with `CS↓` and `phase <- CMD` (30_encoding.md R91). -/
theorem guarded_bracketActions (v : Variant) (cmd : Byte) (a : HeaderAddress) (h : Guarded .inFrame .inFrame as) :
    Guarded .closed .closed (bracketActions v cmd a as) := by
  have hheader : Guarded .closed .inFrame (.csLow :: headerActions v cmd a) := by cases v <;> rfl
  have hdata : Guarded .inFrame .inFrame (.goto .data :: as) := h
  exact (hheader.append hdata).append rfl

theorem guarded_readActions (v : Variant) (a : HeaderAddress) : Guarded .closed .closed (readActions v a) :=
  guarded_bracketActions v cmdRead a rfl

theorem guarded_foldActions (v : Variant) (k : Nat) : Guarded .closed .closed (foldActions v k) := by
  unfold foldActions
  refine Guarded.replicate ?_ k
  exact (guarded_readActions v .running).append rfl

theorem guarded_zeroActions (k : Nat) : Guarded .inFrame .inFrame (zeroActions k) := by
  unfold zeroActions
  refine Guarded.replicate ?_ k
  rfl

theorem guarded_initialiseActions : Guarded .closed .closed initialiseActions := rfl

/-- Every transfer of an operation stands inside a bracket; create with automatic initialisation calls `BusInit` besides. -/
theorem guarded_operationActions (v : Variant) {i : Instr} (hi : i ≠ .create true) :
    Guarded .closed .closed (operationActions v i) := by
  cases i with
  | create auto =>
    cases auto with
    | false => rfl
    | true => exact absurd rfl hi
  | initializeDevice => exact guarded_initialiseActions
  | length => rfl
  | read a | index a => exact (guarded_readActions v .operand).append rfl
  | write a b | update a b => exact guarded_bracketActions v cmdWrite .operand rfl
  | get a n => exact (guarded_bracketActions v cmdRead .operand (guarded_blocks _)).append rfl
  | put a w => exact (guarded_bracketActions v cmdWrite .operand (guarded_blocks _)).append rfl
  | erase => exact guarded_bracketActions v cmdWrite .origin (guarded_zeroActions _)
  | checksum a len => exact (guarded_foldActions v _).append rfl
  | reservedB | reservedC | reservedD | reservedE | reservedF => rfl
  | writeModeRegister | readS _ _ | writeS _ _ | readL _ _ | writeL _ _ | readModeRegister _ => rfl

/-- A transfer goes on where chip-select is low and the sequencer off `IDLE`. -/
theorem guarded_transfer (h : (if p = .inFrame then some BracketPos.inFrame else none) = some q) :
    p = .inFrame ∧ q = .inFrame := by
  split at h
  · rename_i hp
    cases h
    exact ⟨hp, rfl⟩
  · cases h

end Guarded

/-! ### An operation in progress -/

/-- An accepted operation that is not yet complete, and what is known of its bracket at the position `p`. -/
structure Underway (p : BracketPos) (s : State) : Prop where
  busy : s.busy = true
  pending : s.done = false
  low : p ≠ .closed → s.csN = false
  inside : p = .inFrame → s.phase ≠ .idle

namespace Underway
variable {p q : BracketPos} {s : State}

theorem accepted (s : State) : Underway .closed (accept s) := ⟨rfl, rfl, fun h => absurd rfl h, nofun⟩

theorem stalls (h : Underway .inFrame s) (hf : nextFate s = .stalled) : StalledInBracket s :=
  ⟨hf, h.busy, h.pending, h.low nofun, h.inside rfl⟩

theorem exchange (h : Underway .inFrame s) (ev : Byte → Byte → WireEvent) (tx : Byte) :
    (exchange ev tx s).Post (fun _ t => Underway .inFrame t) StalledInBracket :=
  exchange_post (fun _ _ _ => ⟨h.busy, h.pending, h.low, h.inside⟩) h.stalls

/-- One action, which hangs only inside a bracket. -/
theorem action (act : Action) (rx : Byte) (hp : act.guarded p = some q) (h : Underway p s) :
    (act.run rx s).Post (fun _ t => Underway q t) StalledInBracket := by
  cases act with
  | xfer tx =>
    obtain ⟨rfl, rfl⟩ := guarded_transfer hp
    exact h.exchange _ _
  | block i =>
    obtain ⟨rfl, rfl⟩ := guarded_transfer hp
    exact (h.exchange _ _).bind fun _ _ ht => ⟨ht.busy, ht.pending, ht.low, ht.inside⟩
  | busInit => cases hp
  | csLow =>
    cases hp
    exact ⟨h.busy, h.pending, fun _ => rfl, nofun⟩
  | csHigh | line =>
    cases hp
    exact ⟨h.busy, h.pending, fun hc => absurd rfl hc, nofun⟩
  | goto ph =>
    cases p with
    | closed =>
      cases hp
      exact ⟨h.busy, h.pending, h.low, nofun⟩
    | opened | inFrame =>
      dsimp only [Action.guarded] at hp
      split at hp
      · cases hp
      · rename_i hph
        cases hp
        exact ⟨h.busy, h.pending, fun _ => h.low nofun, fun _ => hph⟩
  | _ =>
    cases hp
    exact ⟨h.busy, h.pending, h.low, h.inside⟩

theorem actions {acts : List Action} (hw : Guarded p q acts) (rx : Byte) (h : Underway p s) :
    (runActions acts rx s).Post (fun _ t => Underway q t) StalledInBracket := by
  induction acts generalizing p rx s with
  | nil =>
    cases hw
    exact h
  | cons act acts ih =>
    unfold Guarded at hw
    rw [List.foldlM_cons] at hw
    obtain ⟨r, hr, hw⟩ := Option.bind_eq_some_iff.mp hw
    exact (action act rx hr h).bind fun rx t ht => ih hw rx ht

end Underway

/-! ### The end of an operation -/

/-- The two forms of a hang (logs 22 and 41). -/
def Hangs (i : Instr) (t : State) : Prop := StalledInBracket t ∨ i = .create true ∧ StalledInBusInit t

/-- create with automatic initialisation may hang in `BusInit`, behind the configuration of the line (log 41). -/
theorem createActions_hangs {s : State} (hbus : s.busInited = false) :
    (runActions (createActions true) 0x00 (accept s)).Post (fun _ _ => True) (Hangs (.create true)) := by
  have hinit : (busInit (configureLine (accept s))).Post (fun _ t => Underway .closed t) (Hangs (.create true)) :=
    busInit_post (fun _ => ⟨rfl, rfl, fun hc => absurd rfl hc, nofun⟩)
      fun hf => .inr ⟨rfl, hf, rfl, rfl, rfl, rfl, hbus⟩
  have hbusInit : ((Action.busInit).run 0x00 (configureLine (accept s))).Post (fun _ t => Underway .closed t)
      (Hangs (.create true)) := hinit.bind fun _ _ ht => ht
  exact hbusInit.bind fun rx _ ht => (ht.actions guarded_initialiseActions rx).mono (fun _ _ _ => trivial) fun _ => .inl

/-- An admitted operation runs to its end or hangs. -/
theorem operationRun_hangs {i : Instr} {s : State} (hr : operationRefusal i s = none) :
    (operationRun i (accept s)).Post (fun _ _ => True) (Hangs i) := by
  have hacts : (runActions (operationActions s.cfg.variant i) 0x00 (accept s)).Post (fun _ _ => True) (Hangs i) := by
    by_cases hi : i = .create true
    · subst hi
      exact createActions_hangs ((of_createRefusal hr).2 rfl)
    · exact ((Underway.accepted s).actions (guarded_operationActions _ hi) 0x00).mono (fun _ _ _ => trivial) fun _ => .inl
  exact hacts.bind fun _ _ _ => trivial

/-- Settles O16: what runs to its end is completed, and the rest hangs. -/
theorem operationCompletesOrHangs : Obligations.OperationCompletesOrHangs := by
  intro i s t hi h
  rw [exec_operation hi] at h
  exact Run.Post.perform (Q := fun t => t.busy = false ∧ t.done = true ∧ t.phase = .idle) (H := Hangs i)
    (fun _ hr => (operationRun_hangs hr).mono (fun _ _ _ => ⟨rfl, rfl, rfl⟩) fun _ hh => hh) h

end Sys2Proof.Machine
end

section
/-! SUPPORT. The hang and the reset of the block (70_reset_and_hazards.md R240, R241, R250): a busy state is stepped to itself,
and an operation whose transfer never returns stands where that transfer stands in its sequence. -/

namespace Sys2Proof.Machine

/-! ### A busy state stays as it is -/

theorem step_of_busy {s : State} (hb : s.busy = true) : step s = .next s := by
  unfold step fetch
  rw [if_pos hb]

/-- A state with a step to itself is where any number of steps leads. -/
theorem run_of_step_self {M : Host.Core} {s : M.State} (h : M.step s = .next s) (k : Nat) : M.run k s = .next s := by
  induction k with
  | zero => rfl
  | succ k ih =>
    rw [Host.Core.run, h]
    exact ih

/-- A reserved code and a wire command leave the block idle, so only an operation can hang. -/
theorem isOperation_of_busy {i : Instr} {s t : State} (h : exec i s = .next t) (hb : t.busy = true) :
    isOperation i = true := by
  have hframe : ∀ bytes, encode i = .frame bytes → t.busy = false := by
    intro bytes hbytes
    rw [exec_of_frame hbytes] at h
    obtain ⟨hidle, hport, -⟩ := deviceFrame_next h
    rw [hport]
    exact hidle
  cases i with
  | create _ | initializeDevice | length => rfl
  | read _ | write _ _ | update _ _ | get _ _ | put _ _ | erase | checksum _ _ | index _ => rfl
  | reservedB | reservedC | reservedD | reservedE | reservedF => exact absurd h reject_ne_next
  | writeModeRegister | readS _ _ | writeS _ _ | readL _ _ | writeL _ _ | readModeRegister _ =>
    exact absurd ((hframe _ rfl).symm.trans hb) nofun

/-- Settles O26: what has not completed hangs in one of the two forms, and a busy block neither moves nor accepts. -/
theorem hangLastsForEver : Obligations.HangLastsForEver := by
  intro i s t h hb
  have hstalled : StalledInBracket t ∨ StalledInBusInit t := by
    obtain ⟨hidle, -⟩ | hbracket | ⟨-, hinit⟩ := operationCompletesOrHangs i s t (isOperation_of_busy h hb) h
    · exact absurd (hidle.symm.trans hb) nofun
    · exact .inl hbracket
    · exact .inr hinit
  have hself : step t = .next t := step_of_busy hb
  exact ⟨hstalled, hself, run_of_step_self (M := Sys2Proof.core) hself, fun j => busyRefusesEveryRequest j t hb⟩

/-! ### An operation that hangs -/

theorem perform_hung {refusal : State → Option Refusal} {body : State → Run Unit} {s t : State}
    (hb : s.busy = false) (hr : refusal s = none) (h : body (accept s) = .hung t) :
    perform refusal body s = .next t := by
  simp [perform, hb, hr, h, Run.finish]

/-- Settles O27: the configuration of the line is all that happens before `BusInit` is called. -/
theorem createHangsInBusInit : Obligations.CreateHangsInBusInit := by
  intro s hb hline hbus hstalled
  have hinit : busInit (configureLine (accept s)) = .hung (configureLine (accept s)) := if_pos hstalled
  have hbody : ((busInit (configureLine (accept s))).bind fun _ t => initialise t) = .hung (configureLine (accept s)) := by
    rw [hinit]
    rfl
  unfold exec execCreate
  exact perform_hung hb (by simp [createRefusal, hline, hbus]) hbody

/-! ### A device that takes bytes and stores none -/

/-- Every byte of the list in turn has a meaning for the device, and the contents stay. -/
def Device.TakesStoringNone (v : Variant) : Device → List Byte → Prop
  | _, [] => True
  | d, tx :: rest => ∀ f, ∃ e rx, d.exchange v f tx = some (e, rx) ∧ e.mem = d.mem ∧ e.TakesStoringNone v rest

theorem Device.TakesStoringNone.take {v : Variant} {bytes : List Byte} {d : Device} (h : d.TakesStoringNone v bytes)
    (k : Nat) : d.TakesStoringNone v (bytes.take k) := by
  induction bytes generalizing d k with
  | nil => rw [List.take_nil]; trivial
  | cons tx rest ih =>
    cases k with
    | zero => trivial
    | succ k =>
      intro f
      obtain ⟨e, rx, he, hmem, hrest⟩ := h f
      exact ⟨e, rx, he, hmem, ih hrest k⟩

/-- The command byte and the address bytes of a WRITE frame (20_memory.md R72). -/
theorem takesStoringNone_writeHeader (v : Variant) {d : Device} (h : d.dpos = .cmd) (m : Nat) :
    d.TakesStoringNone v (cmdWrite :: addressBytes v m) := by
  cases v <;>
    simp [Device.TakesStoringNone, addressBytes, Device.exchange, h, Device.command, cmdWrite, cmdRead]

/-- A transfer that is delivered to such a device, or to no device, returns. -/
theorem respond_of_takes {s : State} {tx : Byte} {rest : List Byte} (hf : nextFate s = .delivered)
    (h : s.devPresent = true → s.dev.TakesStoringNone s.cfg.variant (tx :: rest)) :
    ∃ d rx, respond s tx = some (d, rx) ∧ d.mem = s.dev.mem ∧
      (s.devPresent = true → d.TakesStoringNone s.cfg.variant rest) := by
  cases hp : s.devPresent with
  | false => exact ⟨s.dev, Config.freeByte s.draws, by simp [respond, hp], rfl, nofun⟩
  | true =>
    obtain ⟨d, rx, hx, hmem, hrest⟩ := h hp (Config.freeByte s.draws)
    exact ⟨d, rx, by simp [respond, hp, hf, hx], hmem, fun _ => hrest⟩

/-! ### The transfer that stalls -/

theorem xfer_stalled {s : State} (tx : Byte) (hb : s.busInited = true) (hf : nextFate s = .stalled) :
    xfer tx s = .hung s := by
  simp [xfer, exchange, hb, hf]

theorem xfer_delivered {s : State} {tx rx : Byte} {d : Device} (hb : s.busInited = true) (hf : nextFate s = .delivered)
    (h : respond s tx = some (d, rx)) : xfer tx s = .ok rx (afterExchange s d (.x tx rx)) := by
  simp [xfer, exchange, hb, hf, h, afterExchange]

/-- Transfers one after another, each at its position of the frame. -/
def transferActions (ts : List (Phase × TxSource)) : List Action := ts.flatMap fun p => sendActions p.1 p.2

/-- `t` waits for the transfer number `k` of those begun in `s`: the events are those of the transfers before it, the
position is its own, and no byte has been stored. -/
structure StalledAt (ts : List (Phase × TxSource)) (k : Nat) (s t : State) : Prop where
  follows : ∃ new, Follows s t new ∧ new.map WireEvent.drive = (ts.take k).map fun p => .x (p.2.byte s)
  phase : (ts.map Prod.fst)[k]? = some t.phase
  low : t.csN = s.csN
  mem : t.dev.mem = s.dev.mem

/-- The bytes before the stalled transfer are taken one by one; whatever is to come behind it does not happen. -/
theorem transferActions_hang {ts : List (Phase × TxSource)} {k : Nat} {s : State} {later : List Fate} (rest : List Action)
    (rx : Byte) (hb : s.busInited = true) (hf : s.fates = List.replicate k .delivered ++ .stalled :: later)
    (hk : k < ts.length)
    (hd : s.devPresent = true →
      s.dev.TakesStoringNone s.cfg.variant ((ts.take k).map fun p => p.2.byte s)) :
    ∃ t, runActions (transferActions ts ++ rest) rx s = .hung t ∧ StalledAt ts k s t := by
  induction ts generalizing k rx s with
  | nil => exact absurd hk (Nat.not_lt_zero k)
  | cons p ts ih =>
    obtain ⟨ph, tx⟩ := p
    have hrun : runActions (transferActions ((ph, tx) :: ts) ++ rest) rx s =
        (xfer (tx.byte (setPhase ph s)) (setPhase ph s)).bind fun rx t => runActions (transferActions ts ++ rest) rx t := rfl
    rw [hrun]
    cases k with
    | zero =>
      refine ⟨setPhase ph s, ?_, ⟨[], Follows.phase s ph, rfl⟩, rfl, rfl, rfl⟩
      rw [xfer_stalled (s := setPhase ph s) _ hb (by simp [nextFate, hf])]
      rfl
    | succ k =>
      have hnext : nextFate (setPhase ph s) = .delivered := by simp [nextFate, hf, List.replicate_succ]
      obtain ⟨d, rx', hr, hmem, hrest⟩ := respond_of_takes (s := setPhase ph s) hnext hd
      have hfollows := (Follows.phase s ph).trans (Follows.after (s := setPhase ph s) d (.x (tx.byte s) rx'))
      have hbyte := fun p : Phase × TxSource => hfollows.byte p.2
      obtain ⟨t, ht, ⟨new, hnew, hdrives⟩, hphase, hlow, hstore⟩ :=
        ih (k := k) (s := afterExchange (setPhase ph s) d (.x (tx.byte s) rx')) rx' hb
          (by simp [afterExchange, hf, List.replicate_succ]) (Nat.lt_of_succ_lt_succ hk)
          (by simp only [hbyte]; exact hrest)
      refine ⟨t, ?_, ⟨_, hfollows.trans hnew, ?_⟩, hphase, hlow, hstore.trans hmem⟩
      · rw [(Follows.phase s ph).byte, xfer_delivered (s := setPhase ph s) hb hnext hr]
        exact ht
      · simp only [hbyte] at hdrives
        simp [hdrives, WireEvent.drive]

/-! ### write and update -/

/-- The transfers of a WRITE frame with one data byte (30_encoding.md R87, R91). -/
def writeTransfers : Variant → List (Phase × TxSource)
  | .small =>
    [(.cmd, .constant cmdWrite), (.addr1, .address .operand 1), (.addr0, .address .operand 0), (.data, .value)]
  | .large =>
    [(.cmd, .constant cmdWrite), (.addr2, .scratch2), (.addr1, .scratch1), (.addr0, .scratch0), (.data, .value)]

/-- The state in which a write begins its transfers: the operands latched, the bracket open, the scratch buffer filled. -/
def writeBegun (a : Word) (b : Byte) (s : State) : State :=
  { openBracket { s with addr := a, val := b } with
    abuf := abufAfter s.cfg.variant s.abuf (addressOf s.cfg.variant a) }

theorem writeSequence_run (a : Word) (b rx : Byte) (s : State) :
    runActions (writeSequence s.cfg.variant a b) rx s =
      runActions (transferActions (writeTransfers s.cfg.variant) ++ closeActions) rx (writeBegun a b s) := by
  unfold writeBegun
  cases hv : s.cfg.variant with
  | small => rfl
  | large =>
    have habuf : AddrBuf.ofWord (maskAddr s.cfg.variant a) = abufAfter .large s.abuf (addressOf .large a) := by
      rw [hv]
      exact abuf_ofWord a s.abuf
    rw [← habuf]
    rfl

theorem length_writeTransfers (v : Variant) (m : Nat) : (writeTransfers v).length = (addressBytes v m).length + 2 := by
  cases v <;> rfl

/-- The bytes sent are those of the frame (30_encoding.md R81, R85, R86). -/
theorem writeTransfers_bytes (a : Word) (b : Byte) (s : State) :
    (writeTransfers s.cfg.variant).map (fun p => p.2.byte (writeBegun a b s)) =
      cmdWrite :: addressBytes s.cfg.variant (addressOf s.cfg.variant a) ++ [b] := by
  unfold writeBegun
  cases hv : s.cfg.variant <;>
    simp [writeTransfers, TxSource.byte, HeaderAddress.word, addressBytes, byteK_eq, maskAddr_toNat, abufAfter, hv]

theorem writeBegun_emits (a : Word) (b : Byte) (s : State) : Emits s (writeBegun a b s) [.csLow] :=
  ⟨[.csLow], wireTrace_of_wire rfl, rfl⟩

theorem writeBegun_mem (a : Word) (b : Byte) (s : State) : (writeBegun a b s).dev.mem = s.dev.mem := by
  show (openBracket { s with addr := a, val := b }).dev.mem = _
  rw [openBracket_dev]
  split <;> rfl

theorem writeBegun_selected {a : Word} {b : Byte} {s : State} (hp : s.devPresent = true) :
    (writeBegun a b s).dev.dpos = .cmd := by
  show (openBracket { s with addr := a, val := b }).dev.dpos = _
  rw [openBracket_dev, if_pos hp]
  rfl

/-- A write stalls with its transfer number `k`, up to the one of the data byte. -/
theorem writeSequence_hangs {s : State} (a : Word) (b : Byte) {k : Nat} {later : List Fate} (hb : s.busInited = true)
    (hf : s.fates = List.replicate k .delivered ++ .stalled :: later)
    (hk : k < (writeTransfers s.cfg.variant).length) :
    ∃ t, runActions (writeSequence s.cfg.variant a b) 0x00 s = .hung t ∧
      StalledAt (writeTransfers s.cfg.variant) k (writeBegun a b s) t ∧
      Emits s t ((headerDrives s.cfg.variant cmdWrite (addressOf s.cfg.variant a)).take (k + 1)) := by
  have hbytes : ((writeTransfers s.cfg.variant).take k).map (fun p => p.2.byte (writeBegun a b s)) =
      (cmdWrite :: addressBytes s.cfg.variant (addressOf s.cfg.variant a)).take k := by
    rw [length_writeTransfers _ (addressOf s.cfg.variant a)] at hk
    rw [List.map_take, writeTransfers_bytes]
    exact List.take_append_of_le_length (Nat.le_of_lt_succ hk)
  have hdevice : s.devPresent = true → (writeBegun a b s).dev.TakesStoringNone s.cfg.variant
      (((writeTransfers s.cfg.variant).take k).map fun p => p.2.byte (writeBegun a b s)) := by
    intro hp
    rw [hbytes]
    exact (takesStoringNone_writeHeader _ (writeBegun_selected hp) _).take k
  obtain ⟨t, hrun, hstalled⟩ := transferActions_hang (s := writeBegun a b s) closeActions 0x00 hb hf hk hdevice
  refine ⟨t, (writeSequence_run a b 0x00 s).trans hrun, hstalled, ?_⟩
  obtain ⟨new, hfollows, hdrives⟩ := hstalled.follows
  have hsent : new.map WireEvent.drive =
      ((cmdWrite :: addressBytes s.cfg.variant (addressOf s.cfg.variant a)).take k).map Drive.x := by
    rw [hdrives, ← hbytes, List.map_map]
    rfl
  have hemits := (writeBegun_emits a b s).trans ⟨new, wireTrace_of_wire hfollows.2.1, hsent⟩
  rwa [List.map_take] at hemits

theorem exec_write_hangs {s : State} (a : Word) (b : Byte) {k : Nat} {later : List Fate} (hr : Ready s)
    (hf : s.fates = List.replicate k .delivered ++ .stalled :: later)
    (hk : k < (writeTransfers s.cfg.variant).length) :
    ∃ t, exec (.write a b) s = .next t ∧
      StalledAt (writeTransfers s.cfg.variant) k (writeBegun a b (accept s)) t ∧
      Emits s t ((headerDrives s.cfg.variant cmdWrite (addressOf s.cfg.variant a)).take (k + 1)) := by
  obtain ⟨t, hrun, hstalled⟩ := writeSequence_hangs (s := accept s) a b hr.bus hf hk
  have hbody : operationRun (.write a b) (accept s) = .hung t := congrArg (Run.map fun _ => ()) hrun
  refine ⟨t, ?_, hstalled⟩
  rw [exec_operation rfl]
  exact perform_hung hr.idle (dataRefusal_ready hr) hbody

/-- Settles O28: update is write, and a write hangs with the transfer that stalls. -/
theorem writeHangsAtTheStalledTransfer : Obligations.WriteHangsAtTheStalledTransfer := by
  intro s a v i k later hi hr hf hk
  obtain ⟨t, hexec, hstalled, hemits⟩ := exec_write_hangs a v hr hf ((length_writeTransfers _ 0).symm ▸ hk)
  have hexec' : exec i s = .next t := by
    obtain rfl | rfl := hi
    · exact hexec
    · exact (exec_update a v s).trans hexec
  obtain ⟨⟨new, ⟨-, -, hframe⟩, -⟩, hphase, hlow, hmem⟩ := hstalled
  have hbusy : t.busy = true := by rw [hframe]; rfl
  have hdone : t.done = false := by rw [hframe]; rfl
  have hinited : t.inited = s.inited := by rw [hframe]; rfl
  have hres : t.res = s.res := by rw [hframe]; rfl
  refine ⟨t, hexec', hbusy, hdone, hlow, hemits, ?_, hmem.trans (writeBegun_mem a v (accept s)), hinited, hres⟩
  cases hv : s.cfg.variant <;> rw [hv] at hphase <;> exact hphase

/-! ### A reset of the block -/

theorem fetch_of_blockReset {s : State} {rest : List Input} (hb : s.busy = false) (hi : s.inputs = .blockReset :: rest) :
    fetch s = .blockReset { s with inputs := rest } := by
  simp [fetch, hb, hi]

/-- Settles O59: `blockReset` writes the registers of the block and copies the environment. -/
theorem blockResetKeepsTheDevice : Obligations.BlockResetKeepsTheDevice := by
  intro s rest hb hi
  refine ⟨blockReset { s with inputs := rest }, ?_, rfl, rfl, rfl, rfl, rfl, rfl, rfl, rfl, rfl⟩
  rw [step, fetch_of_blockReset hb hi]

end Sys2Proof.Machine
end
